-- ==== Sys2Proof/Word.lean ====
section
/-! DEFINITION. The two word types of STEGCORE: a 32-bit register or pixel word, and an 8-bit byte. -/

namespace Sys2Proof

/-- A 32-bit word: a register of the space REG, a pixel word of PIX, a command word (R20, R63, R90). -/
abbrev Word := BitVec 32

/-- A byte of FRM, PAY or NAM (R64). -/
abbrev Byte := BitVec 8

end Sys2Proof
end

