-- ==== Sys2Proof/Config.lean ====
section
/-! DEFINITION. What an implementation of STEGCORE fixes (R7) and the free values of the model: uninterpreted
constants, of which nothing in Lean can prove a value. -/

namespace Sys2Proof

/-- The four capacities of R7, which `00_scope.md` calls arguments of a model. -/
structure Caps where
  /-- PIX_WORDS: how many 32-bit words PIX has (R46). -/
  pixWords : Nat
  /-- FRM_BYTES: how many bytes FRM has (R47). -/
  frmBytes : Nat
  /-- PAY_BYTES: how many bytes PAY has (R48). -/
  payBytes : Nat
  /-- NAM_BYTES: how many bytes NAM has (R49). -/
  namBytes : Nat
deriving DecidableEq, Repr

/-- PIX_WORDS of this implementation, 0 to 2^32 (R7). -/
opaque Config.pixWords : Fin 4294967297

/-- FRM_BYTES of this implementation less 12; FRM_BYTES is 12 to 2^32 - 1 (R7). -/
opaque Config.frmBytesAbove12 : Fin 4294967284

/-- PAY_BYTES of this implementation, 0 to 2^32 - 1 (R7). -/
opaque Config.payBytes : Fin 4294967296

/-- NAM_BYTES of this implementation, 0 to 2^32 - 1 (R7). -/
opaque Config.namBytes : Fin 4294967296

/-- The capacities of the implementation (log 1). -/
def Config.caps : Caps where
  pixWords := Config.pixWords.val
  frmBytes := 12 + Config.frmBytesAbove12.val
  payBytes := Config.payBytes.val
  namBytes := Config.namBytes.val

/-- The unspecified word of PIX that nothing has written since reset number `n` (R212; log 2, log 3):
`Config.unwrittenPix n a` is the word at index `a`. A free value. -/
opaque Config.unwrittenPix : Nat → Nat → Word

/-- The unspecified byte of FRM that nothing has written since reset number `n` (R212; log 2, log 3). A free value. -/
opaque Config.unwrittenFrm : Nat → Nat → Byte

/-- The unspecified byte of PAY that nothing has written since reset number `n` (R212; log 2, log 3). A free value. -/
opaque Config.unwrittenPay : Nat → Nat → Byte

/-- The unspecified byte of NAM that nothing has written since reset number `n` (R212; log 2, log 3). A free value. -/
opaque Config.unwrittenNam : Nat → Nat → Byte

end Sys2Proof
end

