-- ==== Sys2Proof/Syntax.lean ====
section
/-! DEFINITION. The syntax of STEGCORE: the thirteen commands (R92), the one command format (R90), the registers
(R20), the host port operations (R62) and the host-script statements (R99, R100). -/

namespace Sys2Proof

/-- The thirteen commands of R92, one constructor per row of spec/opcode_table.json. A command word has no operand
field (R90, R91): every operand is a named register or a memory. -/
inductive Instr where
  /-- UNPACK, `byte_to_bits` (R113). -/
  | unpack
  /-- PACK, `bits_to_byte` (R114). -/
  | pack
  /-- BUILD.F, 12-byte header (R130). -/
  | buildF
  /-- BUILD.M, 8-byte header (R131). -/
  | buildM
  /-- HDEC.F, header parse, 12 bytes (R132). -/
  | hdecF
  /-- HDEC.M, header parse, 8 bytes (R133). -/
  | hdecM
  /-- PARSE.F (R134). -/
  | parseF
  /-- PARSE.M (R135). -/
  | parseM
  /-- EMBED (R152). -/
  | embed
  /-- EXTRACT.F, also called DECODE.F (R156, R172). -/
  | extractF
  /-- EXTRACT.M, also called DECODE.M (R157, R172). -/
  | extractM
  /-- ENCODE.F (R170). -/
  | encodeF
  /-- ENCODE.M (R171). -/
  | encodeM
deriving DecidableEq, Repr

/-- The frame mode (R94): `file` is the 12-byte header (M = 0), `message` the 8-byte header (M = 1). -/
inductive Mode where
  | file
  | message
deriving DecidableEq, Repr

/-- The fields of format C (R90). -/
structure FormatC where
  /-- OP, bits 3:0. -/
  op : BitVec 4
  /-- M, bit 4. -/
  m : Bool
  /-- ZERO, bits 31:5. -/
  zero : BitVec 27
deriving DecidableEq, Repr

/-- Why a command word is illegal: the three conditions of R95. -/
inductive DecodeError where
  /-- Bits 31:5 are not all 0. -/
  | zeroFieldNotZero
  /-- OP is 0 or 9 to 15. -/
  | opNotAssigned
  /-- M = 1 with OP 1, 2 or 6. -/
  | modeBitNotAllowed
deriving DecidableEq, Repr

/-- The 23 registers of R20. -/
inductive Reg where
  | cmd
  | status
  | ctrl
  | width
  | height
  | plenLo
  | plenHi
  | nlenLo
  | nlenHi
  | flen
  | byte
  | bsq
  | rnlen
  | rplen
  | rtotLo
  | rtotHi
  | einfoLo
  | einfoHi
  | pidx
  | xpos
  | ypos
  | bidx
  | biti
deriving DecidableEq, Repr

/-- The host port operations of R62. Offsets and indices are plain numbers: one outside its space is a legal operation,
which reads 0 or writes nothing (R70). -/
inductive HostOp where
  | regRead (off : Nat)
  | regWrite (off : Nat) (v : Word)
  | pixRead (a : Nat)
  | pixWrite (a : Nat) (v : Word)
  | frmRead (i : Nat)
  | frmWrite (i : Nat) (b : Byte)
  | payRead (i : Nat)
  | payWrite (i : Nat) (b : Byte)
  | namRead (i : Nat)
  | namWrite (i : Nat) (b : Byte)
deriving DecidableEq, Repr

/-- What a host read returns (R62): a word from REG or PIX, a byte from FRM, PAY or NAM. -/
inductive Reply where
  | word (v : Word)
  | byte (b : Byte)
deriving DecidableEq, Repr

/-- What can reach the core from outside (R52): a port operation, or a change of the reset input `rst` (R210), which is
asserted (`rst true`) or released (`rst false`); the two after one another are a reset pulse. -/
inductive Event where
  | host (op : HostOp)
  | rst (asserted : Bool)
deriving DecidableEq, Repr

/-- One event and when it lands. `whileBusy` says that, if a command is running, the event lands before that command has
completed (R73 leaves the number of such accesses open); it means nothing when no command is running (log 5). -/
structure Arrival where
  event : Event
  whileBusy : Bool
deriving DecidableEq, Repr

/-- The two 64-bit operand pairs that `wr64` writes (R100). -/
inductive Pair where
  | plen
  | nlen
deriving DecidableEq, Repr

/-- The host-script statements of R99 and the pseudo-statements of R100. -/
inductive Stmt where
  /-- `wr REG, v`. -/
  | wr (r : Reg) (v : Word)
  /-- `rd REG`. -/
  | rd (r : Reg)
  /-- `cmd MNEMONIC`. -/
  | cmd (i : Instr)
  /-- `cmd DECODE.F` or `cmd DECODE.M`. -/
  | cmdDecode (m : Mode)
  /-- `pix a, v`. -/
  | pix (a : Nat) (v : Word)
  /-- `frm i, b0 b1 ...`. -/
  | frm (i : Nat) (bs : List Byte)
  /-- `pay i, b0 b1 ...`. -/
  | pay (i : Nat) (bs : List Byte)
  /-- `nam i, b0 b1 ...`. -/
  | nam (i : Nat) (bs : List Byte)
  /-- `rpix a, n`; `rpix a` is the case n = 1. -/
  | rpix (a n : Nat)
  /-- `rfrm i, n`; `rfrm i` is the case n = 1. -/
  | rfrm (i n : Nat)
  /-- `rpay i`. -/
  | rpay (i : Nat)
  /-- `rnam i`. -/
  | rnam (i : Nat)
  /-- `wr64 X, v`. -/
  | wr64 (x : Pair) (v : BitVec 64)
  /-- `wait`, with the number of STATUS reads that still see BUSY = 1 (log 11). -/
  | wait (busyReads : Nat)
  /-- `ack`. -/
  | ack
  /-- `fill a0, a1, v`. -/
  | fill (a0 a1 : Nat) (v : Word)
deriving DecidableEq, Repr

end Sys2Proof
end

