-- ==== Sys2Proof/WellFormed.lean ====
section
/-! DEFINITION. What the spec requires of a term: a legal command format (R93, R95) and legal capacities (R7). -/

namespace Sys2Proof

/-- Check 1 on a command format: bits 31:5 are 0 (R90, R95). -/
def FormatC.zeroClear (f : FormatC) : Bool := f.zero == 0

/-- Check 2 on a command format: OP is 1 to 8 (R93). -/
def FormatC.opAssigned (f : FormatC) : Bool := decide (1 ≤ f.op.toNat) && decide (f.op.toNat ≤ 8)

/-- Check 3 on a command format: M = 1 only with the operations that build or read a header, OP 3, 4, 5, 7, 8 (R93, R94). -/
def FormatC.modeAllowed (f : FormatC) : Bool := !f.m || !(f.op == 1 || f.op == 2 || f.op == 6)

/-- A format that is one of the thirteen commands of R92. -/
def FormatC.wellFormed (f : FormatC) : Bool := f.zeroClear && f.opAssigned && f.modeAllowed

/-- A command has no operand field (R90), so there is nothing in it to be ill-formed. -/
def Instr.wellFormed (_ : Instr) : Bool := true

/-- Check 1 on capacities: PIX_WORDS is at most 2^32 (R7). -/
def Caps.pixLegal (c : Caps) : Bool := decide (c.pixWords ≤ 2 ^ 32)

/-- Check 2 on capacities: FRM_BYTES is 12 to 2^32 - 1 (R7). -/
def Caps.frmLegal (c : Caps) : Bool := decide (12 ≤ c.frmBytes) && decide (c.frmBytes < 2 ^ 32)

/-- Check 3 on capacities: PAY_BYTES is at most 2^32 - 1 (R7). -/
def Caps.payLegal (c : Caps) : Bool := decide (c.payBytes < 2 ^ 32)

/-- Check 4 on capacities: NAM_BYTES is at most 2^32 - 1 (R7). -/
def Caps.namLegal (c : Caps) : Bool := decide (c.namBytes < 2 ^ 32)

/-- The capacities are in the ranges of R7. -/
def Caps.wellFormed (c : Caps) : Bool := c.pixLegal && c.frmLegal && c.payLegal && c.namLegal

end Sys2Proof
end

