-- ==== Sys2Proof/Decode.lean ====
section
/-! DEFINITION. The command decoder (R90, R93, R95), total on 32-bit words and rejecting by name, and the encoder
(R92), written from the same table. -/

namespace Sys2Proof

/-- The fields of a command word (R90). -/
def FormatC.ofWord (c : Word) : FormatC where
  op := c.extractLsb' 0 4
  m := c.getLsbD 4
  zero := c.extractLsb' 5 27

/-- The word that a format stands for (R90): ZERO above M above OP. -/
def FormatC.toWord (f : FormatC) : Word := f.zero ++ BitVec.ofBool f.m ++ f.op

/-- The opcode map of R93, read once ZERO is known to be 0. -/
def decodeOp (op : Nat) (m : Bool) : Except DecodeError Instr :=
  match op, m with
  | 1, false => .ok .unpack
  | 2, false => .ok .pack
  | 3, false => .ok .buildF
  | 3, true => .ok .buildM
  | 4, false => .ok .hdecF
  | 4, true => .ok .hdecM
  | 5, false => .ok .parseF
  | 5, true => .ok .parseM
  | 6, false => .ok .embed
  | 7, false => .ok .extractF
  | 7, true => .ok .extractM
  | 8, false => .ok .encodeF
  | 8, true => .ok .encodeM
  | 1, true => .error .modeBitNotAllowed
  | 2, true => .error .modeBitNotAllowed
  | 6, true => .error .modeBitNotAllowed
  | _, _ => .error .opNotAssigned

/-- The decoder: `word[31:5]` = 0, then the table of R93. Every other word is illegal (R95, R98). -/
def decode (c : Word) : Except DecodeError Instr :=
  let f := FormatC.ofWord c
  if f.zero = 0 then decodeOp f.op.toNat f.m else .error .zeroFieldNotZero

/-- OP of a command (R92). -/
def Instr.op : Instr → BitVec 4
  | .unpack => 1
  | .pack => 2
  | .buildF => 3
  | .buildM => 3
  | .hdecF => 4
  | .hdecM => 4
  | .parseF => 5
  | .parseM => 5
  | .embed => 6
  | .extractF => 7
  | .extractM => 7
  | .encodeF => 8
  | .encodeM => 8

/-- M of a command (R92). -/
def Instr.m : Instr → Bool
  | .unpack => false
  | .pack => false
  | .buildF => false
  | .buildM => true
  | .hdecF => false
  | .hdecM => true
  | .parseF => false
  | .parseM => true
  | .embed => false
  | .extractF => false
  | .extractM => true
  | .encodeF => false
  | .encodeM => true

/-- The format of a command. -/
def Instr.format (i : Instr) : FormatC where
  op := i.op
  m := i.m
  zero := 0

/-- The encoder: the command word of R92. -/
def encode (i : Instr) : Word := i.format.toWord

/-- The command whose bits are `w`, `nbits` of them given and every higher bit 0, numbered as
spec/opcode_table.json numbers them. A command is one 32-bit word (R90): a number that needs more bits is none. -/
def decodeTableWord (nbits w : Nat) : Option Instr :=
  let bits := w % 2 ^ nbits
  if bits < 2 ^ 32 then
    match decode (BitVec.ofNat 32 bits) with
    | .ok i => some i
    | .error _ => none
  else none

end Sys2Proof
end

