-- ==== Sys2Proof/Machine/State.lean ====
section
/-! DEFINITION. The state of STEGCORE as plain data (`10_state.md`), the reasons a step can stop, and the state after
reset (R51, R211). -/

namespace Sys2Proof.Machine

/-- A memory whose unit is `w` bits wide: the units that something has written, each with its index, indices strictly
rising. An index that is not listed has not been written since the last reset: it holds an unspecified value
(R212; log 2). For w = 8 this is a list of `Host.Cell`. -/
abbrev Memory (w : Nat) := List (Nat × BitVec w)

/-- The canonical form of a memory: the indices strictly rise. An unlisted index has no written value, so no entry can
equal what an unlisted index holds, and memories that hold the same are equal lists (log 2). -/
abbrev Memory.wf {w : Nat} (m : Memory w) : Prop := m.Pairwise (fun x y => x.1 < y.1)

/-- STATUS (R23); the other bits are reserved and read 0. -/
structure Status where
  busy : Bool
  done : Bool
  np : Bool
  err : BitVec 4
deriving DecidableEq, Repr

/-- CTRL (R24). -/
structure Ctrl where
  ie : Bool
  layout : Bool
deriving DecidableEq, Repr

/-- BSQ (R31). -/
structure Bsq where
  vec : BitVec 16
  cnt : BitVec 5
deriving DecidableEq, Repr

/-- The five position registers of a pass (R36 to R40). -/
structure Cursor where
  pidx : BitVec 32
  xpos : BitVec 16
  ypos : BitVec 16
  bidx : BitVec 32
  biti : BitVec 3
deriving DecidableEq, Repr

/-- The state of STEGCORE. Each register has the width of its used bits (R20); its reserved bits read 0 and drop
writes (R21), so they are not stored (log 15). -/
structure State where
  /-- STATUS, offset 0x04 (R23). -/
  status : Status
  /-- CTRL, offset 0x08 (R24). -/
  ctrl : Ctrl
  /-- WIDTH, offset 0x0C (R25). -/
  width : BitVec 16
  /-- HEIGHT, offset 0x10 (R26). -/
  height : BitVec 16
  /-- PLEN_LO, offset 0x14 (R27). -/
  plenLo : BitVec 32
  /-- PLEN_HI, offset 0x18 (R27). -/
  plenHi : BitVec 32
  /-- NLEN_LO, offset 0x1C (R28). -/
  nlenLo : BitVec 32
  /-- NLEN_HI, offset 0x20 (R28). -/
  nlenHi : BitVec 32
  /-- FLEN, offset 0x24 (R29). -/
  flen : BitVec 32
  /-- BYTE, offset 0x28 (R30). -/
  byte : BitVec 8
  /-- BSQ, offset 0x2C (R31). -/
  bsq : Bsq
  /-- RNLEN, offset 0x30 (R32). -/
  rnlen : BitVec 32
  /-- RPLEN, offset 0x34 (R33). -/
  rplen : BitVec 32
  /-- RTOT_LO, offset 0x38 (R34). -/
  rtotLo : BitVec 32
  /-- RTOT_HI, offset 0x3C (R34). -/
  rtotHi : BitVec 2
  /-- EINFO_LO, offset 0x40 (R35). -/
  einfoLo : BitVec 32
  /-- EINFO_HI, offset 0x44 (R35). -/
  einfoHi : BitVec 32
  /-- PIDX, XPOS, YPOS, BIDX and BITI, offsets 0x48 to 0x58 (R36 to R40). -/
  cursor : Cursor
  /-- PIX, the pixel memory, by word index (R46). -/
  pix : Memory 32
  /-- FRM, the frame memory, by byte index (R47). -/
  frm : Memory 8
  /-- PAY, the payload memory (R48). -/
  pay : Memory 8
  /-- NAM, the filename memory (R49). -/
  nam : Memory 8
  /-- `cmdw`, the command word latched at the CMD write (R50, R76); hidden from the host. -/
  cmdw : BitVec 32
  /-- The reset input `rst` as it stands (R52, R210): `true` while it is asserted. -/
  rst : Bool
  /-- The model's own: the capacities of R7. No step changes them (log 1). -/
  caps : Caps
  /-- The model's own: how many times `rst` has been asserted or released from reset; it selects the free values of memory (log 3). -/
  resets : Nat
  /-- The model's own: the host's accesses and changes of `rst` still to come, oldest first (log 4). -/
  inputs : List Arrival
  /-- The model's own: what the host's reads have returned, newest first (log 8). -/
  replies : List Reply
deriving DecidableEq, Repr

/-- A step of STEGCORE never stops with a fault: every error is the error end of a command, a next state (R186), no
access faults (R198) and no state is stuck (R222). So there is no reason a fault could carry. -/
inductive Fault where
deriving DecidableEq, Repr

/-- Why a step gives no meaning to an instruction. -/
inductive Refusal where
  /-- Raised by an arm of `exec` whose command has no meaning yet. Safe: nothing is claimed about it. No arm of this
  model raises it. -/
  | notModelled (mnemonic : String)
deriving DecidableEq, Repr

/-- The state right after reset: every register 0 (R51, R211), the memories unspecified, that is with nothing listed
(R212), `rst` released (R210), no host access pending. -/
def State.reset : State where
  status := { busy := false, done := false, np := false, err := 0 }
  ctrl := { ie := false, layout := false }
  width := 0
  height := 0
  plenLo := 0
  plenHi := 0
  nlenLo := 0
  nlenHi := 0
  flen := 0
  byte := 0
  bsq := { vec := 0, cnt := 0 }
  rnlen := 0
  rplen := 0
  rtotLo := 0
  rtotHi := 0
  einfoLo := 0
  einfoHi := 0
  cursor := { pidx := 0, xpos := 0, ypos := 0, bidx := 0, biti := 0 }
  pix := []
  frm := []
  pay := []
  nam := []
  cmdw := 0
  rst := false
  caps := Config.caps
  resets := 0
  inputs := []
  replies := []

end Sys2Proof.Machine
end

