-- ==== Sys2Proof/Machine/Flags.lean ====
section
/-! DEFINITION. Every flag computation of the spec: the error codes (R181), the condition bits that EINFO reports
(R183), the STATUS, CTRL and BSQ words as the host reads them (R23, R24, R31), and the interrupt output (R190). -/

namespace Sys2Proof.Machine

/-- The error taxonomy of R181. `imageIOFailure` is reserved: no command raises it. -/
inductive ErrorName where
  | magicMismatch
  | insufficientCapacity
  | truncatedPayload
  | payloadTooLarge
  | invalidEncoding
  | imageIOFailure
  | invalidArgument
  | illegalCommand
  | resourceLimit
deriving DecidableEq, Repr

/-- The error numbers of R181. -/
def ErrorName.code : ErrorName → BitVec 4
  | .magicMismatch => 1
  | .insufficientCapacity => 2
  | .truncatedPayload => 3
  | .payloadTooLarge => 4
  | .invalidEncoding => 5
  | .imageIOFailure => 6
  | .invalidArgument => 7
  | .illegalCommand => 8
  | .resourceLimit => 9

/-- `weight` when the condition holds, else 0: one term of `too` and `rl` in R130, R131 and R152. -/
def condBit (weight : Nat) (holds : Bool) : Nat := if holds then weight else 0

/-- `too` of R130: bit 0 for a name length above 2^32 - 1, bit 1 for a payload length above it (R183). -/
def tooLargeBits (n p : Nat) : Nat :=
  condBit 1 (decide (n > 2 ^ 32 - 1)) + condBit 2 (decide (p > 2 ^ 32 - 1))

/-- `rl` of BUILD (R130, R131): bit 1 for FRM, bit 2 for PAY, bit 3 for NAM (R183). -/
def buildLimitBits (c : Caps) (n p total : Nat) : Nat :=
  condBit 2 (decide (total > c.frmBytes)) + condBit 4 (decide (p > c.payBytes))
    + condBit 8 (decide (n > c.namBytes))

/-- `rl` of EMBED (R152): bit 0 for a grid larger than PIX, bit 1 for a frame longer than FRM (R183). -/
def embedLimitBits (c : Caps) (pixels frameBytes : Nat) : Nat :=
  condBit 1 (decide (pixels > c.pixWords)) + condBit 2 (decide (frameBytes > c.frmBytes))

/-- STATUS as the host reads it when BUSY = 0, and as R23 lays it out: BUSY 0, DONE 1, NP 2, ERR 11:8. -/
def Status.word (t : Status) : Word :=
  0#20 ++ t.err ++ 0#5 ++ BitVec.ofBool t.np ++ BitVec.ofBool t.done ++ BitVec.ofBool t.busy

/-- CTRL as the host reads it (R24): IE 0, LAYOUT 1. -/
def Ctrl.word (c : Ctrl) : Word := 0#30 ++ BitVec.ofBool c.layout ++ BitVec.ofBool c.ie

/-- BSQ as the host reads it (R31): VEC 15:0, CNT 20:16. -/
def Bsq.word (b : Bsq) : Word := 0#11 ++ b.cnt ++ b.vec

/-- The interrupt output, a level (R190): IE and DONE. -/
def State.irq (s : State) : Bool := s.ctrl.ie && s.status.done

end Sys2Proof.Machine
end

