-- ==== Sys2Proof/Machine/Ops.lean ====
section
/-! DEFINITION. The named operations over memories, registers and the cursor; the frame common to all commands
(prologue R96, completion R97); TAKING AN EXCEPTION, which on STEGCORE is `raise` (R186), and beside it what stands for
the return from one, the host's acknowledgement (R23, R188). -/

namespace Sys2Proof.Machine

/-! ### Memories (R11, R67, R68) -/

/-- The value last written at index `a`, if any. -/
def Memory.read {w : Nat} : Memory w → Nat → Option (BitVec w)
  | [], _ => none
  | (k, v) :: rest, a => if k = a then some v else Memory.read rest a

/-- Write `v` at index `a`, keeping the indices rising. -/
def Memory.write {w : Nat} : Memory w → Nat → BitVec w → Memory w
  | [], a, v => [(a, v)]
  | (k, x) :: rest, a, v =>
    if a < k then (a, v) :: (k, x) :: rest
    else if a = k then (a, v) :: rest
    else (k, x) :: Memory.write rest a v

/-- Write consecutive units from index `a` on. -/
def Memory.writeAll {w : Nat} : Memory w → Nat → List (BitVec w) → Memory w
  | m, _, [] => m
  | m, a, v :: vs => Memory.writeAll (Memory.write m a v) (a + 1) vs

/-- What index `a` holds: what was last written there, else the free value `free a` (R212; log 2). -/
def Memory.get {w : Nat} (free : Nat → BitVec w) (m : Memory w) (a : Nat) : BitVec w :=
  (m.read a).getD (free a)

/-- `PIX[a]` (R46). -/
def State.pixAt (s : State) (a : Nat) : Word := Memory.get (Config.unwrittenPix s.resets) s.pix a

/-- `FRM[i]` (R47). -/
def State.frmAt (s : State) (i : Nat) : Byte := Memory.get (Config.unwrittenFrm s.resets) s.frm i

/-- `PAY[i]` (R48). -/
def State.payAt (s : State) (i : Nat) : Byte := Memory.get (Config.unwrittenPay s.resets) s.pay i

/-- `NAM[i]` (R49). -/
def State.namAt (s : State) (i : Nat) : Byte := Memory.get (Config.unwrittenNam s.resets) s.nam i

/-- `S[a..a+n)` of R11, the `n` bytes from index `a` on. -/
def slice (mem : Nat → Byte) (a n : Nat) : List Byte := (List.range n).map (fun k => mem (a + k))

/-! ### The frame common to all commands -/

/-- `r[EINFO] <- info` (R35, R186). -/
def State.setEinfo (s : State) (info : BitVec 64) : State :=
  { s with einfoLo := info.extractLsb' 0 32, einfoHi := info.extractLsb' 32 32 }

/-- `r[RTOT] <- total` (R34, R129). -/
def State.setRtot (s : State) (total : BitVec 34) : State :=
  { s with rtotLo := total.extractLsb' 0 32, rtotHi := total.extractLsb' 32 2 }

/-- The prologue of every command (R96). -/
def prologue (s : State) : State :=
  { s with
    status := { busy := true, done := false, np := false, err := 0 }
    einfoLo := 0, einfoHi := 0
    rnlen := 0, rplen := 0
    rtotLo := 0, rtotHi := 0 }

/-- Completion (R97). -/
def complete (s : State) : State :=
  { s with status := { s.status with busy := false, done := true } }

/-- TAKING AN EXCEPTION (R186): ERR and EINFO are written, then the command completes. Nothing is saved and nothing
is redirected. -/
def raise (e : ErrorName) (info : BitVec 64) (s : State) : State :=
  complete (State.setEinfo { s with status := { s.status with err := e.code } } info)

/-- What stands for the return from an exception (R188): the host writes STATUS; a 1 in bit 1 clears DONE and nothing
else changes (R23). -/
def acknowledge (v : Word) (s : State) : State :=
  { s with status := { s.status with done := s.status.done && !v.getLsbD 1 } }

/-- How the body of a command ends (R97): it runs to its end, or it executes `raise e(info)`. The state is the one its
writes have made so far, which a raise keeps (R186, R187). -/
inductive Body where
  | ends (s : State)
  | raises (e : ErrorName) (info : BitVec 64) (s : State)
deriving DecidableEq, Repr

/-- One body after another: a raise in the first ends both (R12). -/
def Body.andThen (b : Body) (k : State → Body) : Body :=
  match b with
  | .ends s => k s
  | .raises e info s => .raises e info s

/-- The end of a command (R97). -/
def Body.finish : Body → State
  | .ends s => complete s
  | .raises e info s => raise e info s

/-- A whole command: prologue, body, completion or error end (R96, R97). -/
def command (body : State → Body) (s : State) : State := (body (prologue s)).finish

/-- The body of every illegal word (R95). -/
def illegalBody (c : Word) (s : State) : Body := .raises .illegalCommand (c.setWidth 64) s

/-- A word that is none of the thirteen commands (R95, R98). -/
def illegalCommand (c : Word) (s : State) : State := command (illegalBody c) s

/-! ### Results (R129) -/

/-- `SetResults` of R129: RNLEN, RPLEN, RTOT, and NP = 1 exactly in file mode with name_length > 0. -/
def setResults (m : Mode) (n p total : Nat) (s : State) : State :=
  State.setRtot
    { s with
      rnlen := BitVec.ofNat 32 n
      rplen := BitVec.ofNat 32 p
      status := { s.status with np := decide (m = .file ∧ n > 0) } }
    (BitVec.ofNat 34 total)

/-! ### The position of a pass (R43 to R45) -/

/-- The cursor at the start of a pass (R43). -/
def Cursor.start : Cursor := { pidx := 0, xpos := 0, ypos := 0, bidx := 0, biti := 0 }

/-- The first action of EMBED, EXTRACT and ENCODE (R43). -/
def resetCursor (s : State) : State := { s with cursor := Cursor.start }

/-- `AdvanceRaster` (R44), `h` the HEIGHT of the grid. -/
def Cursor.advanceRaster (h : BitVec 16) (c : Cursor) : Cursor :=
  if c.ypos.toNat + 1 = h.toNat then
    { c with pidx := c.pidx + 1, ypos := 0, xpos := c.xpos + 1 }
  else
    { c with pidx := c.pidx + 1, ypos := c.ypos + 1 }

/-- `AdvanceBit` (R45). -/
def Cursor.advanceBit (c : Cursor) : Cursor :=
  if c.biti = 7 then { c with biti := 0, bidx := c.bidx + 1 } else { c with biti := c.biti + 1 }

end Sys2Proof.Machine
end

