-- ==== Sys2Proof/Machine/Operands.lean ====
section
/-! DEFINITION. Every operand form and every function over operands that the spec gives: the constants of R7, the
64-bit pairs (R10, R91), the Bit Codec's functions (R110, R111, R115), the frame format (R120 to R128), the grid and
the address generator (R140 to R142), the designated bit (R144). All arithmetic is exact (R8). -/

namespace Sys2Proof.Machine

/-! ### Register operands (R10, R27, R28, R29) -/

/-- `r[PLEN]`, the 64-bit payload length (R10, R27). -/
def State.plen (s : State) : Nat := s.plenLo.toNat + 2 ^ 32 * s.plenHi.toNat

/-- `r[NLEN]`, the 64-bit filename length (R10, R28). -/
def State.nlen (s : State) : Nat := s.nlenLo.toNat + 2 ^ 32 * s.nlenHi.toNat

/-- `r[EINFO]`, the 64-bit information word (R10, R35). -/
def State.einfo (s : State) : Nat := s.einfoLo.toNat + 2 ^ 32 * s.einfoHi.toNat

/-- `r[RTOT]`, the 34-bit expected total (R10, R34). -/
def State.rtot (s : State) : Nat := s.rtotLo.toNat + 2 ^ 32 * s.rtotHi.toNat

/-- The filename length that BUILD and ENCODE of a mode use: NLEN in file mode; message mode has no name (R130, R131). -/
def State.nameLen (m : Mode) (s : State) : Nat :=
  match m with
  | .file => s.nlen
  | .message => 0

/-! ### The Bit Codec (R110, R111, R115) -/

/-- `ByteToBits` of R110: element i is bit i. -/
def byteToBits (b : Byte) : List Bool := (List.range 8).map b.getLsbD

/-- `BitsToByte` of R111, a sum of weights; a sequence of another length has no value. -/
def bitsToByte (bits : List Bool) : Option Byte :=
  if bits.length = 8 then
    some (BitVec.ofNat 8 (bits.foldr (fun bit high => bit.toNat + 2 * high) 0))
  else none

/-- `FrameBit` of R115: bit k of the bit sequence of a byte sequence. -/
def frameBit (bytes : Nat → Byte) (k : Nat) : Bool := (bytes (k / 8)).getLsbD (k % 8)

/-- A byte with one bit replaced: `acc[i] <- v` of R153. -/
def setBit (b : Byte) (i : Nat) (v : Bool) : Byte :=
  (b &&& ~~~(1#8 <<< i)) ||| ((BitVec.ofBool v).setWidth 8 <<< i)

/-! ### The frame format (R120 to R126) -/

/-- `HS(M)` of R123: 12 bytes in file mode, 8 in message mode. -/
def headerSize : Mode → Nat
  | .file => 12
  | .message => 8

/-- `MAGIC` of R7, "STEG". -/
def magic : List Byte := [0x53, 0x54, 0x45, 0x47]

/-- `LE32` of R122. -/
def le32 (v : Nat) : List Byte :=
  [BitVec.ofNat 8 v, BitVec.ofNat 8 (v / 2 ^ 8), BitVec.ofNat 8 (v / 2 ^ 16), BitVec.ofNat 8 (v / 2 ^ 24)]

/-- `UnLE32` of R122. -/
def unLE32 (b0 b1 b2 b3 : Byte) : Nat :=
  b0.toNat + 2 ^ 8 * b1.toNat + 2 ^ 16 * b2.toNat + 2 ^ 24 * b3.toNat

/-- `UnLE32(B[a..a+4))`. -/
def fieldAt (bytes : Nat → Byte) (a : Nat) : Nat :=
  unLE32 (bytes a) (bytes (a + 1)) (bytes (a + 2)) (bytes (a + 3))

/-- `FrameLen` of R124; the name length of a message-mode frame is 0. -/
def frameLen (m : Mode) (n p : Nat) : Nat :=
  match m with
  | .file => 12 + n + p
  | .message => 8 + p

/-- `HdrEncode` of R125. -/
def hdrEncode (m : Mode) (n p : Nat) : List Byte :=
  match m with
  | .file => magic ++ le32 n ++ le32 p
  | .message => magic ++ le32 p

/-- A decoded header: name_length, payload_length and the expected total frame length. -/
structure Header where
  n : Nat
  p : Nat
  total : Nat
deriving DecidableEq, Repr

/-- What `HdrDecode` of R126 returns. -/
inductive HdrResult where
  | magicBad (found : Nat)
  | ok (h : Header)
deriving DecidableEq, Repr

/-- `HdrDecode` of R126, over the bytes `bytes 0, bytes 1, ...`. -/
def hdrDecode (m : Mode) (bytes : Nat → Byte) : HdrResult :=
  if [bytes 0, bytes 1, bytes 2, bytes 3] ≠ magic then .magicBad (fieldAt bytes 0)
  else
    match m with
    | .file => .ok ⟨fieldAt bytes 4, fieldAt bytes 8, headerSize .file + fieldAt bytes 4 + fieldAt bytes 8⟩
    | .message => .ok ⟨0, fieldAt bytes 4, headerSize .message + 0 + fieldAt bytes 4⟩

/-- The bytes of the frame that BUILD writes (R120, R121): header, name, payload. In message mode n is 0. -/
def frameBytes (m : Mode) (n p : Nat) (nam pay : Nat → Byte) : List Byte :=
  hdrEncode m n p ++ slice nam 0 n ++ slice pay 0 p

/-! ### UTF-8 (R127, R128) -/

/-- A row of R127: for each byte of the sequence, the least and the greatest value it may have. -/
abbrev Utf8Row := List (Byte × Byte)

/-- The nine rows of R127. -/
def utf8Rows : List Utf8Row :=
  [[(0x00, 0x7F)],
   [(0xC2, 0xDF), (0x80, 0xBF)],
   [(0xE0, 0xE0), (0xA0, 0xBF), (0x80, 0xBF)],
   [(0xE1, 0xEC), (0x80, 0xBF), (0x80, 0xBF)],
   [(0xED, 0xED), (0x80, 0x9F), (0x80, 0xBF)],
   [(0xEE, 0xEF), (0x80, 0xBF), (0x80, 0xBF)],
   [(0xF0, 0xF0), (0x90, 0xBF), (0x80, 0xBF), (0x80, 0xBF)],
   [(0xF1, 0xF3), (0x80, 0xBF), (0x80, 0xBF), (0x80, 0xBF)],
   [(0xF4, 0xF4), (0x80, 0x8F), (0x80, 0xBF), (0x80, 0xBF)]]

/-- Whether the bytes begin with a sequence that matches the row. -/
def Utf8Row.matchesPrefix : Utf8Row → List Byte → Bool
  | [], _ => true
  | _ :: _, [] => false
  | (lo, hi) :: row, b :: bs => decide (lo ≤ b) && decide (b ≤ hi) && Utf8Row.matchesPrefix row bs

/-- The length m of the row that matches at the head of the bytes, if some row does. -/
def utf8SeqLen (bs : List Byte) : Option Nat :=
  (utf8Rows.find? (fun row => Utf8Row.matchesPrefix row bs)).map List.length

/-- The loop of R128 at index `i`, with `skip` bytes of an accepted sequence still to pass over. -/
def utf8Scan (skip i : Nat) : List Byte → Option Nat
  | [] => none
  | b :: bs =>
    match skip with
    | k + 1 => utf8Scan k (i + 1) bs
    | 0 =>
      match utf8SeqLen (b :: bs) with
      | some m => utf8Scan (m - 1) (i + 1) bs
      | none => some i

/-- `Utf8FirstBad` of R128: the index of the first byte of the first ill-formed or cut-short sequence. -/
def utf8FirstBad (bs : List Byte) : Option Nat := utf8Scan 0 0 bs

/-! ### The grid and the address generator (R140 to R142) -/

/-- What a pass reads once at its start: W, H and LAYOUT (R140, R142). -/
structure Grid where
  w : BitVec 16
  h : BitVec 16
  columnMajor : Bool
deriving DecidableEq, Repr

/-- The grid that a state's registers give. -/
def State.grid (s : State) : Grid where
  w := s.width
  h := s.height
  columnMajor := s.ctrl.layout

/-- N = W * H, the pixel count and the capacity in bits (R140, R146). -/
def Grid.pixels (g : Grid) : Nat := g.w.toNat * g.h.toNat

/-- `Coord(k)` of R141, for k below N. -/
def Grid.coord (g : Grid) (k : Nat) : Nat × Nat := (k / g.h.toNat, k % g.h.toNat)

/-- `PixAddr(x, y)` of R142. -/
def Grid.pixAddr (g : Grid) (x y : Nat) : Nat :=
  if g.columnMajor then x * g.h.toNat + y else y * g.w.toNat + x

/-- The word index of the pixel with traversal index k: `PixAddr(Coord(k))` (R143). -/
def Grid.addrOf (g : Grid) (k : Nat) : Nat := g.pixAddr (g.coord k).1 (g.coord k).2

/-! ### The designated bit (R63, R144) -/

/-- `GetDB(w)` of R144: bit 27, which is bit 3 of the alpha channel. -/
def getDB (w : Word) : Bool := w.getLsbD 27

/-- `SetDB(w, b)` of R144. -/
def setDB (w : Word) (b : Bool) : Word := (w &&& 0xF7FFFFFF#32) + (if b then 0x08000000#32 else 0#32)

end Sys2Proof.Machine
end

