-- ==== Sys2Proof/Machine/BitCodec.lean ====
section
/-! DEFINITION. The Bit Codec commands UNPACK and PACK (`40_bit_codec.md`). -/

namespace Sys2Proof.Machine

/-- The body of UNPACK (R113): VEC[7:0] is BYTE, VEC[15:8] is 0, CNT is 8. -/
def unpackBody (s : State) : Body := .ends { s with bsq := { vec := s.byte.setWidth 16, cnt := 8 } }

/-- The body of PACK (R114): a count other than 8 is InvalidArgument. -/
def packBody (s : State) : Body :=
  if s.bsq.cnt = 8 then .ends { s with byte := s.bsq.vec.setWidth 8 }
  else .raises .invalidArgument (s.bsq.cnt.setWidth 64) s

/-- UNPACK (R113). -/
def execUnpack (s : State) : Host.Outcome State Fault Refusal := .next (command unpackBody s)

/-- PACK (R114). -/
def execPack (s : State) : Host.Outcome State Fault Refusal := .next (command packBody s)

end Sys2Proof.Machine
end

