-- ==== Sys2Proof/Machine/Framer.lean ====
section
/-! DEFINITION. The Payload Framer commands BUILD, HDEC and PARSE (`41_payload_framer.md`). -/

namespace Sys2Proof.Machine

/-- The lines of BUILD between its prologue and its completion (R130, R131). In message mode the name length is 0,
which leaves the payload as the only length that can be too large and NAM unread. -/
def buildBody (m : Mode) (s : State) : Body :=
  let n := s.nameLen m
  let p := s.plen
  if tooLargeBits n p ≠ 0 then .raises .payloadTooLarge (BitVec.ofNat 64 (tooLargeBits n p)) s
  else
    let total := frameLen m n p
    if buildLimitBits s.caps n p total ≠ 0 then
      .raises .resourceLimit (BitVec.ofNat 64 (buildLimitBits s.caps n p total)) s
    else
      .ends { s with
        frm := Memory.writeAll s.frm 0 (frameBytes m n p s.namAt s.payAt)
        flen := BitVec.ofNat 32 total }

/-- The body of HDEC (R132, R133): FLEN is not read. -/
def hdecBody (m : Mode) (s : State) : Body :=
  match hdrDecode m s.frmAt with
  | .magicBad found => .raises .magicMismatch (BitVec.ofNat 64 found) s
  | .ok h => .ends (setResults m h.n h.p h.total s)

/-- The name check of PARSE.F and EXTRACT.F (R134, R155): the index of the first bad byte of the filename
`FRM[12..12+n)`, in file mode with n > 0. -/
def badName (m : Mode) (n : Nat) (frm : Nat → Byte) : Option Nat :=
  match m with
  | .file => if n > 0 then utf8FirstBad (slice frm 12 n) else none
  | .message => none

/-- The body of PARSE (R134, R135). -/
def parseBody (m : Mode) (s : State) : Body :=
  let f := s.flen.toNat
  if f > s.caps.frmBytes then .raises .resourceLimit 2 s
  else if f < headerSize m then .raises .invalidArgument (BitVec.ofNat 64 (headerSize m)) s
  else
    match hdrDecode m s.frmAt with
    | .magicBad found => .raises .magicMismatch (BitVec.ofNat 64 found) s
    | .ok h =>
      if f ≠ h.total then .raises .invalidArgument (BitVec.ofNat 64 h.total) s
      else
        match badName m h.n s.frmAt with
        | some i => .raises .invalidEncoding (BitVec.ofNat 64 i) s
        | none => .ends (setResults m h.n h.p h.total s)

/-- BUILD.F (R130). -/
def execBuildF (s : State) : Host.Outcome State Fault Refusal := .next (command (buildBody .file) s)

/-- BUILD.M (R131). -/
def execBuildM (s : State) : Host.Outcome State Fault Refusal := .next (command (buildBody .message) s)

/-- HDEC.F (R132). -/
def execHdecF (s : State) : Host.Outcome State Fault Refusal := .next (command (hdecBody .file) s)

/-- HDEC.M (R133). -/
def execHdecM (s : State) : Host.Outcome State Fault Refusal := .next (command (hdecBody .message) s)

/-- PARSE.F (R134). -/
def execParseF (s : State) : Host.Outcome State Fault Refusal := .next (command (parseBody .file) s)

/-- PARSE.M (R135). -/
def execParseM (s : State) : Host.Outcome State Fault Refusal := .next (command (parseBody .message) s)

end Sys2Proof.Machine
end

