-- ==== Sys2Proof/Machine/PixelEngine.lean ====
section
/-! DEFINITION. The Pixel Embedding Engine: the raster-order address generator at work in the two passes, EMBED and
EXTRACT (`42_pixel_engine.md`). -/

namespace Sys2Proof.Machine

/-! ### Embed (R147 to R152) -/

/-- What an embed pass changes as it goes: the serialiser `cur` (R50), the cursor and the pixel memory. -/
structure EmbedRun where
  cur : Byte
  cursor : Cursor
  pix : Memory 32
deriving DecidableEq, Repr

/-- `EmbedStep` of R148. The grid, FRM and the free values of PIX are those of the state the pass started in. -/
def embedStep (s : State) (r : EmbedRun) : EmbedRun :=
  let cur := if r.cursor.biti = 0 then s.frmAt r.cursor.bidx.toNat else r.cur
  let b := cur.getLsbD r.cursor.biti.toNat
  let a := s.grid.pixAddr r.cursor.xpos.toNat r.cursor.ypos.toNat
  let w := Memory.get (Config.unwrittenPix s.resets) r.pix a
  { cur := cur
    cursor := (r.cursor.advanceRaster s.height).advanceBit
    pix := r.pix.write a (setDB w b) }

/-- `steps` embed steps. R149: the pass repeats the step while BIDX < F, that is for k = 0 to need - 1. -/
def embedLoop (s : State) : Nat → EmbedRun → EmbedRun
  | 0, r => r
  | steps + 1, r => embedLoop s steps (embedStep s r)

/-- `EmbedBody` of R152. The two limits are tested only when FLEN is not 0: an empty frame succeeds on any grid (R162,
and the corner cases of R152), although the pseudocode of R152 tests the grid whatever FLEN is (log 17). -/
def embedBody (s0 : State) : Body :=
  let s := resetCursor s0
  let pixels := s.grid.pixels
  let f := s.flen.toNat
  let need := 8 * f
  if pixels < need then .raises .insufficientCapacity (BitVec.ofNat 64 need) s
  else if f ≠ 0 ∧ embedLimitBits s.caps pixels f ≠ 0 then
    .raises .resourceLimit (BitVec.ofNat 64 (embedLimitBits s.caps pixels f)) s
  else
    let r := embedLoop s need { cur := 0, cursor := s.cursor, pix := s.pix }
    .ends { s with cursor := r.cursor, pix := r.pix }

/-! ### Extract (R153 to R157) -/

/-- What an extract pass changes as it goes: the byte being assembled `acc`, the header once it is decoded (`hdr_done`,
`target`, `n`, `p`, `total` of R50), the cursor and the frame memory. -/
structure ExtractRun where
  acc : Byte
  hdr : Option Header
  cursor : Cursor
  frm : Memory 8
deriving DecidableEq, Repr

/-- `ExtractStep` of R153. -/
def extractStep (s : State) (r : ExtractRun) : ExtractRun :=
  let a := s.grid.pixAddr r.cursor.xpos.toNat r.cursor.ypos.toNat
  let acc := setBit r.acc r.cursor.biti.toNat (getDB (s.pixAt a))
  let moved := (r.cursor.advanceRaster s.height).advanceBit
  if r.cursor.biti = 7 then
    { r with
      acc := 0
      cursor := moved
      frm := if r.cursor.bidx.toNat < s.caps.frmBytes then r.frm.write r.cursor.bidx.toNat acc else r.frm }
  else { r with acc := acc, cursor := moved }

/-- How the loop of R155 ends: with the whole frame, or at a raise. -/
inductive ExtractStop where
  | complete (h : Header) (r : ExtractRun)
  | raises (e : ErrorName) (info : BitVec 64) (r : ExtractRun)
deriving DecidableEq, Repr

/-- How the head of a turn of the loop of R155 goes on: to a pixel, or to the loop's end. -/
inductive ExtractTurn where
  | pixel (r : ExtractRun)
  | stop (e : ExtractStop)
deriving DecidableEq, Repr

/-- The tests at the head of a turn of the loop of R155, down to `if r[PIDX] == N`: at the header size the header is
decoded, and the tests are made again with the total as the target. `pixels` is N. -/
def extractTurn (m : Mode) (s : State) (pixels : Nat) (r : ExtractRun) : ExtractTurn :=
  match r.hdr with
  | some h => if r.cursor.bidx.toNat = h.total then .stop (.complete h r) else .pixel r
  | none =>
    if r.cursor.bidx.toNat = headerSize m then
      match hdrDecode m (Memory.get (Config.unwrittenFrm s.resets) r.frm) with
      | .magicBad found => .stop (.raises .magicMismatch (BitVec.ofNat 64 found) r)
      | .ok h =>
        if h.total > s.caps.frmBytes ∧ pixels ≥ 8 * h.total then .stop (.raises .resourceLimit 2 r)
        else if r.cursor.bidx.toNat = h.total then .stop (.complete h { r with hdr := some h })
        else .pixel { r with hdr := some h }
    else .pixel r

/-- `total if hdr_done == 1 else 0` of R155. -/
def ExtractRun.declared (r : ExtractRun) : Nat :=
  match r.hdr with
  | some h => h.total
  | none => 0

/-- The loop of R155. `left` is N - PIDX, the pixels not yet visited: it falls by one with each step of R153, and the
test `r[PIDX] == N` is `left = 0` (log 16). -/
def extractLoop (m : Mode) (s : State) (pixels : Nat) : Nat → ExtractRun → ExtractStop
  | left, r =>
    match extractTurn m s pixels r with
    | .stop e => e
    | .pixel r' =>
      match left with
      | 0 => .raises .truncatedPayload (BitVec.ofNat 64 r'.declared) r'
      | left' + 1 => extractLoop m s pixels left' (extractStep s r')

/-- The state with what an extract pass has written so far. -/
def ExtractRun.store (r : ExtractRun) (s : State) : State := { s with cursor := r.cursor, frm := r.frm }

/-- What follows the loop of R155: the parse phase, then the results and FLEN. -/
def extractEnd (m : Mode) (s : State) : ExtractStop → Body
  | .complete h r =>
    match badName m h.n (Memory.get (Config.unwrittenFrm s.resets) r.frm) with
    | some i => .raises .invalidEncoding (BitVec.ofNat 64 i) (r.store s)
    | none => .ends (setResults m h.n h.p h.total { r.store s with flen := BitVec.ofNat 32 h.total })
  | .raises e info r => .raises e info (r.store s)

/-- `ExtractBody(M)` of R155. -/
def extractBody (m : Mode) (s0 : State) : Body :=
  let s := { resetCursor s0 with flen := 0 }
  let pixels := s.grid.pixels
  if pixels > s.caps.pixWords then .raises .resourceLimit 1 s
  else
    extractEnd m s
      (extractLoop m s pixels pixels { acc := 0, hdr := none, cursor := s.cursor, frm := s.frm })

/-- EMBED (R152). -/
def execEmbed (s : State) : Host.Outcome State Fault Refusal := .next (command embedBody s)

/-- EXTRACT.F, also called DECODE.F (R156, R172). -/
def execExtractF (s : State) : Host.Outcome State Fault Refusal := .next (command (extractBody .file) s)

/-- EXTRACT.M, also called DECODE.M (R157, R172). -/
def execExtractM (s : State) : Host.Outcome State Fault Refusal := .next (command (extractBody .message) s)

end Sys2Proof.Machine
end

