-- ==== Sys2Proof/Machine/Composite.lean ====
section
/-! DEFINITION. The encode path, ENCODE (`43_composite_paths.md`). The decode path is EXTRACT under another name
(R172). -/

namespace Sys2Proof.Machine

/-- The body of ENCODE (R170, R171): the cursor reset, the lines of BUILD, then `EmbedBody`. -/
def encodeBody (m : Mode) (s : State) : Body := (buildBody m (resetCursor s)).andThen embedBody

/-- ENCODE.F (R170). -/
def execEncodeF (s : State) : Host.Outcome State Fault Refusal := .next (command (encodeBody .file) s)

/-- ENCODE.M (R171). -/
def execEncodeM (s : State) : Host.Outcome State Fault Refusal := .next (command (encodeBody .message) s)

end Sys2Proof.Machine
end

