-- ==== Sys2Proof/Machine/Dispatch.lean ====
section
/-! DEFINITION. The dispatch from a command to its meaning, one arm per row of spec/opcode_table.json. -/

namespace Sys2Proof.Machine

def exec (i : Instr) (s : State) : Host.Outcome State Fault Refusal :=
  match i with
  | .unpack => Sys2Proof.Machine.execUnpack s
  | .pack => Sys2Proof.Machine.execPack s
  | .buildF => Sys2Proof.Machine.execBuildF s
  | .buildM => Sys2Proof.Machine.execBuildM s
  | .hdecF => Sys2Proof.Machine.execHdecF s
  | .hdecM => Sys2Proof.Machine.execHdecM s
  | .parseF => Sys2Proof.Machine.execParseF s
  | .parseM => Sys2Proof.Machine.execParseM s
  | .embed => Sys2Proof.Machine.execEmbed s
  | .extractF => Sys2Proof.Machine.execExtractF s
  | .extractM => Sys2Proof.Machine.execExtractM s
  | .encodeF => Sys2Proof.Machine.execEncodeF s
  | .encodeM => Sys2Proof.Machine.execEncodeM s

end Sys2Proof.Machine
end

