-- ==== Sys2Proof/Machine/HostPort.lean ====
section
/-! DEFINITION. The register map and the host's port operations, with BUSY = 0 and with BUSY = 1 (R20, R21, R62, R66,
R70, R73) and while `rst` is asserted (R210), the start of a command (R22) and the reset input (R210 to R212). -/

namespace Sys2Proof.Machine

/-- The byte offset of a register (R20, R101). -/
def Reg.offset : Reg → Nat
  | .cmd => 0x00
  | .status => 0x04
  | .ctrl => 0x08
  | .width => 0x0C
  | .height => 0x10
  | .plenLo => 0x14
  | .plenHi => 0x18
  | .nlenLo => 0x1C
  | .nlenHi => 0x20
  | .flen => 0x24
  | .byte => 0x28
  | .bsq => 0x2C
  | .rnlen => 0x30
  | .rplen => 0x34
  | .rtotLo => 0x38
  | .rtotHi => 0x3C
  | .einfoLo => 0x40
  | .einfoHi => 0x44
  | .pidx => 0x48
  | .xpos => 0x4C
  | .ypos => 0x50
  | .bidx => 0x54
  | .biti => 0x58

/-- The 23 registers, in the order of R20. -/
def allRegs : List Reg :=
  [.cmd, .status, .ctrl, .width, .height, .plenLo, .plenHi, .nlenLo, .nlenHi, .flen, .byte, .bsq, .rnlen, .rplen,
   .rtotLo, .rtotHi, .einfoLo, .einfoHi, .pidx, .xpos, .ypos, .bidx, .biti]

/-- The register at a byte offset, if there is one: a reserved offset, one that is not a multiple of 4 and one at or
above 0x100 name none (R21, R66, R70). -/
def regAt (off : Nat) : Option Reg := allRegs.find? (fun r => Reg.offset r == off)

/-- The 32-bit value the host reads from a register when BUSY = 0 (R21); CMD is write only and reads 0 (R22). -/
def State.readReg (s : State) : Reg → Word
  | .cmd => 0
  | .status => s.status.word
  | .ctrl => s.ctrl.word
  | .width => s.width.setWidth 32
  | .height => s.height.setWidth 32
  | .plenLo => s.plenLo
  | .plenHi => s.plenHi
  | .nlenLo => s.nlenLo
  | .nlenHi => s.nlenHi
  | .flen => s.flen
  | .byte => s.byte.setWidth 32
  | .bsq => s.bsq.word
  | .rnlen => s.rnlen
  | .rplen => s.rplen
  | .rtotLo => s.rtotLo
  | .rtotHi => s.rtotHi.setWidth 32
  | .einfoLo => s.einfoLo
  | .einfoHi => s.einfoHi
  | .pidx => s.cursor.pidx
  | .xpos => s.cursor.xpos.setWidth 32
  | .ypos => s.cursor.ypos.setWidth 32
  | .bidx => s.cursor.bidx
  | .biti => s.cursor.biti.setWidth 32

/-- The start of a command (R22): the word is latched (R76) and the prologue is made (R96), so BUSY is 1, DONE is 0
and the results are 0 until the command completes (log 6). -/
def startCommand (c : Word) (s : State) : State := { prologue s with cmdw := c }

/-- A host write of a register when BUSY = 0 (R21). A read-only register ignores it. -/
def State.writeReg (v : Word) (s : State) : Reg → State
  | .cmd => startCommand v s
  | .status => acknowledge v s
  | .ctrl => { s with ctrl := { ie := v.getLsbD 0, layout := v.getLsbD 1 } }
  | .width => { s with width := v.setWidth 16 }
  | .height => { s with height := v.setWidth 16 }
  | .plenLo => { s with plenLo := v }
  | .plenHi => { s with plenHi := v }
  | .nlenLo => { s with nlenLo := v }
  | .nlenHi => { s with nlenHi := v }
  | .flen => { s with flen := v }
  | .byte => { s with byte := v.setWidth 8 }
  | .bsq => { s with bsq := { vec := v.extractLsb' 0 16, cnt := v.extractLsb' 16 5 } }
  | .rnlen => s
  | .rplen => s
  | .rtotLo => s
  | .rtotHi => s
  | .einfoLo => s
  | .einfoHi => s
  | .pidx => s
  | .xpos => s
  | .ypos => s
  | .bidx => s
  | .biti => s

/-- `RegRead(off)` when BUSY = 0 (R62): 0 where no register stands. -/
def State.readOffset (s : State) (off : Nat) : Word :=
  match regAt off with
  | some r => s.readReg r
  | none => 0

/-- `RegWrite(off, v)` when BUSY = 0 (R62): nothing where no register stands. -/
def State.writeOffset (s : State) (off : Nat) (v : Word) : State :=
  match regAt off with
  | some r => s.writeReg v r
  | none => s

/-- The host receives what its read returned (log 8). -/
def reply (r : Reply) (s : State) : State := { s with replies := r :: s.replies }

/-- A port operation when BUSY = 0 (R62); an index outside its space reads 0 and writes nothing (R70). -/
def hostIdle (op : HostOp) (s : State) : State :=
  match op with
  | .regRead off => reply (.word (s.readOffset off)) s
  | .regWrite off v => s.writeOffset off v
  | .pixRead a => reply (.word (if a < s.caps.pixWords then s.pixAt a else 0)) s
  | .pixWrite a v => if a < s.caps.pixWords then { s with pix := s.pix.write a v } else s
  | .frmRead i => reply (.byte (if i < s.caps.frmBytes then s.frmAt i else 0)) s
  | .frmWrite i b => if i < s.caps.frmBytes then { s with frm := s.frm.write i b } else s
  | .payRead i => reply (.byte (if i < s.caps.payBytes then s.payAt i else 0)) s
  | .payWrite i b => if i < s.caps.payBytes then { s with pay := s.pay.write i b } else s
  | .namRead i => reply (.byte (if i < s.caps.namBytes then s.namAt i else 0)) s
  | .namWrite i b => if i < s.caps.namBytes then { s with nam := s.nam.write i b } else s

/-- A port operation when BUSY = 1 (R73): STATUS reads exactly 0x00000001, every other read returns 0, every write is
ignored. -/
def hostBusy (op : HostOp) (s : State) : State :=
  match op with
  | .regRead off => reply (.word (if off = 0x04 then 1 else 0)) s
  | .regWrite _ _ => s
  | .pixRead _ => reply (.word 0) s
  | .pixWrite _ _ => s
  | .frmRead _ => reply (.byte 0) s
  | .frmWrite _ _ => s
  | .payRead _ => reply (.byte 0) s
  | .payWrite _ _ => s
  | .namRead _ => reply (.byte 0) s
  | .namWrite _ _ => s

/-- A port operation while `rst` is asserted (R210): the core is held in the reset state, so a write has no effect and a
CMD write starts nothing; a read finds what the reset state holds (log 9). -/
def hostHeld (op : HostOp) (s : State) : State :=
  match op with
  | .regRead off => hostIdle (.regRead off) s
  | .regWrite _ _ => s
  | .pixRead a => hostIdle (.pixRead a) s
  | .pixWrite _ _ => s
  | .frmRead i => hostIdle (.frmRead i) s
  | .frmWrite _ _ => s
  | .payRead i => hostIdle (.payRead i) s
  | .payWrite _ _ => s
  | .namRead i => hostIdle (.namRead i) s
  | .namWrite _ _ => s

/-- The reset state with `rst` at the level given (R210 to R212): every register has its reset value, a running command
is abandoned, and what the memories hold is unspecified again (log 3). What the host does next and what it has read are
the host's (log 9). -/
def resetState (asserted : Bool) (s : State) : State :=
  { State.reset with
    rst := asserted
    caps := s.caps
    resets := s.resets + 1
    inputs := s.inputs
    replies := s.replies }

/-- A change of `rst` (R210): asserting it puts the core into the reset state and holds it there; releasing it leaves
the core idle in the state of R211; a release of a line that is not asserted is no change. -/
def setRst (asserted : Bool) (s : State) : State :=
  if asserted || s.rst then resetState asserted s else s

/-- What an event does, by the reset input and the BUSY bit (R62, R73, R210). -/
def receive (e : Event) (s : State) : State :=
  match e with
  | .host op => if s.rst then hostHeld op s else if s.status.busy then hostBusy op s else hostIdle op s
  | .rst asserted => setRst asserted s

end Sys2Proof.Machine
end

