-- ==== Sys2Proof/Machine/Run.lean ====
section
/-! DEFINITION. The core's move and the host's move: which agent acts next, the run of the latched command word
(R22, R73, R76), and an arrival at the ports. -/

namespace Sys2Proof.Machine

/-- Whether the core moves next: `rst` is released (R210), a command is running, and no event is due to land before it
has completed (R73; log 5). -/
def coreMoves (s : State) : Bool :=
  !s.rst && s.status.busy &&
    match s.inputs with
    | a :: _ => !a.whileBusy
    | [] => true

/-- The core runs the latched word as one atomic transition (R73): the command it encodes, or the illegal-command
rule (R22, R95). -/
def runLatched (s : State) : Host.Outcome State Fault Refusal :=
  match decode s.cmdw with
  | .ok i => exec i s
  | .error _ => .next (illegalCommand s.cmdw s)

/-- The next event reaches the ports; with none to come the core stays idle and holds its state (R197). -/
def hostMove (s : State) : State :=
  match s.inputs with
  | [] => s
  | a :: rest => receive a.event { s with inputs := rest }

/-- The next event, if it was to land while a command is busy, lands after the command instead. -/
def settleNext (inputs : List Arrival) : List Arrival :=
  match inputs with
  | [] => []
  | a :: rest => { a with whileBusy := false } :: rest

/-- The state in which the word `c` has just been written to CMD with `rst` released, and the core moves next. -/
def latched (c : Word) (s : State) : State :=
  { s with
    status := { s.status with busy := true }
    cmdw := c
    rst := false
    inputs := settleNext s.inputs }

end Sys2Proof.Machine
end

