-- ==== Sys2Proof/Machine/Step.lean ====
section
/-! DEFINITION. One step of STEGCORE: one host access, one change of the reset input, or one whole
command (R72, R73). -/

namespace Sys2Proof.Machine

/-- One step: the core runs the latched command, or the host's next event arrives. -/
def step (s : State) : Host.Outcome State Fault Refusal :=
  if coreMoves s then runLatched s else .next (hostMove s)

/-- `s` with the command word `w` latched and the core to move, as a CMD write leaves it (R22, R76; log 4). -/
def State.withFetchWord (s : State) (nbits w : Nat) : State :=
  latched (BitVec.ofNat 32 (w % 2 ^ nbits)) s

end Sys2Proof.Machine
end

