-- ==== Sys2Proof/Machine/Script.lean ====
section
/-! DEFINITION. The host script (R99 to R101): each statement as the port operations it stands for. -/

namespace Sys2Proof.Machine

/-- A port operation that lands when no command is running. -/
def idleOp (op : HostOp) : Arrival := { event := .host op, whileBusy := false }

/-- A port operation that lands while the running command is still busy. -/
def busyOp (op : HostOp) : Arrival := { event := .host op, whileBusy := true }

/-- `op i b0, op (i+1) b1, ...`: the byte lists of R99. -/
def writeBytes (op : Nat → Byte → HostOp) (i : Nat) (bs : List Byte) : List Arrival :=
  bs.zipIdx.map (fun x => idleOp (op (i + x.2) x.1))

/-- `op a, op (a+1), ..., op (a+n-1)`: the repeated reads of R100. -/
def readMany (op : Nat → HostOp) (a n : Nat) : List Arrival :=
  (List.range n).map (fun k => idleOp (op (a + k)))

/-- The low and the high register of a pair (R100). -/
def Pair.regs : Pair → Reg × Reg
  | .plen => (.plenLo, .plenHi)
  | .nlen => (.nlenLo, .nlenHi)

/-- The command that DECODE is another name of (R100, R172). -/
def decodeAlias : Mode → Instr
  | .file => .extractF
  | .message => .extractM

/-- `wr REG, v` (R99). -/
def regWriteOp (r : Reg) (v : Word) : HostOp := .regWrite (Reg.offset r) v

/-- The port operations of a statement (R99, R100). -/
def Stmt.arrivals : Stmt → List Arrival
  | .wr r v => [idleOp (regWriteOp r v)]
  | .rd r => [idleOp (.regRead (Reg.offset r))]
  | .cmd i => [idleOp (regWriteOp .cmd (encode i))]
  | .cmdDecode m => [idleOp (regWriteOp .cmd (encode (decodeAlias m)))]
  | .pix a v => [idleOp (.pixWrite a v)]
  | .frm i bs => writeBytes .frmWrite i bs
  | .pay i bs => writeBytes .payWrite i bs
  | .nam i bs => writeBytes .namWrite i bs
  | .rpix a n => readMany .pixRead a n
  | .rfrm i n => readMany .frmRead i n
  | .rpay i => [idleOp (.payRead i)]
  | .rnam i => [idleOp (.namRead i)]
  | .wr64 x v =>
    [idleOp (regWriteOp (Pair.regs x).1 (v.extractLsb' 0 32)),
     idleOp (regWriteOp (Pair.regs x).2 (v.extractLsb' 32 32))]
  | .wait k =>
    List.replicate k (busyOp (.regRead (Reg.offset .status))) ++ [idleOp (.regRead (Reg.offset .status))]
  | .ack => [idleOp (regWriteOp .status 2)]
  | .fill a0 a1 v => (List.range (a1 + 1 - a0)).map (fun k => idleOp (.pixWrite (a0 + k) v))

/-- A host script: the arrivals of its statements, in order. -/
def scriptArrivals (script : List Stmt) : List Arrival := (script.map Stmt.arrivals).flatten

end Sys2Proof.Machine
end

