-- ==== Sys2Proof/Safety.lean ====
section
/-! DEFINITION. The vocabulary of the statements: how a command may end, what a pass has done in closed form
(R115, R141, R158), and the invariants of STEGCORE that every step keeps. -/

namespace Sys2Proof.Machine

/-! ### How a command ends -/

/-- The state that a command leaves when it changes nothing but STATUS, EINFO and the result registers, which are 0:
the prologue (R96) and then completion with the code and the information word given (R97, R186). -/
def endedWith (err : BitVec 4) (info : Nat) (s : State) : State :=
  { s with
    status := { busy := false, done := true, np := false, err := err }
    einfoLo := BitVec.ofNat 32 info, einfoHi := BitVec.ofNat 32 (info / 2 ^ 32)
    rnlen := 0, rplen := 0, rtotLo := 0, rtotHi := 0 }

/-- The state with the results of a successful header decode (R129). -/
def withResults (np : Bool) (n p total : Nat) (s : State) : State :=
  { s with
    status := { s.status with np := np }
    rnlen := BitVec.ofNat 32 n, rplen := BitVec.ofNat 32 p
    rtotLo := BitVec.ofNat 32 total, rtotHi := BitVec.ofNat 2 (total / 2 ^ 32) }

/-- NP after a successful decode of mode `m` with name_length `n` (R129). -/
def namePresent (m : Mode) (n : Nat) : Bool := decide (m = .file ∧ n > 0)

/-! ### The commands of a mode -/

/-- BUILD of a mode (R130, R131). -/
def buildOf : Mode → Instr
  | .file => .buildF
  | .message => .buildM

/-- HDEC of a mode (R132, R133). -/
def hdecOf : Mode → Instr
  | .file => .hdecF
  | .message => .hdecM

/-- PARSE of a mode (R134, R135). -/
def parseOf : Mode → Instr
  | .file => .parseF
  | .message => .parseM

/-- EXTRACT of a mode (R156, R157). -/
def extractOf : Mode → Instr
  | .file => .extractF
  | .message => .extractM

/-- ENCODE of a mode (R170, R171). -/
def encodeOf : Mode → Instr
  | .file => .encodeF
  | .message => .encodeM

/-- The commands that make a pass over the grid (R43). -/
def isPass (i : Instr) : Bool :=
  i == .embed || i == .extractF || i == .extractM || i == .encodeF || i == .encodeM

/-! ### A pass in closed form -/

/-- The cursor after `k` pixels of a pass over the grid (R41, R42). -/
def cursorAfter (g : Grid) (k : Nat) : Cursor where
  pidx := BitVec.ofNat 32 k
  xpos := BitVec.ofNat 16 (k / g.h.toNat)
  ypos := BitVec.ofNat 16 (k % g.h.toNat)
  bidx := BitVec.ofNat 32 (k / 8)
  biti := BitVec.ofNat 3 (k % 8)

/-- The designated bit of the pixel with traversal index `k` (R143, R144). -/
def pixelBit (s : State) (k : Nat) : Bool := getDB (s.pixAt (s.grid.addrOf k))

/-- `byte(j)` of R158: the byte assembled from the pixels 8j to 8j + 7. -/
def assembledByte (s : State) (j : Nat) : Byte :=
  (bitsToByte ((List.range 8).map (fun i => pixelBit s (8 * j + i)))).getD 0

/-- Byte `j` of the frame that BUILD makes of a state's NAM and PAY (R120, R121). -/
def builtByte (m : Mode) (n p : Nat) (s : State) (j : Nat) : Byte :=
  if j < headerSize m then (hdrEncode m n p).getD j 0
  else if j < headerSize m + n then s.namAt (j - headerSize m)
  else s.payAt (j - headerSize m - n)

/-- The conditions under which BUILD of a mode succeeds (R130, R131). -/
def BuildFits (m : Mode) (s : State) : Prop :=
  s.nameLen m < 2 ^ 32 ∧ s.plen < 2 ^ 32 ∧ headerSize m + s.nameLen m + s.plen ≤ s.caps.frmBytes ∧
    s.plen ≤ s.caps.payBytes ∧ s.nameLen m ≤ s.caps.namBytes

/-- The bytes are a frame of mode `m` with name length `n` and payload length `p` (R120, R121, R163): the header is
`HdrEncode`, and in file mode the name is valid UTF-8. -/
def HoldsFrame (m : Mode) (n p : Nat) (bytes : Nat → Byte) : Prop :=
  n < 2 ^ 32 ∧ p < 2 ^ 32 ∧ (m = .message → n = 0) ∧
    (∀ j, j < headerSize m → bytes j = (hdrEncode m n p).getD j 0) ∧
    (m = .file → utf8FirstBad (slice bytes 12 n) = none)

/-- Two words agree in every bit but the designated one (R145). -/
def sameButDB (v w : Word) : Prop := ∀ i, i < 32 → i ≠ 27 → v.getLsbD i = w.getLsbD i

/-! ### Moves -/

/-- No event is due to land before the running command has completed (R73; log 5). -/
def noBusyArrival (s : State) : Bool :=
  match s.inputs with
  | a :: _ => !a.whileBusy
  | [] => true

/-- The state's next event is the port operation `op`, and it reaches the ports while `rst` is released and BUSY = 0. -/
def HostMovesIdle (s : State) (op : HostOp) (rest : List Arrival) : Prop :=
  s.rst = false ∧ s.status.busy = false ∧ ∃ early, s.inputs = { event := .host op, whileBusy := early } :: rest

/-- The state's next event is the port operation `op`, and it reaches the ports while `rst` is released and BUSY = 1
(R73). -/
def HostMovesBusy (s : State) (op : HostOp) (rest : List Arrival) : Prop :=
  s.rst = false ∧ s.status.busy = true ∧ s.inputs = { event := .host op, whileBusy := true } :: rest

/-- The state's next event is the port operation `op`, and it reaches the ports while `rst` is asserted (R210). -/
def HostMovesHeld (s : State) (op : HostOp) (rest : List Arrival) : Prop :=
  s.rst = true ∧ ∃ early, s.inputs = { event := .host op, whileBusy := early } :: rest

/-! ### Command words and registers -/

/-- A command word that R95 calls illegal. -/
def IllegalWord (c : Word) : Prop :=
  c.extractLsb' 5 27 ≠ 0 ∨ c.extractLsb' 0 4 = 0 ∨ 9 ≤ (c.extractLsb' 0 4).toNat ∨
    (c.getLsbD 4 = true ∧ (c.extractLsb' 0 4 = 1 ∨ c.extractLsb' 0 4 = 2 ∨ c.extractLsb' 0 4 = 6))

/-- The registers that the host reads and writes (R20, access RW). -/
def isReadWrite : Reg → Bool
  | .ctrl | .width | .height | .plenLo | .plenHi | .nlenLo | .nlenHi | .flen | .byte | .bsq => true
  | _ => false

/-- The registers that the host only reads (R20, access RO), STATUS left out: a write of its bit 1 clears DONE. -/
def isReadOnly : Reg → Bool
  | .rnlen | .rplen | .rtotLo | .rtotHi | .einfoLo | .einfoHi | .pidx | .xpos | .ypos | .bidx | .biti => true
  | _ => false

/-- The used bits of a register that the host reads and writes (R20). -/
def usedBits : Reg → Word
  | .ctrl => 0x00000003
  | .width => 0x0000FFFF
  | .height => 0x0000FFFF
  | .byte => 0x000000FF
  | .bsq => 0x001FFFFF
  | _ => 0xFFFFFFFF

/-- The error codes a command may end with, 0 for success (R182). -/
def mayEndWith : Instr → List (BitVec 4)
  | .unpack => [0]
  | .pack => [0, 7]
  | .buildF => [0, 4, 9]
  | .buildM => [0, 4, 9]
  | .hdecF => [0, 1]
  | .hdecM => [0, 1]
  | .parseF => [0, 1, 5, 7, 9]
  | .parseM => [0, 1, 7, 9]
  | .embed => [0, 2, 9]
  | .extractF => [0, 1, 3, 5, 9]
  | .extractM => [0, 1, 3, 9]
  | .encodeF => [0, 2, 4, 9]
  | .encodeM => [0, 2, 4, 9]

/-- A byte lies between two bounds, both included, as the cells of R127 give them. -/
def byteIn (lo hi : Nat) (b : Byte) : Prop := lo ≤ b.toNat ∧ b.toNat ≤ hi

/-- The byte sequence matches a row of R127 from end to end. -/
def MatchesRow (row : Utf8Row) (bs : List Byte) : Prop :=
  List.Forall₂ (fun range b => range.1 ≤ b ∧ b ≤ range.2) row bs

/-! ### The invariants -/

/-- A memory is in canonical form and lists nothing outside its space (R46 to R49, R70). -/
def memoryOk {w : Nat} (m : Memory w) (size : Nat) : Prop := m.wf ∧ ∀ x ∈ m, x.1 < size

/-- The four memories are in canonical form and within the capacities. -/
def MemoriesOk (s : State) : Prop :=
  memoryOk s.pix s.caps.pixWords ∧ memoryOk s.frm s.caps.frmBytes ∧
    memoryOk s.pay s.caps.payBytes ∧ memoryOk s.nam s.caps.namBytes

/-- The error code and the result registers are consistent: ERR is a code that the core produces (R181, R182), EINFO is
0 when ERR is 0 (R35), the results are 0 when ERR is not 0 (R96), NP says that RNLEN is not 0 (R129), and RTOT is 0
with the rest or the frame length that the lengths give (R34, R124). -/
def ResultsOk (s : State) : Prop :=
  s.status.err.toNat ≤ 9 ∧ s.status.err ≠ 6 ∧
  (s.status.err = 0 → s.einfo = 0) ∧
  (s.status.err ≠ 0 → s.rnlen = 0 ∧ s.rplen = 0 ∧ s.rtot = 0) ∧
  (s.status.np = true ↔ s.rnlen ≠ 0) ∧
  ((s.rnlen = 0 ∧ s.rplen = 0 ∧ s.rtot = 0) ∨
    s.rtot = 12 + s.rnlen.toNat + s.rplen.toNat ∨
    (s.rnlen = 0 ∧ s.rtot = 8 + s.rplen.toNat))

/-- While `rst` is asserted the core is in the reset state (R210): all that is not the model's own is as reset leaves
it. -/
def HeldInReset (s : State) : Prop :=
  s.rst = true → s = { State.reset with
    rst := true, caps := s.caps, resets := s.resets, inputs := s.inputs, replies := s.replies }

/-- The cursor invariant (R42), and the bound of R36. -/
def CursorOk (s : State) : Prop :=
  s.cursor.pidx.toNat = 8 * s.cursor.bidx.toNat + s.cursor.biti.toNat ∧ s.cursor.pidx.toNat ≤ 65535 * 65535

end Sys2Proof.Machine
end

