-- ==== Sys2Proof/Certificates/Slice0/Obligations.lean ====
section
/-! DEFINITION. The statements about STEGCORE, for the provers. Each docstring says which rule it formalises. -/

open Sys2Proof Sys2Proof.Machine

/-! ### Reset, steps, command words -/

/-- R210, R211 and R51: after reset all 23 registers read 0 and `irq` is 0. When `rst` is asserted, whatever the core is
doing, and when it is released again, the core is in that state, with the line at its new level. The model's choices, not
the rules' words (log 9): that releasing a line that is not asserted changes nothing, that `rst` is released at
`State.reset`, and that the host's script and its replies survive. -/
def Obligations.ResetLeavesEveryRegisterZero : Prop :=
  (∀ r : Reg, State.reset.readReg r = 0) ∧ State.reset.irq = false ∧ State.reset.rst = false ∧
  ∀ (s : State) (asserted early : Bool) (rest : List Arrival),
    s.inputs = { event := .rst asserted, whileBusy := early } :: rest →
    (s.rst = false → s.status.busy = true → early = true) →
    (asserted = true ∨ s.rst = true →
      ∃ t, step s = .next t ∧ (∀ r : Reg, t.readReg r = 0) ∧ t.irq = false ∧ t.rst = asserted ∧ t.inputs = rest ∧
        t.replies = s.replies) ∧
    (asserted = false → s.rst = false → step s = .next { s with inputs := rest })

/-- R210: while `rst` is asserted the core is held in the reset state. Every host write is ignored, and a CMD write
starts nothing; register reads return 0 and memory reads what the index holds, or 0 outside the memory; without an event
nothing happens; and no step leaves the reset state but by a release. That reads are answered then, and that memory
writes are ignored, is the model's choice (log 9). -/
def Obligations.AssertedResetHoldsTheCore : Prop :=
  (∀ (s : State) (rest : List Arrival) (a : Nat) (v : Word) (b : Byte),
    HostMovesHeld s (.regWrite a v) rest ∨ HostMovesHeld s (.pixWrite a v) rest ∨ HostMovesHeld s (.frmWrite a b) rest ∨
        HostMovesHeld s (.payWrite a b) rest ∨ HostMovesHeld s (.namWrite a b) rest →
      step s = .next { s with inputs := rest }) ∧
  (∀ (s : State) (rest : List Arrival) (off : Nat), HeldInReset s → HostMovesHeld s (.regRead off) rest →
    step s = .next { s with inputs := rest, replies := .word 0 :: s.replies }) ∧
  (∀ (s : State) (rest : List Arrival) (i : Nat),
    (HostMovesHeld s (.pixRead i) rest → step s = .next { s with
      inputs := rest, replies := .word (if i < s.caps.pixWords then s.pixAt i else 0) :: s.replies }) ∧
    (HostMovesHeld s (.frmRead i) rest → step s = .next { s with
      inputs := rest, replies := .byte (if i < s.caps.frmBytes then s.frmAt i else 0) :: s.replies }) ∧
    (HostMovesHeld s (.payRead i) rest → step s = .next { s with
      inputs := rest, replies := .byte (if i < s.caps.payBytes then s.payAt i else 0) :: s.replies }) ∧
    (HostMovesHeld s (.namRead i) rest → step s = .next { s with
      inputs := rest, replies := .byte (if i < s.caps.namBytes then s.namAt i else 0) :: s.replies })) ∧
  (∀ s : State, s.rst = true → s.inputs = [] → step s = .next s) ∧
  (∀ s t : State, HeldInReset s → step s = .next t → HeldInReset t) ∧
  (∀ s t : State, s.rst = true → step s = .next t →
    t.rst = true ∨ ∃ early, s.inputs = { event := .rst false, whileBusy := early } :: t.inputs)

/-- R22, R73, R76: while a command runs, `rst` is released and no host access is due first, one step is the latched command, whole. -/
def Obligations.StepRunsLatchedCommand : Prop :=
  ∀ (s : State) (i : Instr),
    s.rst = false → s.status.busy = true → noBusyArrival s = true → decode s.cmdw = .ok i → step s = exec i s

/-- R22, R76, R96: a CMD write with BUSY = 0 latches the word and makes the prologue; it changes nothing else. That the
prologue is made already at the write is the model's reading (log 6). -/
def Obligations.CmdWriteStartsCommand : Prop :=
  ∀ (s : State) (c : Word) (rest : List Arrival), HostMovesIdle s (.regWrite 0x00 c) rest →
    step s = .next { s with
      status := { busy := true, done := false, np := false, err := 0 }
      einfoLo := 0, einfoHi := 0, rnlen := 0, rplen := 0, rtotLo := 0, rtotHi := 0
      cmdw := c, inputs := rest }

/-- R95: a word is illegal exactly when it is none of the thirteen, and an illegal word written to CMD with BUSY = 0 is a
command that ends with ERR = 8 and EINFO = the word, and changes no other register and no memory. -/
def Obligations.IllegalWordEndsWithIllegalCommand : Prop :=
  (∀ c : Word, IllegalWord c ↔ ∀ i : Instr, encode i ≠ c) ∧
  ∀ (s : State) (c : Word) (rest : List Arrival),
    HostMovesIdle s (.regWrite 0x00 c) rest → noBusyArrival { s with inputs := rest } = true → IllegalWord c →
    ∃ t, step s = .next t ∧ step t = .next (endedWith 8 c.toNat { s with cmdw := c, inputs := rest })

/-- R92, R93, R98: the decoder reads a word as a command exactly when the word is that command's. -/
def Obligations.DecodeReadsExactlyTheEncodedWords : Prop :=
  ∀ (c : Word) (i : Instr), decode c = .ok i ↔ c = encode i

/-- R92: the thirteen command words, and what the decoder reads from three of them. -/
def Obligations.CommandWordsAsTabled : Prop :=
  encode .unpack = 0x00000001#32 ∧ encode .pack = 0x00000002#32 ∧ encode .buildF = 0x00000003#32 ∧
  encode .buildM = 0x00000013#32 ∧ encode .hdecF = 0x00000004#32 ∧ encode .hdecM = 0x00000014#32 ∧
  encode .parseF = 0x00000005#32 ∧ encode .parseM = 0x00000015#32 ∧ encode .embed = 0x00000006#32 ∧
  encode .extractF = 0x00000007#32 ∧ encode .extractM = 0x00000017#32 ∧ encode .encodeF = 0x00000008#32 ∧
  encode .encodeM = 0x00000018#32 ∧ decode 0x00000013#32 = .ok .buildM ∧ decode 0x00000006#32 = .ok .embed ∧
  decode 0x00000018#32 = .ok .encodeM

/-! ### The host's ports -/

/-- R20, R101, R24 to R31: the 23 offsets of the register map, each of which names its register and no other offset does;
and the field that a host write with BUSY = 0 sets at each read-write offset. Nothing else changes. -/
def Obligations.RegisterMapAsTabled : Prop :=
  (Machine.Reg.offset .cmd = 0x00 ∧ Machine.Reg.offset .status = 0x04 ∧ Machine.Reg.offset .ctrl = 0x08 ∧
    Machine.Reg.offset .width = 0x0C ∧ Machine.Reg.offset .height = 0x10 ∧ Machine.Reg.offset .plenLo = 0x14 ∧
    Machine.Reg.offset .plenHi = 0x18 ∧ Machine.Reg.offset .nlenLo = 0x1C ∧ Machine.Reg.offset .nlenHi = 0x20 ∧
    Machine.Reg.offset .flen = 0x24 ∧ Machine.Reg.offset .byte = 0x28 ∧ Machine.Reg.offset .bsq = 0x2C ∧
    Machine.Reg.offset .rnlen = 0x30 ∧ Machine.Reg.offset .rplen = 0x34 ∧ Machine.Reg.offset .rtotLo = 0x38 ∧
    Machine.Reg.offset .rtotHi = 0x3C ∧ Machine.Reg.offset .einfoLo = 0x40 ∧ Machine.Reg.offset .einfoHi = 0x44 ∧
    Machine.Reg.offset .pidx = 0x48 ∧ Machine.Reg.offset .xpos = 0x4C ∧ Machine.Reg.offset .ypos = 0x50 ∧
    Machine.Reg.offset .bidx = 0x54 ∧ Machine.Reg.offset .biti = 0x58) ∧
  (∀ (off : Nat) (r : Reg), regAt off = some r ↔ Machine.Reg.offset r = off) ∧
  ∀ (s : State) (v : Word) (rest : List Arrival),
    (HostMovesIdle s (.regWrite 0x08 v) rest →
      step s = .next { s with inputs := rest, ctrl := { ie := v.getLsbD 0, layout := v.getLsbD 1 } }) ∧
    (HostMovesIdle s (.regWrite 0x0C v) rest → step s = .next { s with inputs := rest, width := v.extractLsb' 0 16 }) ∧
    (HostMovesIdle s (.regWrite 0x10 v) rest → step s = .next { s with inputs := rest, height := v.extractLsb' 0 16 }) ∧
    (HostMovesIdle s (.regWrite 0x14 v) rest → step s = .next { s with inputs := rest, plenLo := v }) ∧
    (HostMovesIdle s (.regWrite 0x18 v) rest → step s = .next { s with inputs := rest, plenHi := v }) ∧
    (HostMovesIdle s (.regWrite 0x1C v) rest → step s = .next { s with inputs := rest, nlenLo := v }) ∧
    (HostMovesIdle s (.regWrite 0x20 v) rest → step s = .next { s with inputs := rest, nlenHi := v }) ∧
    (HostMovesIdle s (.regWrite 0x24 v) rest → step s = .next { s with inputs := rest, flen := v }) ∧
    (HostMovesIdle s (.regWrite 0x28 v) rest → step s = .next { s with inputs := rest, byte := v.extractLsb' 0 8 }) ∧
    (HostMovesIdle s (.regWrite 0x2C v) rest →
      step s = .next { s with inputs := rest, bsq := { vec := v.extractLsb' 0 16, cnt := v.extractLsb' 16 5 } })

/-- R20, R21: a register that the host reads and writes holds the used bits of what was written, the reserved bits read
0, and the write changes no other register. -/
def Obligations.RegisterReadsBackItsUsedBits : Prop :=
  ∀ (s : State) (r : Reg) (v : Word) (rest : List Arrival), isReadWrite r = true →
    HostMovesIdle s (.regWrite (Machine.Reg.offset r) v) rest →
    ∃ t, step s = .next t ∧ t.readOffset (Machine.Reg.offset r) = v &&& usedBits r ∧
      (∀ q : Reg, q ≠ r → t.readReg q = s.readReg q) ∧
      t.pix = s.pix ∧ t.frm = s.frm ∧ t.pay = s.pay ∧ t.nam = s.nam

/-- R21, R66, R70: a write to a read-only register, to a reserved offset, to an offset that is not a multiple of 4 or to
one at or above 0x100 is ignored; a read of an offset where no register stands returns 0. -/
def Obligations.IgnoredRegisterAccesses : Prop :=
  (∀ (s : State) (r : Reg) (v : Word) (rest : List Arrival), isReadOnly r = true →
    HostMovesIdle s (.regWrite (Machine.Reg.offset r) v) rest → step s = .next { s with inputs := rest }) ∧
  (∀ (s : State) (off : Nat) (v : Word) (rest : List Arrival), (off % 4 ≠ 0 ∨ 0x5C ≤ off) →
    HostMovesIdle s (.regWrite off v) rest → step s = .next { s with inputs := rest }) ∧
  (∀ (s : State) (off : Nat) (rest : List Arrival), (off % 4 ≠ 0 ∨ 0x5C ≤ off) →
    HostMovesIdle s (.regRead off) rest →
    step s = .next { s with inputs := rest, replies := .word 0 :: s.replies })

/-- R23, R188, R190, R191: a host write to STATUS has one effect only, that a 1 in bit 1 clears DONE. `irq` is IE and
DONE: such a write lowers it, so does a CMD write (that it does so already at the write is the model's reading, log 6),
and a CTRL write while DONE = 1 makes it the new IE bit. -/
def Obligations.StatusWriteClearsDoneOnly : Prop :=
  (∀ (s : State) (v : Word) (rest : List Arrival), HostMovesIdle s (.regWrite 0x04 v) rest →
    step s = .next { s with
      inputs := rest
      status := { s.status with done := if v.getLsbD 1 then false else s.status.done } }) ∧
  (∀ s : State, s.irq = true ↔ s.ctrl.ie = true ∧ s.status.done = true) ∧
  (∀ (s : State) (v : Word) (rest : List Arrival), HostMovesIdle s (.regWrite 0x04 v) rest → v.getLsbD 1 = true →
    ∃ t, step s = .next t ∧ t.irq = false) ∧
  (∀ (s : State) (c : Word) (rest : List Arrival), HostMovesIdle s (.regWrite 0x00 c) rest →
    ∃ t, step s = .next t ∧ t.irq = false) ∧
  (∀ (s : State) (v : Word) (rest : List Arrival), HostMovesIdle s (.regWrite 0x08 v) rest → s.status.done = true →
    ∃ t, step s = .next t ∧ t.irq = v.getLsbD 0)

/-- R60, R62, R68: a port write within a memory stores the value at that index of that memory and changes no other
index, no other memory and no register; the memory is in canonical form. -/
def Obligations.PortWriteStoresOneUnit : Prop :=
  ∀ (s : State) (rest : List Arrival), MemoriesOk s →
    (∀ (a : Nat) (v : Word), a < s.caps.pixWords → HostMovesIdle s (.pixWrite a v) rest →
      ∃ t, step s = .next t ∧ t = { s with inputs := rest, pix := t.pix } ∧
        ∀ b, t.pixAt b = if b = a then v else s.pixAt b) ∧
    (∀ (i : Nat) (v : Byte), i < s.caps.frmBytes → HostMovesIdle s (.frmWrite i v) rest →
      ∃ t, step s = .next t ∧ t = { s with inputs := rest, frm := t.frm } ∧
        ∀ b, t.frmAt b = if b = i then v else s.frmAt b) ∧
    (∀ (i : Nat) (v : Byte), i < s.caps.payBytes → HostMovesIdle s (.payWrite i v) rest →
      ∃ t, step s = .next t ∧ t = { s with inputs := rest, pay := t.pay } ∧
        ∀ b, t.payAt b = if b = i then v else s.payAt b) ∧
    (∀ (i : Nat) (v : Byte), i < s.caps.namBytes → HostMovesIdle s (.namWrite i v) rest →
      ∃ t, step s = .next t ∧ t = { s with inputs := rest, nam := t.nam } ∧
        ∀ b, t.namAt b = if b = i then v else s.namAt b)

/-- R62, R68: a port read within a memory returns what that index holds, a read of a register its value, and neither
changes anything. CMD reads 0 (R22); STATUS has BUSY, DONE, NP and ERR at bits 0, 1, 2 and 11:8 and 0 elsewhere (R23);
the other registers have their fields from bit 0 on and 0 above (R24 to R40), IE and LAYOUT at bits 0 and 1 of CTRL, VEC
and CNT at bits 15:0 and 20:16 of BSQ. -/
def Obligations.PortReadReturnsTheUnit : Prop :=
  (∀ (s : State) (r : Reg) (rest : List Arrival), HostMovesIdle s (.regRead (Machine.Reg.offset r)) rest →
    step s = .next { s with inputs := rest, replies := .word (s.readReg r) :: s.replies }) ∧
  (∀ s : State, s.readReg .cmd = 0 ∧
    (∀ i, i < 32 → (s.readReg .status).getLsbD i =
      if i = 0 then s.status.busy else if i = 1 then s.status.done else if i = 2 then s.status.np
      else if 8 ≤ i ∧ i < 12 then s.status.err.getLsbD (i - 8) else false) ∧
    (∀ i, i < 32 → (s.readReg .ctrl).getLsbD i =
      if i = 0 then s.ctrl.ie else if i = 1 then s.ctrl.layout else false) ∧
    (∀ i, i < 32 → (s.readReg .bsq).getLsbD i =
      if i < 16 then s.bsq.vec.getLsbD i else if i < 21 then s.bsq.cnt.getLsbD (i - 16) else false) ∧
    (s.readReg .width).toNat = s.width.toNat ∧ (s.readReg .height).toNat = s.height.toNat ∧
    s.readReg .plenLo = s.plenLo ∧ s.readReg .plenHi = s.plenHi ∧ s.readReg .nlenLo = s.nlenLo ∧
    s.readReg .nlenHi = s.nlenHi ∧ s.readReg .flen = s.flen ∧ (s.readReg .byte).toNat = s.byte.toNat ∧
    s.readReg .rnlen = s.rnlen ∧ s.readReg .rplen = s.rplen ∧ s.readReg .rtotLo = s.rtotLo ∧
    (s.readReg .rtotHi).toNat = s.rtotHi.toNat ∧ s.readReg .einfoLo = s.einfoLo ∧ s.readReg .einfoHi = s.einfoHi ∧
    s.readReg .pidx = s.cursor.pidx ∧ (s.readReg .xpos).toNat = s.cursor.xpos.toNat ∧
    (s.readReg .ypos).toNat = s.cursor.ypos.toNat ∧ s.readReg .bidx = s.cursor.bidx ∧
    (s.readReg .biti).toNat = s.cursor.biti.toNat) ∧
  ∀ (s : State) (rest : List Arrival) (i : Nat),
    (i < s.caps.pixWords → HostMovesIdle s (.pixRead i) rest →
      step s = .next { s with inputs := rest, replies := .word (s.pixAt i) :: s.replies }) ∧
    (i < s.caps.frmBytes → HostMovesIdle s (.frmRead i) rest →
      step s = .next { s with inputs := rest, replies := .byte (s.frmAt i) :: s.replies }) ∧
    (i < s.caps.payBytes → HostMovesIdle s (.payRead i) rest →
      step s = .next { s with inputs := rest, replies := .byte (s.payAt i) :: s.replies }) ∧
    (i < s.caps.namBytes → HostMovesIdle s (.namRead i) rest →
      step s = .next { s with inputs := rest, replies := .byte (s.namAt i) :: s.replies })

/-- R62, R70: a port access outside its memory reads 0 and writes nothing. -/
def Obligations.OutOfRangePortAccess : Prop :=
  ∀ (s : State) (rest : List Arrival) (i : Nat),
    (s.caps.pixWords ≤ i →
      (∀ v, HostMovesIdle s (.pixWrite i v) rest → step s = .next { s with inputs := rest }) ∧
      (HostMovesIdle s (.pixRead i) rest →
        step s = .next { s with inputs := rest, replies := .word 0 :: s.replies })) ∧
    (s.caps.frmBytes ≤ i →
      (∀ v, HostMovesIdle s (.frmWrite i v) rest → step s = .next { s with inputs := rest }) ∧
      (HostMovesIdle s (.frmRead i) rest →
        step s = .next { s with inputs := rest, replies := .byte 0 :: s.replies })) ∧
    (s.caps.payBytes ≤ i →
      (∀ v, HostMovesIdle s (.payWrite i v) rest → step s = .next { s with inputs := rest }) ∧
      (HostMovesIdle s (.payRead i) rest →
        step s = .next { s with inputs := rest, replies := .byte 0 :: s.replies })) ∧
    (s.caps.namBytes ≤ i →
      (∀ v, HostMovesIdle s (.namWrite i v) rest → step s = .next { s with inputs := rest }) ∧
      (HostMovesIdle s (.namRead i) rest →
        step s = .next { s with inputs := rest, replies := .byte 0 :: s.replies }))

/-- R73: while BUSY = 1 a STATUS read returns exactly 0x00000001, every other read returns 0, and every write, CMD and
STATUS included, is ignored. -/
def Obligations.BusyHidesEverythingFromTheHost : Prop :=
  ∀ (s : State) (rest : List Arrival),
    (HostMovesBusy s (.regRead 0x04) rest →
      step s = .next { s with inputs := rest, replies := .word 1 :: s.replies }) ∧
    (∀ off, off ≠ 0x04 → HostMovesBusy s (.regRead off) rest →
      step s = .next { s with inputs := rest, replies := .word 0 :: s.replies }) ∧
    (∀ a, HostMovesBusy s (.pixRead a) rest →
      step s = .next { s with inputs := rest, replies := .word 0 :: s.replies }) ∧
    (∀ i, HostMovesBusy s (.frmRead i) rest ∨ HostMovesBusy s (.payRead i) rest ∨
        HostMovesBusy s (.namRead i) rest →
      step s = .next { s with inputs := rest, replies := .byte 0 :: s.replies }) ∧
    (∀ a v b, HostMovesBusy s (.regWrite a v) rest ∨ HostMovesBusy s (.pixWrite a v) rest ∨
        HostMovesBusy s (.frmWrite a b) rest ∨ HostMovesBusy s (.payWrite a b) rest ∨
        HostMovesBusy s (.namWrite a b) rest →
      step s = .next { s with inputs := rest })

/-- R197: with no event to come and no command running, the core holds its state. -/
def Obligations.IdleCoreHoldsItsState : Prop :=
  ∀ s : State, s.inputs = [] → s.status.busy = false → step s = .next s

/-! ### What holds of every command -/

/-- R96, R97, R190, R222: every command completes, in one step of its own, with BUSY = 0 and DONE = 1, so `irq` is then
the enable bit; a command that succeeds leaves EINFO 0. -/
def Obligations.EveryCommandCompletes : Prop :=
  ∀ (i : Instr) (s : State), ∃ t, exec i s = .next t ∧ t.status.busy = false ∧ t.status.done = true ∧
    t.irq = s.ctrl.ie ∧ (t.status.err = 0 → t.einfo = 0)

/-- R182: a command ends only with the codes of its row. -/
def Obligations.CommandEndsOnlyWithItsCodes : Prop :=
  ∀ (i : Instr) (s t : State), exec i s = .next t → t.status.err ∈ mayEndWith i

/-- R96, R187, R199: a command that ends with an error leaves the result registers and NP 0 and PIX as it was, and an
EXTRACT leaves FLEN 0. -/
def Obligations.ErrorCommitsNothing : Prop :=
  ∀ (i : Instr) (s t : State), exec i s = .next t → t.status.err ≠ 0 →
    t.rnlen = 0 ∧ t.rplen = 0 ∧ t.rtot = 0 ∧ t.status.np = false ∧ t.pix = s.pix ∧
    (i = .extractF ∨ i = .extractM → t.flen = 0)

/-- R20, R27 to R31, R43, R47 to R49, R60: the frame of every command. The operand registers, PAY and NAM never change;
BSQ changes only by UNPACK, BYTE only by PACK, FLEN and FRM only by BUILD, EXTRACT and ENCODE, the cursor only by the
pass commands, PIX only by EMBED and ENCODE. -/
def Obligations.CommandFrame : Prop :=
  ∀ (i : Instr) (s t : State), exec i s = .next t →
    t.ctrl = s.ctrl ∧ t.width = s.width ∧ t.height = s.height ∧ t.plenLo = s.plenLo ∧ t.plenHi = s.plenHi ∧
    t.nlenLo = s.nlenLo ∧ t.nlenHi = s.nlenHi ∧ t.pay = s.pay ∧ t.nam = s.nam ∧ t.cmdw = s.cmdw ∧
    t.rst = s.rst ∧ t.caps = s.caps ∧ t.resets = s.resets ∧ t.inputs = s.inputs ∧ t.replies = s.replies ∧
    (i ≠ .unpack → t.bsq = s.bsq) ∧ (i ≠ .pack → t.byte = s.byte) ∧
    (i ∉ [Instr.buildF, .buildM, .extractF, .extractM, .encodeF, .encodeM] → t.flen = s.flen ∧ t.frm = s.frm) ∧
    (isPass i = false → t.cursor = s.cursor) ∧
    (i ∉ [Instr.embed, .encodeF, .encodeM] → t.pix = s.pix)

/-- R145, R176: no command, successful or not, changes a bit of PIX other than the designated bit of a word. -/
def Obligations.OnlyTheDesignatedBitChanges : Prop :=
  ∀ (i : Instr) (s t : State), s.pix.wf → exec i s = .next t → ∀ a, sameButDB (t.pixAt a) (s.pixAt a)

/-! ### The Bit Codec -/

/-- R113: UNPACK, word 0x00000001, puts BYTE into VEC[7:0], clears VEC[15:8], sets CNT to 8, and changes nothing else. -/
def Obligations.UnpackResult : Prop :=
  decode 0x00000001#32 = .ok .unpack ∧
  ∀ s : State, exec .unpack s = .next { endedWith 0 0 s with bsq := { vec := s.byte.setWidth 16, cnt := 8 } }

/-- R114: PACK, word 0x00000002, with CNT = 8 puts VEC[7:0] into BYTE; with any other count it ends with InvalidArgument
and EINFO = CNT. Nothing else changes. -/
def Obligations.PackResult : Prop :=
  decode 0x00000002#32 = .ok .pack ∧
  (∀ s : State, s.bsq.cnt = 8 → exec .pack s = .next { endedWith 0 0 s with byte := s.bsq.vec.setWidth 8 }) ∧
  (∀ s : State, s.bsq.cnt ≠ 8 → exec .pack s = .next (endedWith 7 s.bsq.cnt.toNat s))

/-- R110, R111, R112: element i of the bit sequence is bit i, the two functions are inverse, and a sequence whose length
is not 8 has no byte. -/
def Obligations.BitCodecInverse : Prop :=
  (∀ (b : Byte) (i : Nat), i < 8 → (byteToBits b)[i]? = some (b.getLsbD i)) ∧
  (∀ b : Byte, bitsToByte (byteToBits b) = some b) ∧
  (∀ bits : List Bool, bits.length = 8 → ∃ b, bitsToByte bits = some b ∧ byteToBits b = bits) ∧
  (∀ bits : List Bool, bits.length ≠ 8 → bitsToByte bits = none)

/-! ### The Payload Framer -/

/-- R122: `LE32` takes the bytes of a number from the least significant on, `UnLE32` is their weighted sum, below 2^32,
and each is the inverse of the other. -/
def Obligations.LengthFieldsInverse : Prop :=
  (∀ v : Nat, v < 2 ^ 32 → ∃ b0 b1 b2 b3, le32 v = [b0, b1, b2, b3] ∧ b0.toNat = v % 2 ^ 8 ∧
    b1.toNat = v / 2 ^ 8 % 2 ^ 8 ∧ b2.toNat = v / 2 ^ 16 % 2 ^ 8 ∧ b3.toNat = v / 2 ^ 24 ∧ unLE32 b0 b1 b2 b3 = v) ∧
  (∀ b0 b1 b2 b3 : Byte,
    unLE32 b0 b1 b2 b3 = b0.toNat + 2 ^ 8 * b1.toNat + 2 ^ 16 * b2.toNat + 2 ^ 24 * b3.toNat ∧
    unLE32 b0 b1 b2 b3 < 2 ^ 32 ∧ le32 (unLE32 b0 b1 b2 b3) = [b0, b1, b2, b3])

/-- R125, R126: the header parse finds the lengths n and p exactly in the bytes that the header encoder makes of them. -/
def Obligations.HeaderDecodeInvertsEncode : Prop :=
  ∀ (m : Mode) (n p : Nat) (bytes : Nat → Byte), n < 2 ^ 32 → p < 2 ^ 32 → (m = .message → n = 0) →
    (hdrDecode m bytes = .ok ⟨n, p, headerSize m + n + p⟩ ↔
      ∀ j, j < headerSize m → bytes j = (hdrEncode m n p).getD j 0)

/-- R130, R131: BUILD.F and BUILD.M, when the lengths fit the fields and the memories, write header, name and payload to
`FRM[0..total)`, set FLEN to the total, and change nothing else. -/
def Obligations.BuildWritesTheFrame : Prop :=
  ∀ (m : Mode) (s : State), s.frm.wf → BuildFits m s →
    ∃ t, exec (buildOf m) s = .next t ∧
      t = { endedWith 0 0 s with
        frm := t.frm
        flen := BitVec.ofNat 32 (headerSize m + s.nameLen m + s.plen) } ∧
      ∀ j, t.frmAt j =
        if j < headerSize m + s.nameLen m + s.plen then builtByte m (s.nameLen m) s.plen s j else s.frmAt j

/-- R130, R131: BUILD.F and BUILD.M end with PayloadTooLarge when a length exceeds 2^32 - 1, EINFO saying which, and
otherwise with ResourceLimit when the frame, the payload or the name does not fit its memory; nothing else changes. -/
def Obligations.BuildRefusesWhatDoesNotFit : Prop :=
  ∀ (m : Mode) (s : State),
    (2 ^ 32 ≤ s.nameLen m ∨ 2 ^ 32 ≤ s.plen →
      exec (buildOf m) s = .next (endedWith 4
        ((if 2 ^ 32 ≤ s.nameLen m then 1 else 0) + (if 2 ^ 32 ≤ s.plen then 2 else 0)) s)) ∧
    (s.nameLen m < 2 ^ 32 → s.plen < 2 ^ 32 → ¬ BuildFits m s →
      exec (buildOf m) s = .next (endedWith 9
        ((if s.caps.frmBytes < headerSize m + s.nameLen m + s.plen then 2 else 0) +
          (if s.caps.payBytes < s.plen then 4 else 0) + (if s.caps.namBytes < s.nameLen m then 8 else 0)) s))

/-- R132: HDEC.F, word 0x00000004, delivers the two lengths of the 12 header bytes and their total, NP = 1 exactly when
name_length is above 0; without the magic it ends with MagicMismatch and the four bytes found. Nothing else changes. -/
def Obligations.HdecFileResult : Prop :=
  decode 0x00000004#32 = .ok .hdecF ∧
  (∀ s : State, s.frmAt 0 = 0x53 ∧ s.frmAt 1 = 0x54 ∧ s.frmAt 2 = 0x45 ∧ s.frmAt 3 = 0x47 →
    exec .hdecF s = .next
      (withResults (decide (0 < fieldAt s.frmAt 4)) (fieldAt s.frmAt 4) (fieldAt s.frmAt 8)
        (12 + fieldAt s.frmAt 4 + fieldAt s.frmAt 8) (endedWith 0 0 s))) ∧
  (∀ s : State, ¬ (s.frmAt 0 = 0x53 ∧ s.frmAt 1 = 0x54 ∧ s.frmAt 2 = 0x45 ∧ s.frmAt 3 = 0x47) →
    exec .hdecF s = .next (endedWith 1 (fieldAt s.frmAt 0) s))

/-- R133: HDEC.M, word 0x00000014, the same with the 8-byte header: RNLEN and NP are 0. -/
def Obligations.HdecMessageResult : Prop :=
  decode 0x00000014#32 = .ok .hdecM ∧
  (∀ s : State, s.frmAt 0 = 0x53 ∧ s.frmAt 1 = 0x54 ∧ s.frmAt 2 = 0x45 ∧ s.frmAt 3 = 0x47 →
    exec .hdecM s = .next
      (withResults false 0 (fieldAt s.frmAt 4) (8 + fieldAt s.frmAt 4) (endedWith 0 0 s))) ∧
  (∀ s : State, ¬ (s.frmAt 0 = 0x53 ∧ s.frmAt 1 = 0x54 ∧ s.frmAt 2 = 0x45 ∧ s.frmAt 3 = 0x47) →
    exec .hdecM s = .next (endedWith 1 (fieldAt s.frmAt 0) s))

/-- R134, R135: PARSE.F and PARSE.M accept a frame of exactly FLEN bytes that fits FRM, whose magic is right and, in
file mode, whose name is valid UTF-8, and deliver its lengths; nothing else changes. -/
def Obligations.ParseAcceptsTheFrame : Prop :=
  ∀ (m : Mode) (s : State) (h : Header),
    s.flen.toNat ≤ s.caps.frmBytes → hdrDecode m s.frmAt = .ok h → s.flen.toNat = h.total →
    (m = .file → utf8FirstBad (slice s.frmAt 12 h.n) = none) →
    exec (parseOf m) s = .next (withResults (namePresent m h.n) h.n h.p h.total (endedWith 0 0 s))

/-- R134, R135, R184: the refusals of PARSE.F and PARSE.M, in the order they are tested; nothing else changes. -/
def Obligations.ParseRefusalsInOrder : Prop :=
  ∀ (m : Mode) (s : State),
    (s.caps.frmBytes < s.flen.toNat → exec (parseOf m) s = .next (endedWith 9 2 s)) ∧
    (s.flen.toNat ≤ s.caps.frmBytes →
      (s.flen.toNat < headerSize m → exec (parseOf m) s = .next (endedWith 7 (headerSize m) s)) ∧
      (headerSize m ≤ s.flen.toNat →
        (∀ found, hdrDecode m s.frmAt = .magicBad found → exec (parseOf m) s = .next (endedWith 1 found s)) ∧
        (∀ h, hdrDecode m s.frmAt = .ok h →
          (s.flen.toNat ≠ h.total → exec (parseOf m) s = .next (endedWith 7 h.total s)) ∧
          (s.flen.toNat = h.total → ∀ i, m = .file → utf8FirstBad (slice s.frmAt 12 h.n) = some i →
            exec (parseOf m) s = .next (endedWith 5 i s)))))

/-- R127, R128: a byte sequence has no bad index exactly when it is a concatenation of sequences that each match a row
of the table; and a sequence matches a row exactly when its bytes lie in the ranges of one of the nine rows of R127. -/
def Obligations.Utf8ValidIffRows : Prop :=
  (∀ bs : List Byte, utf8FirstBad bs = none ↔
    ∃ parts : List (List Byte), bs = parts.flatten ∧ ∀ part ∈ parts, ∃ row ∈ utf8Rows, MatchesRow row part) ∧
  ∀ bs : List Byte, (∃ row ∈ utf8Rows, MatchesRow row bs) ↔
    (∃ a, bs = [a] ∧ byteIn 0x00 0x7F a) ∨
    (∃ a b, bs = [a, b] ∧ byteIn 0xC2 0xDF a ∧ byteIn 0x80 0xBF b) ∨
    (∃ a b c, bs = [a, b, c] ∧ byteIn 0xE0 0xE0 a ∧ byteIn 0xA0 0xBF b ∧ byteIn 0x80 0xBF c) ∨
    (∃ a b c, bs = [a, b, c] ∧ byteIn 0xE1 0xEC a ∧ byteIn 0x80 0xBF b ∧ byteIn 0x80 0xBF c) ∨
    (∃ a b c, bs = [a, b, c] ∧ byteIn 0xED 0xED a ∧ byteIn 0x80 0x9F b ∧ byteIn 0x80 0xBF c) ∨
    (∃ a b c, bs = [a, b, c] ∧ byteIn 0xEE 0xEF a ∧ byteIn 0x80 0xBF b ∧ byteIn 0x80 0xBF c) ∨
    (∃ a b c d, bs = [a, b, c, d] ∧ byteIn 0xF0 0xF0 a ∧ byteIn 0x90 0xBF b ∧ byteIn 0x80 0xBF c ∧
      byteIn 0x80 0xBF d) ∨
    (∃ a b c d, bs = [a, b, c, d] ∧ byteIn 0xF1 0xF3 a ∧ byteIn 0x80 0xBF b ∧ byteIn 0x80 0xBF c ∧
      byteIn 0x80 0xBF d) ∨
    (∃ a b c d, bs = [a, b, c, d] ∧ byteIn 0xF4 0xF4 a ∧ byteIn 0x80 0x8F b ∧ byteIn 0x80 0xBF c ∧
      byteIn 0x80 0xBF d)

/-- R128: the index returned is where valid UTF-8 ends: the bytes before it are valid, and no row matches a sequence
that starts there. -/
def Obligations.Utf8FirstBadIsTheFirst : Prop :=
  ∀ (bs : List Byte) (i : Nat), utf8FirstBad bs = some i →
    i < bs.length ∧ utf8FirstBad (bs.take i) = none ∧
      ∀ row ∈ utf8Rows, ¬ MatchesRow row ((bs.drop i).take row.length)

/-! ### The Pixel Engine -/

/-- R144: `SetDB` makes bit 27 the bit given and keeps the other 31, `GetDB` reads bit 27, and the two undo each
other. -/
def Obligations.DesignatedBitAccess : Prop :=
  ∀ (w : Word) (b : Bool),
    (∀ i, i < 32 → (setDB w b).getLsbD i = if i = 27 then b else w.getLsbD i) ∧ getDB w = w.getLsbD 27 ∧
      getDB (setDB w b) = b ∧ setDB w (getDB w) = w

/-- R141, R142: the word index of pixel k is `(k mod H) * W + k div H` with LAYOUT = 0 and k with LAYOUT = 1; in both
layouts it is a bijection from the traversal indices 0 to N - 1 onto the word indices 0 to N - 1. -/
def Obligations.PixelAddressesAreABijection : Prop :=
  ∀ g : Grid,
    (∀ k, k < g.pixels → g.addrOf k < g.pixels) ∧
    (∀ j k, j < g.pixels → k < g.pixels → g.addrOf j = g.addrOf k → j = k) ∧
    (∀ a, a < g.pixels → ∃ k, k < g.pixels ∧ g.addrOf k = a) ∧
    (g.columnMajor = false → ∀ k, k < g.pixels → g.addrOf k = k % g.h.toNat * g.w.toNat + k / g.h.toNat) ∧
    (g.columnMajor = true → ∀ k, k < g.pixels → g.addrOf k = k)

/-- R41, R42, R44, R45, R141: counting k pixels from the start of a pass, k at most N, gives PIDX = k, the column k div H
and the row k mod H, the frame byte k div 8 and the bit k mod 8. -/
def Obligations.CursorCountsTheTraversal : Prop :=
  ∀ (g : Grid) (k : Nat), k ≤ g.pixels →
    let c := (fun c : Cursor => (c.advanceRaster g.h).advanceBit)^[k] Cursor.start
    c.pidx.toNat = k ∧ c.xpos.toNat = k / g.h.toNat ∧ c.ypos.toNat = k % g.h.toNat ∧
      c.bidx.toNat = k / 8 ∧ c.biti.toNat = k % 8

/-- R152, R162: EMBED, when FLEN is 0, or 8 * FLEN is at most N and the grid and the frame fit their memories, puts
frame bit k into the designated bit of the pixel with traversal index k, for k below 8 * FLEN, leaves every other word of
PIX and everything else as it was, and leaves the cursor at pixel 8 * FLEN. That an empty frame succeeds with N above
PIX_WORDS is the model's choice of R162 against the pseudocode of R152 (log 17). -/
def Obligations.EmbedWritesTheFrameBits : Prop :=
  ∀ s : State, s.pix.wf → 8 * s.flen.toNat ≤ s.grid.pixels →
    (s.flen = 0 ∨ (s.grid.pixels ≤ s.caps.pixWords ∧ s.flen.toNat ≤ s.caps.frmBytes)) →
    ∃ t, exec .embed s = .next t ∧
      t = { endedWith 0 0 s with cursor := cursorAfter s.grid (8 * s.flen.toNat), pix := t.pix } ∧
      (∀ k, k < 8 * s.flen.toNat →
        t.pixAt (s.grid.addrOf k) = setDB (s.pixAt (s.grid.addrOf k)) (frameBit s.frmAt k)) ∧
      (∀ a, (∀ k, k < 8 * s.flen.toNat → s.grid.addrOf k ≠ a) → t.pixAt a = s.pixAt a)

/-- R147, R152, R184: EMBED ends with InsufficientCapacity and the bits required when N is below 8 * FLEN, and otherwise
with ResourceLimit when FLEN is not 0 and the grid or the frame does not fit its memory; only the cursor is cleared. With
FLEN = 0 it succeeds on any grid and changes nothing else but the cursor, which is cleared; that it does so with N above
PIX_WORDS is the model's choice of R162 against the pseudocode of R152 (log 17). -/
def Obligations.EmbedRefusesWhatDoesNotFit : Prop :=
  ∀ s : State,
    (s.grid.pixels < 8 * s.flen.toNat →
      exec .embed s = .next { endedWith 2 (8 * s.flen.toNat) s with cursor := Cursor.start }) ∧
    (8 * s.flen.toNat ≤ s.grid.pixels → s.flen ≠ 0 →
        (s.caps.pixWords < s.grid.pixels ∨ s.caps.frmBytes < s.flen.toNat) →
      exec .embed s = .next
        { endedWith 9 ((if s.caps.pixWords < s.grid.pixels then 1 else 0) +
            (if s.caps.frmBytes < s.flen.toNat then 2 else 0)) s with cursor := Cursor.start }) ∧
    (s.flen = 0 → exec .embed s = .next { endedWith 0 0 s with cursor := Cursor.start })

/-- R152, R178: a second EMBED with the same operands changes nothing. -/
def Obligations.EmbedTwiceIsEmbedOnce : Prop :=
  ∀ s t : State, s.pix.wf → exec .embed s = .next t → exec .embed t = .next t

/-- R155 to R158 row 7: EXTRACT.F and EXTRACT.M of a grid that holds a whole frame write its bytes to `FRM[0..total)`,
deliver its lengths, set FLEN to the total and leave the cursor at pixel 8 * total; nothing else changes. -/
def Obligations.ExtractRecoversAWholeFrame : Prop :=
  ∀ (m : Mode) (s : State) (h : Header), s.frm.wf → s.caps.wellFormed = true →
    s.grid.pixels ≤ s.caps.pixWords → hdrDecode m (assembledByte s) = .ok h →
    8 * h.total ≤ s.grid.pixels → h.total ≤ s.caps.frmBytes →
    (m = .file → utf8FirstBad (slice (assembledByte s) 12 h.n) = none) →
    ∃ t, exec (extractOf m) s = .next t ∧
      t = { withResults (namePresent m h.n) h.n h.p h.total (endedWith 0 0 s) with
        flen := BitVec.ofNat 32 h.total, cursor := cursorAfter s.grid (8 * h.total), frm := t.frm } ∧
      ∀ j, t.frmAt j = if j < h.total then assembledByte s j else s.frmAt j

/-- R155, R158 row 1: EXTRACT of a grid larger than PIX ends with ResourceLimit(1) before any read; FLEN and the cursor
are cleared. -/
def Obligations.ExtractRefusesAGridBeyondPix : Prop :=
  ∀ (m : Mode) (s : State), s.caps.pixWords < s.grid.pixels →
    exec (extractOf m) s = .next { endedWith 9 1 s with flen := 0, cursor := Cursor.start }

/-- R154, R158 row 2: EXTRACT of a grid too small for the header ends with TruncatedPayload(0), whatever its bits, with
the whole bytes it has read in FRM. -/
def Obligations.ExtractTruncatedBeforeTheHeader : Prop :=
  ∀ (m : Mode) (s : State), s.frm.wf → s.caps.wellFormed = true →
    s.grid.pixels ≤ s.caps.pixWords → s.grid.pixels < 8 * headerSize m →
    ∃ t, exec (extractOf m) s = .next t ∧
      t = { endedWith 3 0 s with flen := 0, cursor := cursorAfter s.grid s.grid.pixels, frm := t.frm } ∧
      ∀ j, t.frmAt j = if j < s.grid.pixels / 8 then assembledByte s j else s.frmAt j

/-- R154, R158 row 3, R175: EXTRACT of a grid without the magic ends with MagicMismatch and the four bytes found, after
8 * hs pixels, with the header bytes it has read in FRM. -/
def Obligations.ExtractRejectsAWrongMagic : Prop :=
  ∀ (m : Mode) (s : State) (found : Nat), s.frm.wf → s.caps.wellFormed = true →
    s.grid.pixels ≤ s.caps.pixWords → 8 * headerSize m ≤ s.grid.pixels →
    hdrDecode m (assembledByte s) = .magicBad found →
    ∃ t, exec (extractOf m) s = .next t ∧
      t = { endedWith 1 found s with
        flen := 0, cursor := cursorAfter s.grid (8 * headerSize m), frm := t.frm } ∧
      ∀ j, t.frmAt j = if j < headerSize m then assembledByte s j else s.frmAt j

/-- R155, R158 row 4, R179: EXTRACT of a grid that ends before the declared total ends with TruncatedPayload(total),
whatever the memory sizes, after all N pixels, with the whole bytes that have a place in FRM. -/
def Obligations.ExtractTruncatedBeforeTheTotal : Prop :=
  ∀ (m : Mode) (s : State) (h : Header), s.frm.wf → s.caps.wellFormed = true →
    s.grid.pixels ≤ s.caps.pixWords → 8 * headerSize m ≤ s.grid.pixels →
    hdrDecode m (assembledByte s) = .ok h → s.grid.pixels < 8 * h.total →
    ∃ t, exec (extractOf m) s = .next t ∧
      t = { endedWith 3 h.total s with flen := 0, cursor := cursorAfter s.grid s.grid.pixels, frm := t.frm } ∧
      ∀ j, t.frmAt j = if j < s.grid.pixels / 8 ∧ j < s.caps.frmBytes then assembledByte s j else s.frmAt j

/-- R155, R158 row 5: EXTRACT of a frame that the grid holds and FRM cannot ends with ResourceLimit(2) after the header,
with the header bytes in FRM. -/
def Obligations.ExtractRefusesAFrameBeyondFrm : Prop :=
  ∀ (m : Mode) (s : State) (h : Header), s.frm.wf → s.caps.wellFormed = true →
    s.grid.pixels ≤ s.caps.pixWords → hdrDecode m (assembledByte s) = .ok h →
    8 * h.total ≤ s.grid.pixels → s.caps.frmBytes < h.total →
    ∃ t, exec (extractOf m) s = .next t ∧
      t = { endedWith 9 2 s with flen := 0, cursor := cursorAfter s.grid (8 * headerSize m), frm := t.frm } ∧
      ∀ j, t.frmAt j = if j < headerSize m then assembledByte s j else s.frmAt j

/-- R155, R158 row 6: EXTRACT.F of a whole frame whose name is not valid UTF-8 ends with InvalidEncoding and the index of
the first bad byte, with the frame's bytes in FRM. -/
def Obligations.ExtractRejectsABadName : Prop :=
  ∀ (s : State) (h : Header) (i : Nat), s.frm.wf → s.caps.wellFormed = true →
    s.grid.pixels ≤ s.caps.pixWords → hdrDecode .file (assembledByte s) = .ok h →
    8 * h.total ≤ s.grid.pixels → h.total ≤ s.caps.frmBytes →
    utf8FirstBad (slice (assembledByte s) 12 h.n) = some i →
    ∃ t, exec .extractF s = .next t ∧
      t = { endedWith 5 i s with flen := 0, cursor := cursorAfter s.grid (8 * h.total), frm := t.frm } ∧
      ∀ j, t.frmAt j = if j < h.total then assembledByte s j else s.frmAt j

/-- R78, R145, R160: the result of EXTRACT depends on no bit of PIX but the designated bits of the pixels it visits:
with any other PIX that agrees on those, everything but PIX comes out the same. -/
def Obligations.ExtractDependsOnVisitedBitsOnly : Prop :=
  ∀ (m : Mode) (s t : State) (other : Memory 32), exec (extractOf m) s = .next t →
    (∀ k, k < t.cursor.pidx.toNat → pixelBit { s with pix := other } k = pixelBit s k) →
    exec (extractOf m) { s with pix := other } = .next { t with pix := other }

/-- R163: after EMBED of a well-formed frame, EXTRACT of the same mode in any state with the same grid, capacities and
PIX succeeds, writes the same bytes to FRM and delivers the frame's lengths. -/
def Obligations.ExtractRecoversTheEmbeddedFrame : Prop :=
  ∀ (m : Mode) (n p : Nat) (s : State), s.pix.wf → s.caps.wellFormed = true → HoldsFrame m n p s.frmAt →
    s.flen.toNat = headerSize m + n + p → s.flen.toNat ≤ s.caps.frmBytes →
    8 * s.flen.toNat ≤ s.grid.pixels → s.grid.pixels ≤ s.caps.pixWords →
    ∃ t, exec .embed s = .next t ∧ t.status.err = 0 ∧
      ∀ u : State, u.grid = t.grid → u.caps = t.caps → u.pix = t.pix → u.resets = t.resets → u.frm.wf →
        ∃ v, exec (extractOf m) u = .next v ∧ v.status.err = 0 ∧ v.flen = s.flen ∧
          v.rnlen.toNat = n ∧ v.rplen.toNat = p ∧ v.rtot = s.flen.toNat ∧ v.status.np = namePresent m n ∧
          ∀ j, j < s.flen.toNat → v.frmAt j = s.frmAt j

/-! ### The encode path -/

/-- R170, R171: ENCODE.F and ENCODE.M, when BUILD succeeds and 8 * total is at most N and N at most PIX_WORDS, leave in
FRM the frame that BUILD makes, FLEN = total, each frame bit k in the designated bit of pixel k, every other byte and
word as it was, and the cursor at pixel 8 * total. -/
def Obligations.EncodeWritesFrameAndPixels : Prop :=
  ∀ (m : Mode) (s : State), s.frm.wf → s.pix.wf → s.caps.wellFormed = true → BuildFits m s →
    8 * (headerSize m + s.nameLen m + s.plen) ≤ s.grid.pixels → s.grid.pixels ≤ s.caps.pixWords →
    ∃ t, exec (encodeOf m) s = .next t ∧
      t = { endedWith 0 0 s with
        frm := t.frm
        flen := BitVec.ofNat 32 (headerSize m + s.nameLen m + s.plen)
        cursor := cursorAfter s.grid (8 * (headerSize m + s.nameLen m + s.plen))
        pix := t.pix } ∧
      (∀ j, t.frmAt j =
        if j < headerSize m + s.nameLen m + s.plen then builtByte m (s.nameLen m) s.plen s j else s.frmAt j) ∧
      (∀ k, k < 8 * (headerSize m + s.nameLen m + s.plen) →
        t.pixAt (s.grid.addrOf k) =
          setDB (s.pixAt (s.grid.addrOf k)) (frameBit (builtByte m (s.nameLen m) s.plen s) k)) ∧
      (∀ a, (∀ k, k < 8 * (headerSize m + s.nameLen m + s.plen) → s.grid.addrOf k ≠ a) → t.pixAt a = s.pixAt a)

/-- R170, R171 (Equivalence): when BUILD succeeds, ENCODE leaves every register and memory as BUILD and then EMBED leave
them; when BUILD fails, it differs from BUILD only in the cleared cursor. -/
def Obligations.EncodeIsBuildThenEmbed : Prop :=
  ∀ (m : Mode) (s t : State), exec (buildOf m) s = .next t →
    (t.status.err = 0 → exec (encodeOf m) s = exec .embed t) ∧
    (t.status.err ≠ 0 → exec (encodeOf m) s = .next { t with cursor := Cursor.start })

/-- R170, R171, R174: when BUILD succeeds, ENCODE ends with InsufficientCapacity(8 * total) on a grid of fewer pixels,
and otherwise with ResourceLimit(1) on a grid larger than PIX; FRM and FLEN then hold the built frame, PIX is unchanged
and the cursor is cleared. -/
def Obligations.EncodeRefusesTheGrid : Prop :=
  ∀ (m : Mode) (s : State), s.frm.wf → s.caps.wellFormed = true → BuildFits m s →
    let total := headerSize m + s.nameLen m + s.plen
    ∀ err info, (s.grid.pixels < 8 * total ∧ err = 2 ∧ info = 8 * total) ∨
        (8 * total ≤ s.grid.pixels ∧ s.caps.pixWords < s.grid.pixels ∧ err = 9 ∧ info = 1) →
      ∃ t, exec (encodeOf m) s = .next t ∧
        t = { endedWith err info s with
          frm := t.frm, flen := BitVec.ofNat 32 total, cursor := Cursor.start } ∧
        ∀ j, t.frmAt j = if j < total then builtByte m (s.nameLen m) s.plen s j else s.frmAt j

/-- R173, R177: the round trip. ENCODE of a payload and (in file mode) a valid UTF-8 name that fit succeeds, and EXTRACT
of the same mode in any state with the same grid, capacities and PIX, whatever FRM holds, succeeds with the lengths given
and leaves the name and the payload in FRM behind the header. -/
def Obligations.EncodeThenExtractRoundTrip : Prop :=
  ∀ (m : Mode) (s : State), s.frm.wf → s.pix.wf → s.caps.wellFormed = true → BuildFits m s →
    8 * (headerSize m + s.nameLen m + s.plen) ≤ s.grid.pixels → s.grid.pixels ≤ s.caps.pixWords →
    (m = .file → utf8FirstBad (slice s.namAt 0 (s.nameLen m)) = none) →
    ∃ t, exec (encodeOf m) s = .next t ∧ t.status.err = 0 ∧
      ∀ u : State, u.grid = t.grid → u.caps = t.caps → u.pix = t.pix → u.resets = t.resets → u.frm.wf →
        ∃ v, exec (extractOf m) u = .next v ∧ v.status.err = 0 ∧
          v.rnlen.toNat = s.nameLen m ∧ v.rplen.toNat = s.plen ∧
          v.rtot = headerSize m + s.nameLen m + s.plen ∧ v.flen.toNat = v.rtot ∧
          v.status.np = namePresent m (s.nameLen m) ∧
          (∀ j, j < s.nameLen m → v.frmAt (headerSize m + j) = s.namAt j) ∧
          (∀ j, j < s.plen → v.frmAt (headerSize m + s.nameLen m + j) = s.payAt j)

/-- R172: DECODE.F and DECODE.M are other names for EXTRACT.F and EXTRACT.M: the same words 0x00000007 and 0x00000017. -/
def Obligations.DecodeIsAnotherNameForExtract : Prop :=
  ∀ m : Mode, Stmt.arrivals (.cmdDecode m) = Stmt.arrivals (.cmd (extractOf m)) ∧
    encode (extractOf m) = match m with | .file => 0x00000007#32 | .message => 0x00000017#32

/-! ### Invariants that every step keeps -/

/-- The state after reset meets the invariants. -/
def Obligations.ResetMeetsTheInvariants : Prop :=
  MemoriesOk State.reset ∧ ResultsOk State.reset ∧ CursorOk State.reset ∧ HeldInReset State.reset ∧ State.reset.caps.wellFormed = true

/-- R46 to R49, R70: every step keeps the four memories in canonical form and writes nothing outside their spaces. -/
def Obligations.StepKeepsMemoriesInTheirSpaces : Prop :=
  ∀ s t : State, MemoriesOk s → step s = .next t → MemoriesOk t

/-- R32 to R35, R96, R129, R181: every step keeps the error code and the result registers consistent. -/
def Obligations.StepKeepsResultsConsistent : Prop :=
  ∀ s t : State, ResultsOk s → step s = .next t → ResultsOk t

/-- R36, R42: every step keeps PIDX = 8 * BIDX + BITI and PIDX within the largest grid. -/
def Obligations.StepKeepsTheCursorInvariant : Prop :=
  ∀ s t : State, CursorOk s → step s = .next t → CursorOk t

/-- R7: no step changes the capacities, so capacities in their ranges stay so. -/
def Obligations.StepKeepsTheCapacities : Prop :=
  ∀ s t : State, step s = .next t → t.caps = s.caps

/-- R222: no state of STEGCORE is stuck: every step from every state has a next state. -/
def Obligations.EveryStepHasANextState : Prop :=
  ∀ s : State, ∃ t, step s = .next t
end

