-- ==== Sys2Proof/Laws/Bits.lean ====
section
/-! SUPPORT. The laws of the bit-level functions: the Bit Codec (R110 to R115), the length fields (R122), the
designated bit (R144). -/

namespace Sys2Proof.Machine

theorem getLsbD_setBit (b : Byte) (i j : Nat) (v : Bool) (hi : i < 8) (hj : j < 8) :
    (setBit b i v).getLsbD j = if j = i then v else b.getLsbD j := by
  have h1 : j - i = 0 ↔ j ≤ i := by omega
  simp only [setBit, BitVec.getLsbD_or, BitVec.getLsbD_and, BitVec.getLsbD_not, BitVec.getLsbD_shiftLeft,
    BitVec.getLsbD_one, BitVec.getLsbD_setWidth, BitVec.getLsbD_ofBool, hj]
  by_cases h : j = i
  · subst h; simp
  · by_cases hlt : j < i
    · simp [hlt, h]
    · have : j - i ≠ 0 := by omega
      simp [hlt, h, this]

theorem bitsToByte_range (f : Nat → Bool) (b : Byte) (h : ∀ i, i < 8 → b.getLsbD i = f i) :
    bitsToByte ((List.range 8).map f) = some b := by
  have e : (List.range 8).map f = (List.range 8).map b.getLsbD :=
    List.map_congr_left fun i hi => (h i (List.mem_range.mp hi)).symm
  have key : ∀ b : Byte, bitsToByte ((List.range 8).map b.getLsbD) = some b := by decide +kernel
  rw [e, key]

theorem getD_bitsToByte_getLsbD (f : Nat → Bool) (i : Nat) (hi : i < 8) :
    ((bitsToByte ((List.range 8).map f)).getD 0).getLsbD i = f i := by
  have h : ∀ j, j < 8 → (BitVec.ofFnLE (fun k : Fin 8 => f k)).getLsbD j = f j := fun j hj => by
    rw [BitVec.getLsbD_ofFnLE, dif_pos hj]
  rw [bitsToByte_range f _ h]
  exact h i hi

/-- The bits of `byte(j)` are the designated bits of its eight pixels (R158). -/
theorem getLsbD_assembledByte (s : State) (j i : Nat) (hi : i < 8) :
    (assembledByte s j).getLsbD i = pixelBit s (8 * j + i) :=
  getD_bitsToByte_getLsbD (fun i => pixelBit s (8 * j + i)) i hi

theorem byte_ext {a b : Byte} (h : ∀ i, i < 8 → a.getLsbD i = b.getLsbD i) : a = b :=
  BitVec.eq_of_getLsbD_eq fun i hi => h i hi

/-- `SetDB` replaces bit 27 and keeps every other bit (R144). -/
theorem getLsbD_setDB (w : Word) (b : Bool) (i : Nat) (hi : i < 32) :
    (setDB w b).getLsbD i = if i = 27 then b else w.getLsbD i := by
  have h : setDB w b = (w &&& 0xF7FFFFFF#32) ||| (if b then 0x08000000#32 else 0#32) := by
    refine BitVec.add_eq_or_of_and_eq_zero _ _ ?_
    rw [BitVec.and_assoc]
    cases b <;> simp
  have k1 : ∀ i, i < 32 → (0xF7FFFFFF#32).getLsbD i = decide (i ≠ 27) := by decide
  have k2 : ∀ i, i < 32 → (0x08000000#32).getLsbD i = decide (i = 27) := by decide
  rw [h, BitVec.getLsbD_or, BitVec.getLsbD_and, k1 i hi]
  cases b
  · simp only [Bool.false_eq_true, if_false, BitVec.getLsbD_zero]; split <;> simp_all
  · simp only [if_true, k2 i hi]; split <;> simp_all

@[simp] theorem getDB_setDB (w : Word) (b : Bool) : getDB (setDB w b) = b := by
  rw [getDB, getLsbD_setDB w b 27 (by omega)]; simp

theorem setDB_getDB (w : Word) : setDB w (getDB w) = w :=
  BitVec.eq_of_getLsbD_eq fun i hi => by
    rw [getLsbD_setDB w _ i hi]; split
    · subst i; rfl
    · rfl

theorem setDB_setDB (w : Word) (a b : Bool) : setDB (setDB w a) b = setDB w b :=
  BitVec.eq_of_getLsbD_eq fun i hi => by
    simp only [getLsbD_setDB _ _ i hi]; split <;> simp_all

theorem sameButDB_refl (w : Word) : sameButDB w w := fun _ _ _ => rfl

theorem sameButDB_setDB (w : Word) (b : Bool) : sameButDB (setDB w b) w := fun i hi h => by
  rw [getLsbD_setDB w b i hi, if_neg h]

theorem unLE32_lt (b0 b1 b2 b3 : Byte) : unLE32 b0 b1 b2 b3 < 2 ^ 32 := by
  have := b0.isLt
  have := b1.isLt
  have := b2.isLt
  have := b3.isLt
  unfold unLE32
  omega

theorem fieldAt_lt (bytes : Nat → Byte) (a : Nat) : fieldAt bytes a < 2 ^ 32 := unLE32_lt _ _ _ _

/-- `UnLE32` inverts `LE32` (R122). -/
theorem unLE32_le32 (v : Nat) (h : v < 2 ^ 32) :
    unLE32 (BitVec.ofNat 8 v) (BitVec.ofNat 8 (v / 2 ^ 8)) (BitVec.ofNat 8 (v / 2 ^ 16)) (BitVec.ofNat 8 (v / 2 ^ 24)) =
      v := by
  simp only [unLE32, BitVec.toNat_ofNat]
  omega

@[simp] theorem length_slice (mem : Nat → Byte) (a n : Nat) : (slice mem a n).length = n := by simp [slice]

theorem getElem?_slice (mem : Nat → Byte) (a n k : Nat) :
    (slice mem a n)[k]? = if k < n then some (mem (a + k)) else none := by
  simp only [slice, List.getElem?_map]
  split
  · rename_i h; rw [List.getElem?_range h]; rfl
  · rename_i h; rw [List.getElem?_eq_none (by simpa using h)]; rfl

theorem slice_congr {f g : Nat → Byte} {a n : Nat} (h : ∀ j, a ≤ j → j < a + n → f j = g j) :
    slice f a n = slice g a n :=
  List.map_congr_left fun k hk => h _ (Nat.le_add_right _ _) (by have := List.mem_range.mp hk; omega)

/-- The header decode reads only the header bytes (R126). -/
theorem hdrDecode_congr (m : Mode) {f g : Nat → Byte} (h : ∀ j, j < headerSize m → f j = g j) :
    hdrDecode m f = hdrDecode m g := by
  cases m <;> simp only [headerSize] at h <;> simp only [hdrDecode, fieldAt] <;> simp [h]

/-- What a header decode that succeeds says of its three numbers (R124, R126). -/
theorem hdrDecode_ok {m : Mode} {f : Nat → Byte} {hd : Header} (h : hdrDecode m f = .ok hd) :
    hd.n < 2 ^ 32 ∧ hd.p < 2 ^ 32 ∧ hd.total = headerSize m + hd.n + hd.p ∧ (m = .message → hd.n = 0) := by
  unfold hdrDecode at h
  split at h
  · cases h
  · cases m <;> simp only [HdrResult.ok.injEq] at h <;> subst h
    · exact ⟨fieldAt_lt _ _, fieldAt_lt _ _, rfl, nofun⟩
    · exact ⟨Nat.two_pow_pos 32, fieldAt_lt _ _, rfl, fun _ => rfl⟩

/-- The header parse finds what the header encoder wrote (R126). -/
theorem hdrDecode_hdrEncode (m : Mode) (n p : Nat) (hn : n < 2 ^ 32) (hp : p < 2 ^ 32) (hm : m = .message → n = 0)
    (f : Nat → Byte) (hf : ∀ j, j < headerSize m → f j = (hdrEncode m n p).getD j 0) :
    hdrDecode m f = .ok ⟨n, p, headerSize m + n + p⟩ := by
  cases m
  · simp only [headerSize] at hf
    have e : ∀ j, j < 12 → f j = (hdrEncode .file n p).getD j 0 := hf
    simp only [hdrDecode, fieldAt, e, Nat.reduceAdd, Nat.reduceLT, hdrEncode, magic, le32, List.cons_append,
      List.nil_append, List.getD_cons_succ, List.getD_cons_zero, unLE32_le32 _ hn, unLE32_le32 _ hp]
    simp
  · have hn0 := hm rfl
    subst hn0
    have e : ∀ j, j < 8 → f j = (hdrEncode .message 0 p).getD j 0 := hf
    simp only [hdrDecode, fieldAt, e, Nat.reduceAdd, Nat.reduceLT, hdrEncode, magic, le32, List.cons_append,
      List.nil_append, List.getD_cons_succ, List.getD_cons_zero, unLE32_le32 _ hp]
    simp

/-- The name check reads only the filename bytes (R134, R155). -/
theorem badName_congr (m : Mode) (n : Nat) {f g : Nat → Byte} (h : ∀ j, 12 ≤ j → j < 12 + n → f j = g j) :
    badName m n f = badName m n g := by
  cases m
  · simp only [badName, slice_congr h]
  · rfl

end Sys2Proof.Machine
end

