-- ==== Sys2Proof/Laws/Cursor.lean ====
section
/-! SUPPORT. The address generator and the bit cursor in closed form (R41, R42, R141, R142). -/

namespace Sys2Proof.Machine

theorem Grid.height_pos {g : Grid} {k : Nat} (h : k < g.pixels) : 0 < g.h.toNat := by
  rcases Nat.eq_zero_or_pos g.h.toNat with h0 | h0
  · simp [Grid.pixels, h0] at h
  · exact h0

theorem Grid.pixels_le (g : Grid) : g.pixels ≤ 65535 * 65535 :=
  Nat.mul_le_mul (by have := g.w.isLt; omega) (by have := g.h.isLt; omega)

theorem Grid.column_lt {g : Grid} {k : Nat} (h : k < g.pixels) : k / g.h.toNat < g.w.toNat :=
  (Nat.div_lt_iff_lt_mul (Grid.height_pos h)).mpr h

theorem Grid.column_le {g : Grid} {k : Nat} (h : k ≤ g.pixels) : k / g.h.toNat ≤ g.w.toNat := by
  rcases Nat.eq_zero_or_pos g.h.toNat with h0 | h0
  · simp [h0]
  · exact Nat.div_le_of_le_mul (by rw [Nat.mul_comm]; exact h)

@[simp] theorem cursorAfter_zero (g : Grid) : cursorAfter g 0 = Cursor.start := by
  simp [cursorAfter, Cursor.start]

theorem cursorAfter_pidx {g : Grid} {k : Nat} (h : k ≤ g.pixels) : (cursorAfter g k).pidx.toNat = k := by
  have := g.pixels_le
  simp only [cursorAfter, BitVec.toNat_ofNat]
  omega

theorem cursorAfter_bidx {g : Grid} {k : Nat} (h : k ≤ g.pixels) : (cursorAfter g k).bidx.toNat = k / 8 := by
  have := g.pixels_le
  simp only [cursorAfter, BitVec.toNat_ofNat]
  omega

theorem cursorAfter_biti (g : Grid) (k : Nat) : (cursorAfter g k).biti.toNat = k % 8 := by
  simp only [cursorAfter, BitVec.toNat_ofNat]
  omega

theorem cursorAfter_xpos {g : Grid} {k : Nat} (h : k ≤ g.pixels) :
    (cursorAfter g k).xpos.toNat = k / g.h.toNat := by
  have := Grid.column_le h
  have := g.w.isLt
  simp only [cursorAfter, BitVec.toNat_ofNat]
  exact Nat.mod_eq_of_lt (by omega)

theorem cursorAfter_ypos {g : Grid} {k : Nat} (h : k < g.pixels) :
    (cursorAfter g k).ypos.toNat = k % g.h.toNat := by
  have := Nat.mod_lt k (Grid.height_pos h)
  have := g.h.isLt
  simp only [cursorAfter, BitVec.toNat_ofNat]
  exact Nat.mod_eq_of_lt (by omega)

theorem cursorAfter_biti_eq (g : Grid) (k j : Nat) (hj : j < 8) :
    (cursorAfter g k).biti = BitVec.ofNat 3 j ↔ k % 8 = j := by
  rw [← BitVec.toNat_inj, cursorAfter_biti, BitVec.toNat_ofNat]
  omega

theorem advanceRaster_cursorAfter {g : Grid} {k : Nat} (h : k < g.pixels) :
    (cursorAfter g k).advanceRaster g.h =
      { cursorAfter g (k + 1) with bidx := (cursorAfter g k).bidx, biti := (cursorAfter g k).biti } := by
  have hp := Grid.height_pos h
  have hd := Nat.div_add_mod k g.h.toNat
  have hm := Nat.mod_lt k hp
  unfold Cursor.advanceRaster
  rw [cursorAfter_ypos h]
  split
  · rename_i e
    have hs : k + 1 = g.h.toNat * (k / g.h.toNat + 1) := by rw [Nat.mul_add]; omega
    have h1 : (k + 1) / g.h.toNat = k / g.h.toNat + 1 := by rw [hs, Nat.mul_div_cancel_left _ hp]
    have h2 : (k + 1) % g.h.toNat = 0 := by rw [hs, Nat.mul_mod_right]
    simp only [cursorAfter, h1, h2, BitVec.ofNat_add]
    rfl
  · rename_i e
    have hs : k + 1 = g.h.toNat * (k / g.h.toNat) + (k % g.h.toNat + 1) := by omega
    have hl : k % g.h.toNat + 1 < g.h.toNat := by omega
    have h1 : (k + 1) / g.h.toNat = k / g.h.toNat := by
      rw [hs, Nat.mul_add_div hp, Nat.div_eq_of_lt hl, Nat.add_zero]
    have h2 : (k + 1) % g.h.toNat = k % g.h.toNat + 1 := by
      rw [hs, Nat.mul_add_mod, Nat.mod_eq_of_lt hl]
    simp only [cursorAfter, h1, h2, BitVec.ofNat_add]
    rfl

theorem advanceBit_after (g : Grid) (k : Nat) (c : Cursor) (hb : c.bidx = (cursorAfter g k).bidx)
    (hi : c.biti = (cursorAfter g k).biti) :
    c.advanceBit = { c with bidx := (cursorAfter g (k + 1)).bidx, biti := (cursorAfter g (k + 1)).biti } := by
  unfold Cursor.advanceBit
  have h7 := cursorAfter_biti_eq g k 7 (by omega)
  rw [hi, hb]
  split
  · rename_i e
    have : k % 8 = 7 := h7.mp e
    have h1 : (k + 1) / 8 = k / 8 + 1 := by omega
    have h2 : (k + 1) % 8 = 0 := by omega
    simp only [cursorAfter, h1, h2, BitVec.ofNat_add]
    rfl
  · rename_i e
    have : k % 8 ≠ 7 := fun h => e (h7.mpr h)
    have h1 : (k + 1) / 8 = k / 8 := by omega
    have h2 : (k + 1) % 8 = k % 8 + 1 := by omega
    simp only [cursorAfter, h1, h2, BitVec.ofNat_add]
    rfl

/-- One pixel of a pass moves the cursor from its place after `k` pixels to its place after `k + 1` (R44, R45). -/
theorem cursorAfter_succ {g : Grid} {k : Nat} (h : k < g.pixels) :
    ((cursorAfter g k).advanceRaster g.h).advanceBit = cursorAfter g (k + 1) := by
  rw [advanceRaster_cursorAfter h]
  exact advanceBit_after g k _ rfl rfl

theorem pixAddr_cursorAfter {g : Grid} {k : Nat} (h : k < g.pixels) :
    g.pixAddr (cursorAfter g k).xpos.toNat (cursorAfter g k).ypos.toNat = g.addrOf k := by
  rw [cursorAfter_xpos (Nat.le_of_lt h), cursorAfter_ypos h]
  rfl

/-- The word index of a pixel of the grid is below N (R142). -/
theorem addrOf_lt {g : Grid} {k : Nat} (h : k < g.pixels) : g.addrOf k < g.pixels := by
  have hx := Grid.column_lt h
  have hy := Nat.mod_lt k (Grid.height_pos h)
  simp only [Grid.addrOf, Grid.pixAddr, Grid.coord, Grid.pixels]
  split
  · rw [Nat.mul_comm, Nat.div_add_mod]; exact h
  · calc k % g.h.toNat * g.w.toNat + k / g.h.toNat
        < k % g.h.toNat * g.w.toNat + g.w.toNat := by omega
      _ = (k % g.h.toNat + 1) * g.w.toNat := by rw [Nat.add_mul, Nat.one_mul]
      _ ≤ g.h.toNat * g.w.toNat := Nat.mul_le_mul_right _ hy
      _ = g.w.toNat * g.h.toNat := Nat.mul_comm _ _

/-- Two pixels of the grid have different word indices (R142). -/
theorem addrOf_inj {g : Grid} {j k : Nat} (hj : j < g.pixels) (hk : k < g.pixels) (h : g.addrOf j = g.addrOf k) :
    j = k := by
  have xj := Grid.column_lt hj
  have xk := Grid.column_lt hk
  have dj := Nat.div_add_mod j g.h.toNat
  have dk := Nat.div_add_mod k g.h.toNat
  simp only [Grid.addrOf, Grid.pixAddr, Grid.coord] at h
  split at h
  · rw [Nat.mul_comm, Nat.mul_comm (k / _)] at h; omega
  · have hw : 0 < g.w.toNat := Nat.lt_of_le_of_lt (Nat.zero_le _) xj
    have e1 : j / g.h.toNat = k / g.h.toNat := by
      have := congrArg (· % g.w.toNat) h
      simpa [Nat.mul_add_mod_self_right, Nat.mod_eq_of_lt xj, Nat.mod_eq_of_lt xk] using this
    have e2 : j % g.h.toNat = k % g.h.toNat := by
      rw [e1] at h
      exact Nat.eq_of_mul_eq_mul_right hw (Nat.add_right_cancel h)
    rw [← dj, ← dk, e1, e2]

end Sys2Proof.Machine
end

