-- ==== Sys2Proof/Laws/Memory.lean ====
section
/-! SUPPORT. The laws of memory: a read after a write, and that every memory operation keeps the canonical form. -/

namespace Sys2Proof.Machine

variable {w : Nat}

theorem Memory.read_write (m : Memory w) (a b : Nat) (v : BitVec w) (h : m.wf) :
    (m.write a v).read b = if b = a then some v else m.read b := by
  induction m with
  | nil => simp only [Memory.write, Memory.read]; split <;> split <;> simp_all
  | cons x rest ih =>
    obtain ⟨k, y⟩ := x
    have hr := List.pairwise_cons.mp h
    simp only [Memory.write]
    split
    · simp only [Memory.read]; grind
    · split
      · simp only [Memory.read]; grind
      · simp only [Memory.read, ih hr.2]; grind

theorem Memory.mem_write (m : Memory w) (a : Nat) (v : BitVec w) (x : Nat × BitVec w)
    (h : x ∈ m.write a v) : x = (a, v) ∨ x ∈ m := by
  induction m with
  | nil => simpa [Memory.write] using h
  | cons y rest ih =>
    obtain ⟨k, z⟩ := y
    simp only [Memory.write] at h
    split at h
    · simpa using h
    · split at h
      · rcases List.mem_cons.mp h with h | h
        · exact .inl h
        · exact .inr (List.mem_cons_of_mem _ h)
      · rcases List.mem_cons.mp h with h | h
        · exact .inr (h ▸ List.mem_cons_self)
        · exact (ih h).imp id (List.mem_cons_of_mem _)

theorem Memory.wf_write (m : Memory w) (a : Nat) (v : BitVec w) (h : m.wf) : (m.write a v).wf := by
  induction m with
  | nil => simp [Memory.write, Memory.wf]
  | cons y rest ih =>
    obtain ⟨k, z⟩ := y
    have hr := List.pairwise_cons.mp h
    simp only [Memory.write]
    split
    · refine List.pairwise_cons.mpr ⟨?_, h⟩
      intro x hx
      rcases List.mem_cons.mp hx with rfl | hx
      · assumption
      · exact Nat.lt_trans (by assumption) (hr.1 x hx)
    · split
      · refine List.pairwise_cons.mpr ⟨?_, hr.2⟩
        intro x hx
        have := hr.1 x hx
        simp_all
      · refine List.pairwise_cons.mpr ⟨?_, ih hr.2⟩
        intro x hx
        rcases Memory.mem_write _ _ _ _ hx with rfl | hx
        · simp only; omega
        · exact hr.1 x hx

theorem memoryOk_write {m : Memory w} {size a : Nat} (v : BitVec w) (h : memoryOk m size) (ha : a < size) :
    memoryOk (m.write a v) size := by
  refine ⟨Memory.wf_write m a v h.1, fun x hx => ?_⟩
  rcases Memory.mem_write _ _ _ _ hx with rfl | hx
  · exact ha
  · exact h.2 x hx

theorem memoryOk_writeAll {m : Memory w} {size : Nat} (vs : List (BitVec w)) (a : Nat) (h : memoryOk m size)
    (ha : a + vs.length ≤ size) : memoryOk (m.writeAll a vs) size := by
  induction vs generalizing m a with
  | nil => exact h
  | cons v vs ih =>
    simp only [List.length_cons] at ha
    exact ih (a + 1) (memoryOk_write v h (by omega)) (by omega)

theorem Memory.wf_writeAll (m : Memory w) (a : Nat) (vs : List (BitVec w)) (h : m.wf) : (m.writeAll a vs).wf := by
  induction vs generalizing m a with
  | nil => exact h
  | cons v vs ih => exact ih _ _ (Memory.wf_write m a v h)

theorem Memory.read_writeAll (m : Memory w) (a b : Nat) (vs : List (BitVec w)) (h : m.wf) :
    (m.writeAll a vs).read b = if a ≤ b ∧ b < a + vs.length then vs[b - a]? else m.read b := by
  induction vs generalizing m a with
  | nil => simp [Memory.writeAll]
  | cons v vs ih =>
    rw [Memory.writeAll, ih _ _ (Memory.wf_write m a v h), Memory.read_write m a b v h]
    simp only [List.length_cons]
    by_cases hb : b = a
    · subst hb; simp
    · simp only [if_neg hb]
      by_cases h1 : a + 1 ≤ b ∧ b < a + 1 + vs.length
      · rw [if_pos h1, if_pos (by omega), show b - a = (b - (a + 1)) + 1 by omega, List.getElem?_cons_succ]
      · rw [if_neg h1, if_neg (by omega)]

theorem Memory.get_write (free : Nat → BitVec w) (m : Memory w) (a b : Nat) (v : BitVec w) (h : m.wf) :
    (m.write a v).get free b = if b = a then v else m.get free b := by
  simp only [Memory.get, Memory.read_write m a b v h]
  split <;> rfl

theorem Memory.get_writeAll (free : Nat → BitVec w) (m : Memory w) (a b : Nat) (vs : List (BitVec w)) (h : m.wf) :
    (m.writeAll a vs).get free b =
      if a ≤ b ∧ b < a + vs.length then vs.getD (b - a) (free b) else m.get free b := by
  simp only [Memory.get, Memory.read_writeAll m a b vs h]
  split <;> simp

/-- Memories in canonical form that hold the same are the same list. -/
theorem Memory.ext_read {m m' : Memory w} (h : m.wf) (h' : m'.wf) (hr : ∀ a, m.read a = m'.read a) : m = m' := by
  have none_of_lt : ∀ (l : Memory w) (a : Nat), (∀ x ∈ l, a < x.1) → l.read a = none := by
    intro l a hl
    induction l with
    | nil => rfl
    | cons x rest ih =>
      obtain ⟨k, v⟩ := x
      have := hl (k, v) List.mem_cons_self
      simp only [Memory.read]
      rw [if_neg (by simp only at this; omega)]
      exact ih fun y hy => hl y (List.mem_cons_of_mem _ hy)
  induction m generalizing m' with
  | nil =>
    cases m' with
    | nil => rfl
    | cons y _ => have := hr y.1; simp [Memory.read] at this
  | cons x rest ih =>
    obtain ⟨k, v⟩ := x
    have hp := List.pairwise_cons.mp h
    cases m' with
    | nil => have := hr k; simp [Memory.read] at this
    | cons y rest' =>
      obtain ⟨k', v'⟩ := y
      have hp' := List.pairwise_cons.mp h'
      have hk : k = k' := by
        rcases Nat.lt_trichotomy k k' with hlt | heq | hgt
        · have e := hr k
          rw [none_of_lt ((k', v') :: rest') k (by
            intro z hz
            rcases List.mem_cons.mp hz with rfl | hz
            · exact hlt
            · exact Nat.lt_trans hlt (hp'.1 z hz))] at e
          simp [Memory.read] at e
        · exact heq
        · have e := hr k'
          rw [none_of_lt ((k, v) :: rest) k' (by
            intro z hz
            rcases List.mem_cons.mp hz with rfl | hz
            · exact hgt
            · exact Nat.lt_trans hgt (hp.1 z hz))] at e
          simp [Memory.read] at e
      subst hk
      have hv : v = v' := by have := hr k; simpa [Memory.read] using this
      subst hv
      rw [ih hp.2 hp'.2 fun a => ?_]
      by_cases ha : k = a
      · subst ha
        rw [none_of_lt rest k hp.1, none_of_lt rest' k hp'.1]
      · have := hr a; simpa [Memory.read, ha] using this

end Sys2Proof.Machine
end

