-- ==== Sys2Proof/Laws/Embed.lean ====
section
/-! SUPPORT. What an embed pass has done after any number of its steps (R148, R149, R152). -/

namespace Sys2Proof.Machine

theorem embedLoop_succ (s : State) (n : Nat) (r : EmbedRun) :
    embedLoop s (n + 1) r = embedStep s (embedLoop s n r) := by
  induction n generalizing r with
  | zero => rfl
  | succ n ih => rw [embedLoop, ih]; rfl

/-- The start of an embed pass in a state. -/
def embedStart (s : State) : EmbedRun := { cur := 0, cursor := Cursor.start, pix := s.pix }

/-- What an embed pass that started in `s` has done after `k` pixels: the cursor stands at pixel `k`, the serialiser
holds the byte it is in, each visited pixel carries its frame bit, and no other word has been written. -/
structure EmbedDone (s : State) (k : Nat) (r : EmbedRun) : Prop where
  cursor : r.cursor = cursorAfter s.grid k
  serialiser : k % 8 ≠ 0 → r.cur = s.frmAt (k / 8)
  wf : r.pix.wf
  visited : ∀ j, j < k → r.pix.read (s.grid.addrOf j) =
    some (setDB (s.pixAt (s.grid.addrOf j)) (frameBit s.frmAt j))
  unvisited : ∀ a, (∀ j, j < k → s.grid.addrOf j ≠ a) → r.pix.read a = s.pix.read a

theorem embedDone_start (s : State) (h : s.pix.wf) : EmbedDone s 0 (embedStart s) where
  cursor := (cursorAfter_zero _).symm
  serialiser := fun h => absurd rfl h
  wf := h
  visited := fun _ h => absurd h (Nat.not_lt_zero _)
  unvisited := fun _ _ => rfl

theorem embedDone_step {s : State} {k : Nat} {r : EmbedRun} (hk : k < s.grid.pixels) (d : EmbedDone s k r) :
    EmbedDone s (k + 1) (embedStep s r) := by
  have ha : s.grid.pixAddr r.cursor.xpos.toNat r.cursor.ypos.toNat = s.grid.addrOf k := by
    rw [d.cursor, pixAddr_cursorAfter hk]
  have hi : r.cursor.biti.toNat = k % 8 := by rw [d.cursor, cursorAfter_biti]
  have hz : r.cursor.biti = 0 ↔ k % 8 = 0 := by rw [d.cursor]; exact cursorAfter_biti_eq _ k 0 (by omega)
  have hc : (if r.cursor.biti = 0 then s.frmAt r.cursor.bidx.toNat else r.cur) = s.frmAt (k / 8) := by
    split
    · rw [d.cursor, cursorAfter_bidx (Nat.le_of_lt hk)]
    · rename_i h; exact d.serialiser fun h0 => h (hz.mpr h0)
  have hfresh : ∀ j, j < k → s.grid.addrOf j ≠ s.grid.addrOf k := fun j hj e =>
    absurd (addrOf_inj (Nat.lt_trans hj hk) hk e) (Nat.ne_of_lt hj)
  have hold : Memory.get (Config.unwrittenPix s.resets) r.pix (s.grid.addrOf k) = s.pixAt (s.grid.addrOf k) := by
    simp only [State.pixAt, Memory.get, d.unvisited _ hfresh]
  have hpix : (embedStep s r).pix =
      r.pix.write (s.grid.addrOf k) (setDB (s.pixAt (s.grid.addrOf k)) (frameBit s.frmAt k)) := by
    simp only [embedStep, ha, hc, hi, hold, frameBit]
  constructor
  · simp only [embedStep, d.cursor]
    exact cursorAfter_succ hk
  · intro hk1
    have : (k + 1) / 8 = k / 8 := by omega
    simp only [embedStep, hc, this]
  · rw [hpix]; exact Memory.wf_write _ _ _ d.wf
  · intro j hj
    rw [hpix, Memory.read_write _ _ _ _ d.wf]
    by_cases e : j = k
    · subst e; rw [if_pos rfl]
    · rw [if_neg (hfresh j (by omega)), d.visited j (by omega)]
  · intro a hn
    rw [hpix, Memory.read_write _ _ _ _ d.wf, if_neg (hn k (by omega)).symm]
    exact d.unvisited a fun j hj => hn j (by omega)

/-- The whole of an embed pass: after `k` steps, `k` pixels are done. -/
theorem embedLoop_done {s : State} (hw : s.pix.wf) {k : Nat} (hk : k ≤ s.grid.pixels) :
    EmbedDone s k (embedLoop s k (embedStart s)) := by
  induction k with
  | zero => exact embedDone_start s hw
  | succ k ih => rw [embedLoop_succ]; exact embedDone_step hk (ih (Nat.le_of_lt hk))

/-- The cursor of an embed pass does not depend on what the memories hold. -/
theorem embedLoop_cursor (s : State) {k : Nat} (hk : k ≤ s.grid.pixels) :
    (embedLoop s k (embedStart s)).cursor = cursorAfter s.grid k := by
  induction k with
  | zero => exact (cursorAfter_zero _).symm
  | succ k ih =>
    rw [embedLoop_succ]
    simp only [embedStep, ih (Nat.le_of_lt hk)]
    exact cursorAfter_succ hk

theorem embedLoop_memoryOk {s : State} {size : Nat} (h : memoryOk s.pix size) {k : Nat} (hk : k ≤ s.grid.pixels)
    (hs : k = 0 ∨ s.grid.pixels ≤ size) : memoryOk (embedLoop s k (embedStart s)).pix size := by
  induction k with
  | zero => exact h
  | succ k ih =>
    have d := embedLoop_done h.1 (Nat.le_of_lt hk)
    rw [embedLoop_succ]
    have hs : s.grid.pixels ≤ size := hs.resolve_left (Nat.succ_ne_zero k)
    refine memoryOk_write _ (ih (Nat.le_of_lt hk) (.inr hs)) ?_
    rw [d.cursor, pixAddr_cursorAfter hk]
    exact Nat.lt_of_lt_of_le (addrOf_lt hk) hs

end Sys2Proof.Machine
end

