-- ==== Sys2Proof/Laws/Extract.lean ====
section
/-! SUPPORT. What an extract pass has done after any number of its steps (R153), and how its loop ends (R155, R158). -/

namespace Sys2Proof.Machine

/-- What an extract pass that started in `s` has done after `k` pixels: the cursor stands at pixel `k`, `acc` holds the
bits of the byte it is in, FRM holds the assembled bytes that have a place in it, and nothing else has been written. -/
structure ExtractDone (s : State) (k : Nat) (r : ExtractRun) : Prop where
  cursor : r.cursor = cursorAfter s.grid k
  assembling : ∀ i, i < 8 → r.acc.getLsbD i = (decide (i < k % 8) && pixelBit s (8 * (k / 8) + i))
  wf : r.frm.wf
  stored : ∀ j, r.frm.read j =
    if j < k / 8 ∧ j < s.caps.frmBytes then some (assembledByte s j) else s.frm.read j

/-- The start of an extract pass in a state. -/
def extractStart (s : State) : ExtractRun := { acc := 0, hdr := none, cursor := Cursor.start, frm := s.frm }

theorem extractDone_start (s : State) (h : s.frm.wf) : ExtractDone s 0 (extractStart s) where
  cursor := (cursorAfter_zero _).symm
  assembling := fun i _ => by simp [extractStart]
  wf := h
  stored := fun j => by simp [extractStart]

theorem ExtractDone.setHdr {s : State} {k : Nat} {r : ExtractRun} (d : ExtractDone s k r) (h : Option Header) :
    ExtractDone s k { r with hdr := h } := ⟨d.cursor, d.assembling, d.wf, d.stored⟩

theorem extractDone_step {s : State} {k : Nat} {r : ExtractRun} (hk : k < s.grid.pixels) (d : ExtractDone s k r) :
    ExtractDone s (k + 1) (extractStep s r) := by
  have ha : s.grid.pixAddr r.cursor.xpos.toNat r.cursor.ypos.toNat = s.grid.addrOf k := by
    rw [d.cursor, pixAddr_cursorAfter hk]
  have hi : r.cursor.biti.toNat = k % 8 := by rw [d.cursor, cursorAfter_biti]
  have hb : r.cursor.bidx.toNat = k / 8 := by rw [d.cursor, cursorAfter_bidx (Nat.le_of_lt hk)]
  have h7 : r.cursor.biti = 7 ↔ k % 8 = 7 := by rw [d.cursor]; exact cursorAfter_biti_eq _ k 7 (by omega)
  have hm : (r.cursor.advanceRaster s.height).advanceBit = cursorAfter s.grid (k + 1) := by
    rw [d.cursor]; exact cursorAfter_succ hk
  have hacc : ∀ i, i < 8 → (setBit r.acc (k % 8) (pixelBit s k)).getLsbD i =
      (decide (i < k % 8 + 1) && pixelBit s (8 * (k / 8) + i)) := by
    intro i hi8
    rw [getLsbD_setBit _ _ _ _ (by omega) hi8, d.assembling i hi8]
    by_cases e : i = k % 8
    · subst e
      rw [if_pos rfl, show 8 * (k / 8) + k % 8 = k by omega]
      simp
    · rw [if_neg e]
      have : decide (i < k % 8) = decide (i < k % 8 + 1) := by
        rw [decide_eq_decide]; omega
      rw [this]
  unfold extractStep
  simp only [ha, hi, hb, hm]
  split
  · rename_i e
    have e7 := h7.mp e
    have hbyte : setBit r.acc (k % 8) (getDB (s.pixAt (s.grid.addrOf k))) = assembledByte s (k / 8) := by
      refine byte_ext fun i hi8 => ?_
      rw [getLsbD_assembledByte s _ _ hi8]
      have := hacc i hi8
      rw [e7, decide_eq_true (by omega), Bool.true_and] at this
      rw [e7]
      exact this
    have hd : (k + 1) / 8 = k / 8 + 1 := by omega
    constructor
    · rfl
    · intro i _
      have : (k + 1) % 8 = 0 := by omega
      simp [this]
    · simp only; split
      · exact Memory.wf_write _ _ _ d.wf
      · exact d.wf
    · intro j
      simp only [hd, hbyte]
      split
      · rename_i hroom
        rw [Memory.read_write _ _ _ _ d.wf, d.stored j]
        grind
      · rename_i hroom
        rw [d.stored j]
        grind
  · rename_i e
    have e7 : k % 8 ≠ 7 := fun h => e (h7.mpr h)
    have hd : (k + 1) / 8 = k / 8 := by omega
    have hr : (k + 1) % 8 = k % 8 + 1 := by omega
    constructor
    · rfl
    · intro i hi8
      rw [hr, hd]
      exact hacc i hi8
    · exact d.wf
    · intro j; rw [hd]; exact d.stored j

@[simp] theorem extractStep_hdr (s : State) (r : ExtractRun) : (extractStep s r).hdr = r.hdr := by
  unfold extractStep; simp only; split <;> rfl

theorem extractStep_memoryOk (s : State) (r : ExtractRun) (h : memoryOk r.frm s.caps.frmBytes) :
    memoryOk (extractStep s r).frm s.caps.frmBytes := by
  unfold extractStep
  simp only
  split
  · simp only; split
    · exact memoryOk_write _ h (by assumption)
    · exact h
  · exact h

/-- How many pixels a pass visits whose header (if decoded) is `hdr`. -/
def extractTarget (m : Mode) : Option Header → Nat
  | some h => 8 * h.total
  | none => 8 * headerSize m

theorem extractTurn_pixel {m : Mode} {s : State} {k : Nat} {r : ExtractRun} (hk : k ≤ s.grid.pixels)
    (d : ExtractDone s k r) (h : k < extractTarget m r.hdr) : extractTurn m s s.grid.pixels r = .pixel r := by
  have hb : r.cursor.bidx.toNat = k / 8 := by rw [d.cursor, cursorAfter_bidx hk]
  unfold extractTurn
  rw [hb]
  cases e : r.hdr with
  | none => simp only [e, extractTarget] at h ⊢; rw [if_neg (by omega)]
  | some hd => simp only [e, extractTarget] at h ⊢; rw [if_neg (by omega)]

/-- Steps before the target: the loop goes from pixel `k` to pixel `k + n` with `n` steps. -/
theorem extractLoop_advance (m : Mode) (s : State) (n : Nat) {k : Nat} {r : ExtractRun} (d : ExtractDone s k r)
    (hn : k + n ≤ s.grid.pixels) (ht : k + n ≤ extractTarget m r.hdr) :
    ∃ r', ExtractDone s (k + n) r' ∧ r'.hdr = r.hdr ∧
      extractLoop m s s.grid.pixels (s.grid.pixels - k) r =
        extractLoop m s s.grid.pixels (s.grid.pixels - (k + n)) r' := by
  induction n generalizing k r with
  | zero => exact ⟨r, d, rfl, rfl⟩
  | succ n ih =>
    have hk : k < s.grid.pixels := by omega
    obtain ⟨r', d', hh, e⟩ := ih (extractDone_step hk d) (by omega) (by rw [extractStep_hdr]; omega)
    refine ⟨r', by rw [show k + (n + 1) = k + 1 + n by omega]; exact d', by rw [hh, extractStep_hdr], ?_⟩
    rw [show k + (n + 1) = k + 1 + n by omega, ← e, show s.grid.pixels - k = (s.grid.pixels - (k + 1)) + 1 by omega]
    rw [extractLoop, extractTurn_pixel (Nat.le_of_lt hk) d (by omega)]

/-- The grid ends before the target: TruncatedPayload (R155). -/
theorem extractLoop_truncated (m : Mode) (s : State) {k : Nat} {r : ExtractRun} (d : ExtractDone s k r)
    (hk : k ≤ s.grid.pixels) (ht : s.grid.pixels < extractTarget m r.hdr) :
    ∃ r', ExtractDone s s.grid.pixels r' ∧ r'.hdr = r.hdr ∧
      extractLoop m s s.grid.pixels (s.grid.pixels - k) r =
        .raises .truncatedPayload (BitVec.ofNat 64 r.declared) r' := by
  obtain ⟨r', d', hh, e⟩ := extractLoop_advance m s (s.grid.pixels - k) d (by omega) (by omega)
  rw [show k + (s.grid.pixels - k) = s.grid.pixels by omega] at d' e
  refine ⟨r', d', hh, ?_⟩
  rw [e, Nat.sub_self, extractLoop, extractTurn_pixel (Nat.le_refl _) d' (by rw [hh]; exact ht)]
  simp only [ExtractRun.declared, hh]

/-- The whole frame is there: the loop ends (R155). -/
theorem extractLoop_complete (m : Mode) (s : State) {k : Nat} {r : ExtractRun} {hd : Header} (d : ExtractDone s k r)
    (hh : r.hdr = some hd) (hk : k ≤ 8 * hd.total) (ht : 8 * hd.total ≤ s.grid.pixels) :
    ∃ r', ExtractDone s (8 * hd.total) r' ∧ r'.hdr = some hd ∧
      extractLoop m s s.grid.pixels (s.grid.pixels - k) r = .complete hd r' := by
  obtain ⟨r', d', hh', e⟩ := extractLoop_advance m s (8 * hd.total - k) d (by omega) (by rw [hh, extractTarget]; omega)
  rw [show k + (8 * hd.total - k) = 8 * hd.total by omega] at d' e
  refine ⟨r', d', by rw [hh', hh], ?_⟩
  have hb : r'.cursor.bidx.toNat = hd.total := by rw [d'.cursor, cursorAfter_bidx ht]; omega
  rw [e]
  unfold extractLoop
  simp only [extractTurn, hh', hh, hb, if_true]

/-- FRM as it stands after the header has been read decodes as the assembled bytes do. -/
theorem hdrDecode_done (m : Mode) (s : State) {r : ExtractRun} (d : ExtractDone s (8 * headerSize m) r)
    (hf : headerSize m ≤ s.caps.frmBytes) :
    hdrDecode m (Memory.get (Config.unwrittenFrm s.resets) r.frm) = hdrDecode m (assembledByte s) := by
  refine hdrDecode_congr m fun j hj => ?_
  simp only [Memory.get, d.stored j, Nat.mul_div_cancel_left _ (show 0 < 8 by omega)]
  rw [if_pos ⟨hj, by omega⟩]
  rfl

/-- What the loop of R155 comes to, from its start: the rows 2 to 5 of R158, and the whole frame (rows 6 and 7). -/
inductive ExtractEnds (m : Mode) (s : State) : ExtractStop → Prop
  /-- Row 2: the grid ends before the header. -/
  | noHeader (r : ExtractRun) (hN : s.grid.pixels < 8 * headerSize m) (d : ExtractDone s s.grid.pixels r) :
      ExtractEnds m s (.raises .truncatedPayload 0 r)
  /-- Row 3: the magic is not there. -/
  | badMagic (r : ExtractRun) (found : Nat) (hN : 8 * headerSize m ≤ s.grid.pixels)
      (hh : hdrDecode m (assembledByte s) = .magicBad found) (d : ExtractDone s (8 * headerSize m) r) :
      ExtractEnds m s (.raises .magicMismatch (BitVec.ofNat 64 found) r)
  /-- Row 4: the grid ends before the declared total. -/
  | truncated (r : ExtractRun) (hd : Header) (hN : 8 * headerSize m ≤ s.grid.pixels)
      (hh : hdrDecode m (assembledByte s) = .ok hd) (ht : s.grid.pixels < 8 * hd.total)
      (d : ExtractDone s s.grid.pixels r) :
      ExtractEnds m s (.raises .truncatedPayload (BitVec.ofNat 64 hd.total) r)
  /-- Row 5: the frame does not fit FRM. -/
  | noRoom (r : ExtractRun) (hd : Header) (hN : 8 * headerSize m ≤ s.grid.pixels)
      (hh : hdrDecode m (assembledByte s) = .ok hd) (ht : 8 * hd.total ≤ s.grid.pixels)
      (hf : s.caps.frmBytes < hd.total) (d : ExtractDone s (8 * headerSize m) r) :
      ExtractEnds m s (.raises .resourceLimit 2 r)
  /-- Rows 6 and 7: the whole frame. -/
  | whole (r : ExtractRun) (hd : Header) (hN : 8 * headerSize m ≤ s.grid.pixels)
      (hh : hdrDecode m (assembledByte s) = .ok hd) (ht : 8 * hd.total ≤ s.grid.pixels)
      (hf : hd.total ≤ s.caps.frmBytes) (d : ExtractDone s (8 * hd.total) r) :
      ExtractEnds m s (.complete hd r)

/-- The one lemma of the extract loop: how it ends, for every state whose FRM holds a header. -/
theorem extractLoop_ends (m : Mode) (s : State) (hw : s.frm.wf) (hf : 12 ≤ s.caps.frmBytes) :
    ExtractEnds m s (extractLoop m s s.grid.pixels s.grid.pixels (extractStart s)) := by
  have hs12 : headerSize m ≤ 12 := by cases m <;> simp [headerSize]
  have d0 := extractDone_start s hw
  by_cases hN : s.grid.pixels < 8 * headerSize m
  · obtain ⟨r, d, _, e⟩ := extractLoop_truncated m s d0 (Nat.zero_le _) hN
    rw [Nat.sub_zero] at e
    rw [e]
    exact .noHeader r hN d
  · have hN' : 8 * headerSize m ≤ s.grid.pixels := by omega
    obtain ⟨r, d, hh, e⟩ := extractLoop_advance m s (8 * headerSize m) d0 (by omega)
      (by rw [Nat.zero_add]; exact Nat.le_refl _)
    rw [Nat.zero_add] at d e
    rw [Nat.sub_zero] at e
    have hb : r.cursor.bidx.toNat = headerSize m := by rw [d.cursor, cursorAfter_bidx hN']; omega
    have hdec := hdrDecode_done m s d (by omega)
    rw [e]
    have hnone : r.hdr = none := hh
    cases hx : hdrDecode m (assembledByte s) with
    | magicBad found =>
      have : extractTurn m s s.grid.pixels r = .stop (.raises .magicMismatch (BitVec.ofNat 64 found) r) := by
        simp only [extractTurn, hnone, hb, if_true, hdec, hx]
      unfold extractLoop
      rw [this]
      exact .badMagic r found hN' hx d
    | ok hd =>
      have htot := (hdrDecode_ok hx).2.2.1
      by_cases hroom : hd.total > s.caps.frmBytes ∧ s.grid.pixels ≥ 8 * hd.total
      · have : extractTurn m s s.grid.pixels r = .stop (.raises .resourceLimit 2 r) := by
          simp only [extractTurn, hnone, hb, if_true, hdec, hx, if_pos hroom]
        unfold extractLoop
        rw [this]
        exact .noRoom r hd hN' hx hroom.2 hroom.1 d
      · have hgo : extractLoop m s s.grid.pixels (s.grid.pixels - 8 * headerSize m) r =
            extractLoop m s s.grid.pixels (s.grid.pixels - 8 * headerSize m) { r with hdr := some hd } := by
          by_cases ht : headerSize m = hd.total
          · have h1 : extractTurn m s s.grid.pixels r = .stop (.complete hd { r with hdr := some hd }) := by
              simp only [extractTurn, hnone, hb, if_true, hdec, hx, if_neg hroom, if_pos ht]
            have h2 : extractTurn m s s.grid.pixels { r with hdr := some hd } =
                .stop (.complete hd { r with hdr := some hd }) := by
              simp only [extractTurn, hb, if_pos ht]
            unfold extractLoop
            rw [h1, h2]
          · have h1 : extractTurn m s s.grid.pixels r = .pixel { r with hdr := some hd } := by
              simp only [extractTurn, hnone, hb, if_true, hdec, hx, if_neg hroom, if_neg ht]
            have h2 : extractTurn m s s.grid.pixels { r with hdr := some hd } = .pixel { r with hdr := some hd } := by
              simp only [extractTurn, hb, if_neg ht]
            unfold extractLoop
            rw [h1, h2]
        rw [hgo]
        by_cases hT : s.grid.pixels < 8 * hd.total
        · obtain ⟨r', d', _, e'⟩ := extractLoop_truncated m s (d.setHdr (some hd)) hN' hT
          rw [e']
          exact .truncated r' hd hN' hx hT d'
        · obtain ⟨r', d', _, e'⟩ := extractLoop_complete m s (d.setHdr (some hd)) rfl (by omega) (by omega)
          rw [e']
          exact .whole r' hd hN' hx (by omega) (by omega) d'

/-- The state in which a stop leaves the run. -/
def ExtractStop.run : ExtractStop → ExtractRun
  | .complete _ r => r
  | .raises _ _ r => r

/-- The run at the head of a turn. -/
def ExtractTurn.run : ExtractTurn → ExtractRun
  | .pixel r => r
  | .stop e => e.run

theorem extractTurn_frm (m : Mode) (s : State) (pixels : Nat) (r : ExtractRun) :
    (extractTurn m s pixels r).run.frm = r.frm := by
  unfold extractTurn
  repeat' split
  all_goals rfl

theorem extractTurn_cursor (m : Mode) (s : State) (pixels : Nat) (r : ExtractRun) :
    (extractTurn m s pixels r).run.cursor = r.cursor := by
  unfold extractTurn
  repeat' split
  all_goals rfl

theorem extractStep_cursor (s : State) (r : ExtractRun) :
    (extractStep s r).cursor = (r.cursor.advanceRaster s.height).advanceBit := by
  unfold extractStep; simp only; split <;> rfl

/-- The cursor of an extract pass stands at some pixel of the grid or at its end, whatever the memories hold. -/
theorem extractLoop_cursor (m : Mode) (s : State) (pixels left k : Nat) (r : ExtractRun)
    (hc : r.cursor = cursorAfter s.grid k) (hk : k + left ≤ s.grid.pixels) :
    ∃ j, j ≤ s.grid.pixels ∧ (extractLoop m s pixels left r).run.cursor = cursorAfter s.grid j := by
  induction left generalizing k r with
  | zero =>
    have ht := extractTurn_cursor m s pixels r
    unfold extractLoop
    split <;> rename_i e <;> rw [e] at ht
    · exact ⟨k, by omega, ht.trans hc⟩
    · exact ⟨k, by omega, ht.trans hc⟩
  | succ n ih =>
    have ht := extractTurn_cursor m s pixels r
    unfold extractLoop
    split <;> rename_i e <;> rw [e] at ht
    · exact ⟨k, by omega, ht.trans hc⟩
    · refine ih (k + 1) _ ?_ (by omega)
      have hr := ht.trans hc
      simp only [ExtractTurn.run] at hr
      rw [extractStep_cursor, hr]
      exact cursorAfter_succ (by omega)

/-- Whatever happens in the loop, FRM stays in canonical form and within its space. -/
theorem extractLoop_memoryOk (m : Mode) (s : State) (pixels left : Nat) (r : ExtractRun)
    (h : memoryOk r.frm s.caps.frmBytes) :
    memoryOk (extractLoop m s pixels left r).run.frm s.caps.frmBytes := by
  induction left generalizing r with
  | zero =>
    have ht := extractTurn_frm m s pixels r
    unfold extractLoop
    split <;> rename_i e <;> rw [e] at ht
    · exact (congrArg (memoryOk · _) ht).mpr h
    · exact (congrArg (memoryOk · _) ht).mpr h
  | succ n ih =>
    have ht := extractTurn_frm m s pixels r
    unfold extractLoop
    split <;> rename_i e <;> rw [e] at ht
    · exact (congrArg (memoryOk · _) ht).mpr h
    · exact ih _ (extractStep_memoryOk s _ ((congrArg (memoryOk · _) ht).mpr h))

end Sys2Proof.Machine
end

