-- ==== Sys2Proof/Laws/State.lean ====
section
/-! SUPPORT. What each update of the state does to each field: one lemma per field per update, so that no proof
unfolds a record update. -/

namespace Sys2Proof.Machine

/-! ### prologue -/

@[simp] theorem prologue_status (s : State) : (prologue s).status = { busy := true, done := false, np := false, err := 0 } := rfl
@[simp] theorem prologue_ctrl (s : State) : (prologue s).ctrl = s.ctrl := rfl
@[simp] theorem prologue_width (s : State) : (prologue s).width = s.width := rfl
@[simp] theorem prologue_height (s : State) : (prologue s).height = s.height := rfl
@[simp] theorem prologue_plenLo (s : State) : (prologue s).plenLo = s.plenLo := rfl
@[simp] theorem prologue_plenHi (s : State) : (prologue s).plenHi = s.plenHi := rfl
@[simp] theorem prologue_nlenLo (s : State) : (prologue s).nlenLo = s.nlenLo := rfl
@[simp] theorem prologue_nlenHi (s : State) : (prologue s).nlenHi = s.nlenHi := rfl
@[simp] theorem prologue_flen (s : State) : (prologue s).flen = s.flen := rfl
@[simp] theorem prologue_byte (s : State) : (prologue s).byte = s.byte := rfl
@[simp] theorem prologue_bsq (s : State) : (prologue s).bsq = s.bsq := rfl
@[simp] theorem prologue_rnlen (s : State) : (prologue s).rnlen = 0 := rfl
@[simp] theorem prologue_rplen (s : State) : (prologue s).rplen = 0 := rfl
@[simp] theorem prologue_rtotLo (s : State) : (prologue s).rtotLo = 0 := rfl
@[simp] theorem prologue_rtotHi (s : State) : (prologue s).rtotHi = 0 := rfl
@[simp] theorem prologue_einfoLo (s : State) : (prologue s).einfoLo = 0 := rfl
@[simp] theorem prologue_einfoHi (s : State) : (prologue s).einfoHi = 0 := rfl
@[simp] theorem prologue_cursor (s : State) : (prologue s).cursor = s.cursor := rfl
@[simp] theorem prologue_pix (s : State) : (prologue s).pix = s.pix := rfl
@[simp] theorem prologue_frm (s : State) : (prologue s).frm = s.frm := rfl
@[simp] theorem prologue_pay (s : State) : (prologue s).pay = s.pay := rfl
@[simp] theorem prologue_nam (s : State) : (prologue s).nam = s.nam := rfl
@[simp] theorem prologue_cmdw (s : State) : (prologue s).cmdw = s.cmdw := rfl
@[simp] theorem prologue_rst (s : State) : (prologue s).rst = s.rst := rfl
@[simp] theorem prologue_caps (s : State) : (prologue s).caps = s.caps := rfl
@[simp] theorem prologue_resets (s : State) : (prologue s).resets = s.resets := rfl
@[simp] theorem prologue_inputs (s : State) : (prologue s).inputs = s.inputs := rfl
@[simp] theorem prologue_replies (s : State) : (prologue s).replies = s.replies := rfl

/-! ### complete -/

@[simp] theorem complete_status (s : State) : (complete s).status = { s.status with busy := false, done := true } := rfl
@[simp] theorem complete_ctrl (s : State) : (complete s).ctrl = s.ctrl := rfl
@[simp] theorem complete_width (s : State) : (complete s).width = s.width := rfl
@[simp] theorem complete_height (s : State) : (complete s).height = s.height := rfl
@[simp] theorem complete_plenLo (s : State) : (complete s).plenLo = s.plenLo := rfl
@[simp] theorem complete_plenHi (s : State) : (complete s).plenHi = s.plenHi := rfl
@[simp] theorem complete_nlenLo (s : State) : (complete s).nlenLo = s.nlenLo := rfl
@[simp] theorem complete_nlenHi (s : State) : (complete s).nlenHi = s.nlenHi := rfl
@[simp] theorem complete_flen (s : State) : (complete s).flen = s.flen := rfl
@[simp] theorem complete_byte (s : State) : (complete s).byte = s.byte := rfl
@[simp] theorem complete_bsq (s : State) : (complete s).bsq = s.bsq := rfl
@[simp] theorem complete_rnlen (s : State) : (complete s).rnlen = s.rnlen := rfl
@[simp] theorem complete_rplen (s : State) : (complete s).rplen = s.rplen := rfl
@[simp] theorem complete_rtotLo (s : State) : (complete s).rtotLo = s.rtotLo := rfl
@[simp] theorem complete_rtotHi (s : State) : (complete s).rtotHi = s.rtotHi := rfl
@[simp] theorem complete_einfoLo (s : State) : (complete s).einfoLo = s.einfoLo := rfl
@[simp] theorem complete_einfoHi (s : State) : (complete s).einfoHi = s.einfoHi := rfl
@[simp] theorem complete_cursor (s : State) : (complete s).cursor = s.cursor := rfl
@[simp] theorem complete_pix (s : State) : (complete s).pix = s.pix := rfl
@[simp] theorem complete_frm (s : State) : (complete s).frm = s.frm := rfl
@[simp] theorem complete_pay (s : State) : (complete s).pay = s.pay := rfl
@[simp] theorem complete_nam (s : State) : (complete s).nam = s.nam := rfl
@[simp] theorem complete_cmdw (s : State) : (complete s).cmdw = s.cmdw := rfl
@[simp] theorem complete_rst (s : State) : (complete s).rst = s.rst := rfl
@[simp] theorem complete_caps (s : State) : (complete s).caps = s.caps := rfl
@[simp] theorem complete_resets (s : State) : (complete s).resets = s.resets := rfl
@[simp] theorem complete_inputs (s : State) : (complete s).inputs = s.inputs := rfl
@[simp] theorem complete_replies (s : State) : (complete s).replies = s.replies := rfl

/-! ### setEinfo -/

@[simp] theorem setEinfo_status (s : State) (info : BitVec 64) : (s.setEinfo info).status = s.status := rfl
@[simp] theorem setEinfo_ctrl (s : State) (info : BitVec 64) : (s.setEinfo info).ctrl = s.ctrl := rfl
@[simp] theorem setEinfo_width (s : State) (info : BitVec 64) : (s.setEinfo info).width = s.width := rfl
@[simp] theorem setEinfo_height (s : State) (info : BitVec 64) : (s.setEinfo info).height = s.height := rfl
@[simp] theorem setEinfo_plenLo (s : State) (info : BitVec 64) : (s.setEinfo info).plenLo = s.plenLo := rfl
@[simp] theorem setEinfo_plenHi (s : State) (info : BitVec 64) : (s.setEinfo info).plenHi = s.plenHi := rfl
@[simp] theorem setEinfo_nlenLo (s : State) (info : BitVec 64) : (s.setEinfo info).nlenLo = s.nlenLo := rfl
@[simp] theorem setEinfo_nlenHi (s : State) (info : BitVec 64) : (s.setEinfo info).nlenHi = s.nlenHi := rfl
@[simp] theorem setEinfo_flen (s : State) (info : BitVec 64) : (s.setEinfo info).flen = s.flen := rfl
@[simp] theorem setEinfo_byte (s : State) (info : BitVec 64) : (s.setEinfo info).byte = s.byte := rfl
@[simp] theorem setEinfo_bsq (s : State) (info : BitVec 64) : (s.setEinfo info).bsq = s.bsq := rfl
@[simp] theorem setEinfo_rnlen (s : State) (info : BitVec 64) : (s.setEinfo info).rnlen = s.rnlen := rfl
@[simp] theorem setEinfo_rplen (s : State) (info : BitVec 64) : (s.setEinfo info).rplen = s.rplen := rfl
@[simp] theorem setEinfo_rtotLo (s : State) (info : BitVec 64) : (s.setEinfo info).rtotLo = s.rtotLo := rfl
@[simp] theorem setEinfo_rtotHi (s : State) (info : BitVec 64) : (s.setEinfo info).rtotHi = s.rtotHi := rfl
@[simp] theorem setEinfo_einfoLo (s : State) (info : BitVec 64) : (s.setEinfo info).einfoLo = info.extractLsb' 0 32 := rfl
@[simp] theorem setEinfo_einfoHi (s : State) (info : BitVec 64) : (s.setEinfo info).einfoHi = info.extractLsb' 32 32 := rfl
@[simp] theorem setEinfo_cursor (s : State) (info : BitVec 64) : (s.setEinfo info).cursor = s.cursor := rfl
@[simp] theorem setEinfo_pix (s : State) (info : BitVec 64) : (s.setEinfo info).pix = s.pix := rfl
@[simp] theorem setEinfo_frm (s : State) (info : BitVec 64) : (s.setEinfo info).frm = s.frm := rfl
@[simp] theorem setEinfo_pay (s : State) (info : BitVec 64) : (s.setEinfo info).pay = s.pay := rfl
@[simp] theorem setEinfo_nam (s : State) (info : BitVec 64) : (s.setEinfo info).nam = s.nam := rfl
@[simp] theorem setEinfo_cmdw (s : State) (info : BitVec 64) : (s.setEinfo info).cmdw = s.cmdw := rfl
@[simp] theorem setEinfo_rst (s : State) (info : BitVec 64) : (s.setEinfo info).rst = s.rst := rfl
@[simp] theorem setEinfo_caps (s : State) (info : BitVec 64) : (s.setEinfo info).caps = s.caps := rfl
@[simp] theorem setEinfo_resets (s : State) (info : BitVec 64) : (s.setEinfo info).resets = s.resets := rfl
@[simp] theorem setEinfo_inputs (s : State) (info : BitVec 64) : (s.setEinfo info).inputs = s.inputs := rfl
@[simp] theorem setEinfo_replies (s : State) (info : BitVec 64) : (s.setEinfo info).replies = s.replies := rfl

/-! ### setRtot -/

@[simp] theorem setRtot_status (s : State) (total : BitVec 34) : (s.setRtot total).status = s.status := rfl
@[simp] theorem setRtot_ctrl (s : State) (total : BitVec 34) : (s.setRtot total).ctrl = s.ctrl := rfl
@[simp] theorem setRtot_width (s : State) (total : BitVec 34) : (s.setRtot total).width = s.width := rfl
@[simp] theorem setRtot_height (s : State) (total : BitVec 34) : (s.setRtot total).height = s.height := rfl
@[simp] theorem setRtot_plenLo (s : State) (total : BitVec 34) : (s.setRtot total).plenLo = s.plenLo := rfl
@[simp] theorem setRtot_plenHi (s : State) (total : BitVec 34) : (s.setRtot total).plenHi = s.plenHi := rfl
@[simp] theorem setRtot_nlenLo (s : State) (total : BitVec 34) : (s.setRtot total).nlenLo = s.nlenLo := rfl
@[simp] theorem setRtot_nlenHi (s : State) (total : BitVec 34) : (s.setRtot total).nlenHi = s.nlenHi := rfl
@[simp] theorem setRtot_flen (s : State) (total : BitVec 34) : (s.setRtot total).flen = s.flen := rfl
@[simp] theorem setRtot_byte (s : State) (total : BitVec 34) : (s.setRtot total).byte = s.byte := rfl
@[simp] theorem setRtot_bsq (s : State) (total : BitVec 34) : (s.setRtot total).bsq = s.bsq := rfl
@[simp] theorem setRtot_rnlen (s : State) (total : BitVec 34) : (s.setRtot total).rnlen = s.rnlen := rfl
@[simp] theorem setRtot_rplen (s : State) (total : BitVec 34) : (s.setRtot total).rplen = s.rplen := rfl
@[simp] theorem setRtot_rtotLo (s : State) (total : BitVec 34) : (s.setRtot total).rtotLo = total.extractLsb' 0 32 := rfl
@[simp] theorem setRtot_rtotHi (s : State) (total : BitVec 34) : (s.setRtot total).rtotHi = total.extractLsb' 32 2 := rfl
@[simp] theorem setRtot_einfoLo (s : State) (total : BitVec 34) : (s.setRtot total).einfoLo = s.einfoLo := rfl
@[simp] theorem setRtot_einfoHi (s : State) (total : BitVec 34) : (s.setRtot total).einfoHi = s.einfoHi := rfl
@[simp] theorem setRtot_cursor (s : State) (total : BitVec 34) : (s.setRtot total).cursor = s.cursor := rfl
@[simp] theorem setRtot_pix (s : State) (total : BitVec 34) : (s.setRtot total).pix = s.pix := rfl
@[simp] theorem setRtot_frm (s : State) (total : BitVec 34) : (s.setRtot total).frm = s.frm := rfl
@[simp] theorem setRtot_pay (s : State) (total : BitVec 34) : (s.setRtot total).pay = s.pay := rfl
@[simp] theorem setRtot_nam (s : State) (total : BitVec 34) : (s.setRtot total).nam = s.nam := rfl
@[simp] theorem setRtot_cmdw (s : State) (total : BitVec 34) : (s.setRtot total).cmdw = s.cmdw := rfl
@[simp] theorem setRtot_rst (s : State) (total : BitVec 34) : (s.setRtot total).rst = s.rst := rfl
@[simp] theorem setRtot_caps (s : State) (total : BitVec 34) : (s.setRtot total).caps = s.caps := rfl
@[simp] theorem setRtot_resets (s : State) (total : BitVec 34) : (s.setRtot total).resets = s.resets := rfl
@[simp] theorem setRtot_inputs (s : State) (total : BitVec 34) : (s.setRtot total).inputs = s.inputs := rfl
@[simp] theorem setRtot_replies (s : State) (total : BitVec 34) : (s.setRtot total).replies = s.replies := rfl

/-! ### raise -/

@[simp] theorem raise_status (e : ErrorName) (info : BitVec 64) (s : State) : (raise e info s).status = { s.status with busy := false, done := true, err := e.code } := rfl
@[simp] theorem raise_ctrl (e : ErrorName) (info : BitVec 64) (s : State) : (raise e info s).ctrl = s.ctrl := rfl
@[simp] theorem raise_width (e : ErrorName) (info : BitVec 64) (s : State) : (raise e info s).width = s.width := rfl
@[simp] theorem raise_height (e : ErrorName) (info : BitVec 64) (s : State) : (raise e info s).height = s.height := rfl
@[simp] theorem raise_plenLo (e : ErrorName) (info : BitVec 64) (s : State) : (raise e info s).plenLo = s.plenLo := rfl
@[simp] theorem raise_plenHi (e : ErrorName) (info : BitVec 64) (s : State) : (raise e info s).plenHi = s.plenHi := rfl
@[simp] theorem raise_nlenLo (e : ErrorName) (info : BitVec 64) (s : State) : (raise e info s).nlenLo = s.nlenLo := rfl
@[simp] theorem raise_nlenHi (e : ErrorName) (info : BitVec 64) (s : State) : (raise e info s).nlenHi = s.nlenHi := rfl
@[simp] theorem raise_flen (e : ErrorName) (info : BitVec 64) (s : State) : (raise e info s).flen = s.flen := rfl
@[simp] theorem raise_byte (e : ErrorName) (info : BitVec 64) (s : State) : (raise e info s).byte = s.byte := rfl
@[simp] theorem raise_bsq (e : ErrorName) (info : BitVec 64) (s : State) : (raise e info s).bsq = s.bsq := rfl
@[simp] theorem raise_rnlen (e : ErrorName) (info : BitVec 64) (s : State) : (raise e info s).rnlen = s.rnlen := rfl
@[simp] theorem raise_rplen (e : ErrorName) (info : BitVec 64) (s : State) : (raise e info s).rplen = s.rplen := rfl
@[simp] theorem raise_rtotLo (e : ErrorName) (info : BitVec 64) (s : State) : (raise e info s).rtotLo = s.rtotLo := rfl
@[simp] theorem raise_rtotHi (e : ErrorName) (info : BitVec 64) (s : State) : (raise e info s).rtotHi = s.rtotHi := rfl
@[simp] theorem raise_einfoLo (e : ErrorName) (info : BitVec 64) (s : State) : (raise e info s).einfoLo = info.extractLsb' 0 32 := rfl
@[simp] theorem raise_einfoHi (e : ErrorName) (info : BitVec 64) (s : State) : (raise e info s).einfoHi = info.extractLsb' 32 32 := rfl
@[simp] theorem raise_cursor (e : ErrorName) (info : BitVec 64) (s : State) : (raise e info s).cursor = s.cursor := rfl
@[simp] theorem raise_pix (e : ErrorName) (info : BitVec 64) (s : State) : (raise e info s).pix = s.pix := rfl
@[simp] theorem raise_frm (e : ErrorName) (info : BitVec 64) (s : State) : (raise e info s).frm = s.frm := rfl
@[simp] theorem raise_pay (e : ErrorName) (info : BitVec 64) (s : State) : (raise e info s).pay = s.pay := rfl
@[simp] theorem raise_nam (e : ErrorName) (info : BitVec 64) (s : State) : (raise e info s).nam = s.nam := rfl
@[simp] theorem raise_cmdw (e : ErrorName) (info : BitVec 64) (s : State) : (raise e info s).cmdw = s.cmdw := rfl
@[simp] theorem raise_rst (e : ErrorName) (info : BitVec 64) (s : State) : (raise e info s).rst = s.rst := rfl
@[simp] theorem raise_caps (e : ErrorName) (info : BitVec 64) (s : State) : (raise e info s).caps = s.caps := rfl
@[simp] theorem raise_resets (e : ErrorName) (info : BitVec 64) (s : State) : (raise e info s).resets = s.resets := rfl
@[simp] theorem raise_inputs (e : ErrorName) (info : BitVec 64) (s : State) : (raise e info s).inputs = s.inputs := rfl
@[simp] theorem raise_replies (e : ErrorName) (info : BitVec 64) (s : State) : (raise e info s).replies = s.replies := rfl

/-! ### setResults -/

@[simp] theorem setResults_status (m : Mode) (n p total : Nat) (s : State) : (setResults m n p total s).status = { s.status with np := decide (m = .file ∧ n > 0) } := rfl
@[simp] theorem setResults_ctrl (m : Mode) (n p total : Nat) (s : State) : (setResults m n p total s).ctrl = s.ctrl := rfl
@[simp] theorem setResults_width (m : Mode) (n p total : Nat) (s : State) : (setResults m n p total s).width = s.width := rfl
@[simp] theorem setResults_height (m : Mode) (n p total : Nat) (s : State) : (setResults m n p total s).height = s.height := rfl
@[simp] theorem setResults_plenLo (m : Mode) (n p total : Nat) (s : State) : (setResults m n p total s).plenLo = s.plenLo := rfl
@[simp] theorem setResults_plenHi (m : Mode) (n p total : Nat) (s : State) : (setResults m n p total s).plenHi = s.plenHi := rfl
@[simp] theorem setResults_nlenLo (m : Mode) (n p total : Nat) (s : State) : (setResults m n p total s).nlenLo = s.nlenLo := rfl
@[simp] theorem setResults_nlenHi (m : Mode) (n p total : Nat) (s : State) : (setResults m n p total s).nlenHi = s.nlenHi := rfl
@[simp] theorem setResults_flen (m : Mode) (n p total : Nat) (s : State) : (setResults m n p total s).flen = s.flen := rfl
@[simp] theorem setResults_byte (m : Mode) (n p total : Nat) (s : State) : (setResults m n p total s).byte = s.byte := rfl
@[simp] theorem setResults_bsq (m : Mode) (n p total : Nat) (s : State) : (setResults m n p total s).bsq = s.bsq := rfl
@[simp] theorem setResults_rnlen (m : Mode) (n p total : Nat) (s : State) : (setResults m n p total s).rnlen = BitVec.ofNat 32 n := rfl
@[simp] theorem setResults_rplen (m : Mode) (n p total : Nat) (s : State) : (setResults m n p total s).rplen = BitVec.ofNat 32 p := rfl
@[simp] theorem setResults_rtotLo (m : Mode) (n p total : Nat) (s : State) : (setResults m n p total s).rtotLo = (BitVec.ofNat 34 total).extractLsb' 0 32 := rfl
@[simp] theorem setResults_rtotHi (m : Mode) (n p total : Nat) (s : State) : (setResults m n p total s).rtotHi = (BitVec.ofNat 34 total).extractLsb' 32 2 := rfl
@[simp] theorem setResults_einfoLo (m : Mode) (n p total : Nat) (s : State) : (setResults m n p total s).einfoLo = s.einfoLo := rfl
@[simp] theorem setResults_einfoHi (m : Mode) (n p total : Nat) (s : State) : (setResults m n p total s).einfoHi = s.einfoHi := rfl
@[simp] theorem setResults_cursor (m : Mode) (n p total : Nat) (s : State) : (setResults m n p total s).cursor = s.cursor := rfl
@[simp] theorem setResults_pix (m : Mode) (n p total : Nat) (s : State) : (setResults m n p total s).pix = s.pix := rfl
@[simp] theorem setResults_frm (m : Mode) (n p total : Nat) (s : State) : (setResults m n p total s).frm = s.frm := rfl
@[simp] theorem setResults_pay (m : Mode) (n p total : Nat) (s : State) : (setResults m n p total s).pay = s.pay := rfl
@[simp] theorem setResults_nam (m : Mode) (n p total : Nat) (s : State) : (setResults m n p total s).nam = s.nam := rfl
@[simp] theorem setResults_cmdw (m : Mode) (n p total : Nat) (s : State) : (setResults m n p total s).cmdw = s.cmdw := rfl
@[simp] theorem setResults_rst (m : Mode) (n p total : Nat) (s : State) : (setResults m n p total s).rst = s.rst := rfl
@[simp] theorem setResults_caps (m : Mode) (n p total : Nat) (s : State) : (setResults m n p total s).caps = s.caps := rfl
@[simp] theorem setResults_resets (m : Mode) (n p total : Nat) (s : State) : (setResults m n p total s).resets = s.resets := rfl
@[simp] theorem setResults_inputs (m : Mode) (n p total : Nat) (s : State) : (setResults m n p total s).inputs = s.inputs := rfl
@[simp] theorem setResults_replies (m : Mode) (n p total : Nat) (s : State) : (setResults m n p total s).replies = s.replies := rfl

/-! ### resetCursor -/

@[simp] theorem resetCursor_status (s : State) : (resetCursor s).status = s.status := rfl
@[simp] theorem resetCursor_ctrl (s : State) : (resetCursor s).ctrl = s.ctrl := rfl
@[simp] theorem resetCursor_width (s : State) : (resetCursor s).width = s.width := rfl
@[simp] theorem resetCursor_height (s : State) : (resetCursor s).height = s.height := rfl
@[simp] theorem resetCursor_plenLo (s : State) : (resetCursor s).plenLo = s.plenLo := rfl
@[simp] theorem resetCursor_plenHi (s : State) : (resetCursor s).plenHi = s.plenHi := rfl
@[simp] theorem resetCursor_nlenLo (s : State) : (resetCursor s).nlenLo = s.nlenLo := rfl
@[simp] theorem resetCursor_nlenHi (s : State) : (resetCursor s).nlenHi = s.nlenHi := rfl
@[simp] theorem resetCursor_flen (s : State) : (resetCursor s).flen = s.flen := rfl
@[simp] theorem resetCursor_byte (s : State) : (resetCursor s).byte = s.byte := rfl
@[simp] theorem resetCursor_bsq (s : State) : (resetCursor s).bsq = s.bsq := rfl
@[simp] theorem resetCursor_rnlen (s : State) : (resetCursor s).rnlen = s.rnlen := rfl
@[simp] theorem resetCursor_rplen (s : State) : (resetCursor s).rplen = s.rplen := rfl
@[simp] theorem resetCursor_rtotLo (s : State) : (resetCursor s).rtotLo = s.rtotLo := rfl
@[simp] theorem resetCursor_rtotHi (s : State) : (resetCursor s).rtotHi = s.rtotHi := rfl
@[simp] theorem resetCursor_einfoLo (s : State) : (resetCursor s).einfoLo = s.einfoLo := rfl
@[simp] theorem resetCursor_einfoHi (s : State) : (resetCursor s).einfoHi = s.einfoHi := rfl
@[simp] theorem resetCursor_cursor (s : State) : (resetCursor s).cursor = Cursor.start := rfl
@[simp] theorem resetCursor_pix (s : State) : (resetCursor s).pix = s.pix := rfl
@[simp] theorem resetCursor_frm (s : State) : (resetCursor s).frm = s.frm := rfl
@[simp] theorem resetCursor_pay (s : State) : (resetCursor s).pay = s.pay := rfl
@[simp] theorem resetCursor_nam (s : State) : (resetCursor s).nam = s.nam := rfl
@[simp] theorem resetCursor_cmdw (s : State) : (resetCursor s).cmdw = s.cmdw := rfl
@[simp] theorem resetCursor_rst (s : State) : (resetCursor s).rst = s.rst := rfl
@[simp] theorem resetCursor_caps (s : State) : (resetCursor s).caps = s.caps := rfl
@[simp] theorem resetCursor_resets (s : State) : (resetCursor s).resets = s.resets := rfl
@[simp] theorem resetCursor_inputs (s : State) : (resetCursor s).inputs = s.inputs := rfl
@[simp] theorem resetCursor_replies (s : State) : (resetCursor s).replies = s.replies := rfl

/-! ### acknowledge -/

@[simp] theorem acknowledge_status (v : Word) (s : State) : (acknowledge v s).status = { s.status with done := s.status.done && !v.getLsbD 1 } := rfl
@[simp] theorem acknowledge_ctrl (v : Word) (s : State) : (acknowledge v s).ctrl = s.ctrl := rfl
@[simp] theorem acknowledge_width (v : Word) (s : State) : (acknowledge v s).width = s.width := rfl
@[simp] theorem acknowledge_height (v : Word) (s : State) : (acknowledge v s).height = s.height := rfl
@[simp] theorem acknowledge_plenLo (v : Word) (s : State) : (acknowledge v s).plenLo = s.plenLo := rfl
@[simp] theorem acknowledge_plenHi (v : Word) (s : State) : (acknowledge v s).plenHi = s.plenHi := rfl
@[simp] theorem acknowledge_nlenLo (v : Word) (s : State) : (acknowledge v s).nlenLo = s.nlenLo := rfl
@[simp] theorem acknowledge_nlenHi (v : Word) (s : State) : (acknowledge v s).nlenHi = s.nlenHi := rfl
@[simp] theorem acknowledge_flen (v : Word) (s : State) : (acknowledge v s).flen = s.flen := rfl
@[simp] theorem acknowledge_byte (v : Word) (s : State) : (acknowledge v s).byte = s.byte := rfl
@[simp] theorem acknowledge_bsq (v : Word) (s : State) : (acknowledge v s).bsq = s.bsq := rfl
@[simp] theorem acknowledge_rnlen (v : Word) (s : State) : (acknowledge v s).rnlen = s.rnlen := rfl
@[simp] theorem acknowledge_rplen (v : Word) (s : State) : (acknowledge v s).rplen = s.rplen := rfl
@[simp] theorem acknowledge_rtotLo (v : Word) (s : State) : (acknowledge v s).rtotLo = s.rtotLo := rfl
@[simp] theorem acknowledge_rtotHi (v : Word) (s : State) : (acknowledge v s).rtotHi = s.rtotHi := rfl
@[simp] theorem acknowledge_einfoLo (v : Word) (s : State) : (acknowledge v s).einfoLo = s.einfoLo := rfl
@[simp] theorem acknowledge_einfoHi (v : Word) (s : State) : (acknowledge v s).einfoHi = s.einfoHi := rfl
@[simp] theorem acknowledge_cursor (v : Word) (s : State) : (acknowledge v s).cursor = s.cursor := rfl
@[simp] theorem acknowledge_pix (v : Word) (s : State) : (acknowledge v s).pix = s.pix := rfl
@[simp] theorem acknowledge_frm (v : Word) (s : State) : (acknowledge v s).frm = s.frm := rfl
@[simp] theorem acknowledge_pay (v : Word) (s : State) : (acknowledge v s).pay = s.pay := rfl
@[simp] theorem acknowledge_nam (v : Word) (s : State) : (acknowledge v s).nam = s.nam := rfl
@[simp] theorem acknowledge_cmdw (v : Word) (s : State) : (acknowledge v s).cmdw = s.cmdw := rfl
@[simp] theorem acknowledge_rst (v : Word) (s : State) : (acknowledge v s).rst = s.rst := rfl
@[simp] theorem acknowledge_caps (v : Word) (s : State) : (acknowledge v s).caps = s.caps := rfl
@[simp] theorem acknowledge_resets (v : Word) (s : State) : (acknowledge v s).resets = s.resets := rfl
@[simp] theorem acknowledge_inputs (v : Word) (s : State) : (acknowledge v s).inputs = s.inputs := rfl
@[simp] theorem acknowledge_replies (v : Word) (s : State) : (acknowledge v s).replies = s.replies := rfl

/-! ### startCommand -/

@[simp] theorem startCommand_status (c : Word) (s : State) : (startCommand c s).status = { busy := true, done := false, np := false, err := 0 } := rfl
@[simp] theorem startCommand_ctrl (c : Word) (s : State) : (startCommand c s).ctrl = s.ctrl := rfl
@[simp] theorem startCommand_width (c : Word) (s : State) : (startCommand c s).width = s.width := rfl
@[simp] theorem startCommand_height (c : Word) (s : State) : (startCommand c s).height = s.height := rfl
@[simp] theorem startCommand_plenLo (c : Word) (s : State) : (startCommand c s).plenLo = s.plenLo := rfl
@[simp] theorem startCommand_plenHi (c : Word) (s : State) : (startCommand c s).plenHi = s.plenHi := rfl
@[simp] theorem startCommand_nlenLo (c : Word) (s : State) : (startCommand c s).nlenLo = s.nlenLo := rfl
@[simp] theorem startCommand_nlenHi (c : Word) (s : State) : (startCommand c s).nlenHi = s.nlenHi := rfl
@[simp] theorem startCommand_flen (c : Word) (s : State) : (startCommand c s).flen = s.flen := rfl
@[simp] theorem startCommand_byte (c : Word) (s : State) : (startCommand c s).byte = s.byte := rfl
@[simp] theorem startCommand_bsq (c : Word) (s : State) : (startCommand c s).bsq = s.bsq := rfl
@[simp] theorem startCommand_rnlen (c : Word) (s : State) : (startCommand c s).rnlen = 0 := rfl
@[simp] theorem startCommand_rplen (c : Word) (s : State) : (startCommand c s).rplen = 0 := rfl
@[simp] theorem startCommand_rtotLo (c : Word) (s : State) : (startCommand c s).rtotLo = 0 := rfl
@[simp] theorem startCommand_rtotHi (c : Word) (s : State) : (startCommand c s).rtotHi = 0 := rfl
@[simp] theorem startCommand_einfoLo (c : Word) (s : State) : (startCommand c s).einfoLo = 0 := rfl
@[simp] theorem startCommand_einfoHi (c : Word) (s : State) : (startCommand c s).einfoHi = 0 := rfl
@[simp] theorem startCommand_cursor (c : Word) (s : State) : (startCommand c s).cursor = s.cursor := rfl
@[simp] theorem startCommand_pix (c : Word) (s : State) : (startCommand c s).pix = s.pix := rfl
@[simp] theorem startCommand_frm (c : Word) (s : State) : (startCommand c s).frm = s.frm := rfl
@[simp] theorem startCommand_pay (c : Word) (s : State) : (startCommand c s).pay = s.pay := rfl
@[simp] theorem startCommand_nam (c : Word) (s : State) : (startCommand c s).nam = s.nam := rfl
@[simp] theorem startCommand_cmdw (c : Word) (s : State) : (startCommand c s).cmdw = c := rfl
@[simp] theorem startCommand_rst (c : Word) (s : State) : (startCommand c s).rst = s.rst := rfl
@[simp] theorem startCommand_caps (c : Word) (s : State) : (startCommand c s).caps = s.caps := rfl
@[simp] theorem startCommand_resets (c : Word) (s : State) : (startCommand c s).resets = s.resets := rfl
@[simp] theorem startCommand_inputs (c : Word) (s : State) : (startCommand c s).inputs = s.inputs := rfl
@[simp] theorem startCommand_replies (c : Word) (s : State) : (startCommand c s).replies = s.replies := rfl

/-! ### reply -/

@[simp] theorem reply_status (r : Reply) (s : State) : (reply r s).status = s.status := rfl
@[simp] theorem reply_ctrl (r : Reply) (s : State) : (reply r s).ctrl = s.ctrl := rfl
@[simp] theorem reply_width (r : Reply) (s : State) : (reply r s).width = s.width := rfl
@[simp] theorem reply_height (r : Reply) (s : State) : (reply r s).height = s.height := rfl
@[simp] theorem reply_plenLo (r : Reply) (s : State) : (reply r s).plenLo = s.plenLo := rfl
@[simp] theorem reply_plenHi (r : Reply) (s : State) : (reply r s).plenHi = s.plenHi := rfl
@[simp] theorem reply_nlenLo (r : Reply) (s : State) : (reply r s).nlenLo = s.nlenLo := rfl
@[simp] theorem reply_nlenHi (r : Reply) (s : State) : (reply r s).nlenHi = s.nlenHi := rfl
@[simp] theorem reply_flen (r : Reply) (s : State) : (reply r s).flen = s.flen := rfl
@[simp] theorem reply_byte (r : Reply) (s : State) : (reply r s).byte = s.byte := rfl
@[simp] theorem reply_bsq (r : Reply) (s : State) : (reply r s).bsq = s.bsq := rfl
@[simp] theorem reply_rnlen (r : Reply) (s : State) : (reply r s).rnlen = s.rnlen := rfl
@[simp] theorem reply_rplen (r : Reply) (s : State) : (reply r s).rplen = s.rplen := rfl
@[simp] theorem reply_rtotLo (r : Reply) (s : State) : (reply r s).rtotLo = s.rtotLo := rfl
@[simp] theorem reply_rtotHi (r : Reply) (s : State) : (reply r s).rtotHi = s.rtotHi := rfl
@[simp] theorem reply_einfoLo (r : Reply) (s : State) : (reply r s).einfoLo = s.einfoLo := rfl
@[simp] theorem reply_einfoHi (r : Reply) (s : State) : (reply r s).einfoHi = s.einfoHi := rfl
@[simp] theorem reply_cursor (r : Reply) (s : State) : (reply r s).cursor = s.cursor := rfl
@[simp] theorem reply_pix (r : Reply) (s : State) : (reply r s).pix = s.pix := rfl
@[simp] theorem reply_frm (r : Reply) (s : State) : (reply r s).frm = s.frm := rfl
@[simp] theorem reply_pay (r : Reply) (s : State) : (reply r s).pay = s.pay := rfl
@[simp] theorem reply_nam (r : Reply) (s : State) : (reply r s).nam = s.nam := rfl
@[simp] theorem reply_cmdw (r : Reply) (s : State) : (reply r s).cmdw = s.cmdw := rfl
@[simp] theorem reply_rst (r : Reply) (s : State) : (reply r s).rst = s.rst := rfl
@[simp] theorem reply_caps (r : Reply) (s : State) : (reply r s).caps = s.caps := rfl
@[simp] theorem reply_resets (r : Reply) (s : State) : (reply r s).resets = s.resets := rfl
@[simp] theorem reply_inputs (r : Reply) (s : State) : (reply r s).inputs = s.inputs := rfl
@[simp] theorem reply_replies (r : Reply) (s : State) : (reply r s).replies = r :: s.replies := rfl

/-! ### store -/

@[simp] theorem store_status (r : ExtractRun) (s : State) : (r.store s).status = s.status := rfl
@[simp] theorem store_ctrl (r : ExtractRun) (s : State) : (r.store s).ctrl = s.ctrl := rfl
@[simp] theorem store_width (r : ExtractRun) (s : State) : (r.store s).width = s.width := rfl
@[simp] theorem store_height (r : ExtractRun) (s : State) : (r.store s).height = s.height := rfl
@[simp] theorem store_plenLo (r : ExtractRun) (s : State) : (r.store s).plenLo = s.plenLo := rfl
@[simp] theorem store_plenHi (r : ExtractRun) (s : State) : (r.store s).plenHi = s.plenHi := rfl
@[simp] theorem store_nlenLo (r : ExtractRun) (s : State) : (r.store s).nlenLo = s.nlenLo := rfl
@[simp] theorem store_nlenHi (r : ExtractRun) (s : State) : (r.store s).nlenHi = s.nlenHi := rfl
@[simp] theorem store_flen (r : ExtractRun) (s : State) : (r.store s).flen = s.flen := rfl
@[simp] theorem store_byte (r : ExtractRun) (s : State) : (r.store s).byte = s.byte := rfl
@[simp] theorem store_bsq (r : ExtractRun) (s : State) : (r.store s).bsq = s.bsq := rfl
@[simp] theorem store_rnlen (r : ExtractRun) (s : State) : (r.store s).rnlen = s.rnlen := rfl
@[simp] theorem store_rplen (r : ExtractRun) (s : State) : (r.store s).rplen = s.rplen := rfl
@[simp] theorem store_rtotLo (r : ExtractRun) (s : State) : (r.store s).rtotLo = s.rtotLo := rfl
@[simp] theorem store_rtotHi (r : ExtractRun) (s : State) : (r.store s).rtotHi = s.rtotHi := rfl
@[simp] theorem store_einfoLo (r : ExtractRun) (s : State) : (r.store s).einfoLo = s.einfoLo := rfl
@[simp] theorem store_einfoHi (r : ExtractRun) (s : State) : (r.store s).einfoHi = s.einfoHi := rfl
@[simp] theorem store_cursor (r : ExtractRun) (s : State) : (r.store s).cursor = r.cursor := rfl
@[simp] theorem store_pix (r : ExtractRun) (s : State) : (r.store s).pix = s.pix := rfl
@[simp] theorem store_frm (r : ExtractRun) (s : State) : (r.store s).frm = r.frm := rfl
@[simp] theorem store_pay (r : ExtractRun) (s : State) : (r.store s).pay = s.pay := rfl
@[simp] theorem store_nam (r : ExtractRun) (s : State) : (r.store s).nam = s.nam := rfl
@[simp] theorem store_cmdw (r : ExtractRun) (s : State) : (r.store s).cmdw = s.cmdw := rfl
@[simp] theorem store_rst (r : ExtractRun) (s : State) : (r.store s).rst = s.rst := rfl
@[simp] theorem store_caps (r : ExtractRun) (s : State) : (r.store s).caps = s.caps := rfl
@[simp] theorem store_resets (r : ExtractRun) (s : State) : (r.store s).resets = s.resets := rfl
@[simp] theorem store_inputs (r : ExtractRun) (s : State) : (r.store s).inputs = s.inputs := rfl
@[simp] theorem store_replies (r : ExtractRun) (s : State) : (r.store s).replies = s.replies := rfl

/-! ### latched -/

@[simp] theorem latched_status (c : Word) (s : State) : (latched c s).status = { s.status with busy := true } := rfl
@[simp] theorem latched_ctrl (c : Word) (s : State) : (latched c s).ctrl = s.ctrl := rfl
@[simp] theorem latched_width (c : Word) (s : State) : (latched c s).width = s.width := rfl
@[simp] theorem latched_height (c : Word) (s : State) : (latched c s).height = s.height := rfl
@[simp] theorem latched_plenLo (c : Word) (s : State) : (latched c s).plenLo = s.plenLo := rfl
@[simp] theorem latched_plenHi (c : Word) (s : State) : (latched c s).plenHi = s.plenHi := rfl
@[simp] theorem latched_nlenLo (c : Word) (s : State) : (latched c s).nlenLo = s.nlenLo := rfl
@[simp] theorem latched_nlenHi (c : Word) (s : State) : (latched c s).nlenHi = s.nlenHi := rfl
@[simp] theorem latched_flen (c : Word) (s : State) : (latched c s).flen = s.flen := rfl
@[simp] theorem latched_byte (c : Word) (s : State) : (latched c s).byte = s.byte := rfl
@[simp] theorem latched_bsq (c : Word) (s : State) : (latched c s).bsq = s.bsq := rfl
@[simp] theorem latched_rnlen (c : Word) (s : State) : (latched c s).rnlen = s.rnlen := rfl
@[simp] theorem latched_rplen (c : Word) (s : State) : (latched c s).rplen = s.rplen := rfl
@[simp] theorem latched_rtotLo (c : Word) (s : State) : (latched c s).rtotLo = s.rtotLo := rfl
@[simp] theorem latched_rtotHi (c : Word) (s : State) : (latched c s).rtotHi = s.rtotHi := rfl
@[simp] theorem latched_einfoLo (c : Word) (s : State) : (latched c s).einfoLo = s.einfoLo := rfl
@[simp] theorem latched_einfoHi (c : Word) (s : State) : (latched c s).einfoHi = s.einfoHi := rfl
@[simp] theorem latched_cursor (c : Word) (s : State) : (latched c s).cursor = s.cursor := rfl
@[simp] theorem latched_pix (c : Word) (s : State) : (latched c s).pix = s.pix := rfl
@[simp] theorem latched_frm (c : Word) (s : State) : (latched c s).frm = s.frm := rfl
@[simp] theorem latched_pay (c : Word) (s : State) : (latched c s).pay = s.pay := rfl
@[simp] theorem latched_nam (c : Word) (s : State) : (latched c s).nam = s.nam := rfl
@[simp] theorem latched_cmdw (c : Word) (s : State) : (latched c s).cmdw = c := rfl
@[simp] theorem latched_rst (c : Word) (s : State) : (latched c s).rst = false := rfl
@[simp] theorem latched_caps (c : Word) (s : State) : (latched c s).caps = s.caps := rfl
@[simp] theorem latched_resets (c : Word) (s : State) : (latched c s).resets = s.resets := rfl
@[simp] theorem latched_inputs (c : Word) (s : State) : (latched c s).inputs = settleNext s.inputs := rfl
@[simp] theorem latched_replies (c : Word) (s : State) : (latched c s).replies = s.replies := rfl

/-! ### resetState -/

@[simp] theorem resetState_status (asserted : Bool) (s : State) : (resetState asserted s).status = State.reset.status := rfl
@[simp] theorem resetState_ctrl (asserted : Bool) (s : State) : (resetState asserted s).ctrl = State.reset.ctrl := rfl
@[simp] theorem resetState_width (asserted : Bool) (s : State) : (resetState asserted s).width = State.reset.width := rfl
@[simp] theorem resetState_height (asserted : Bool) (s : State) : (resetState asserted s).height = State.reset.height := rfl
@[simp] theorem resetState_plenLo (asserted : Bool) (s : State) : (resetState asserted s).plenLo = State.reset.plenLo := rfl
@[simp] theorem resetState_plenHi (asserted : Bool) (s : State) : (resetState asserted s).plenHi = State.reset.plenHi := rfl
@[simp] theorem resetState_nlenLo (asserted : Bool) (s : State) : (resetState asserted s).nlenLo = State.reset.nlenLo := rfl
@[simp] theorem resetState_nlenHi (asserted : Bool) (s : State) : (resetState asserted s).nlenHi = State.reset.nlenHi := rfl
@[simp] theorem resetState_flen (asserted : Bool) (s : State) : (resetState asserted s).flen = State.reset.flen := rfl
@[simp] theorem resetState_byte (asserted : Bool) (s : State) : (resetState asserted s).byte = State.reset.byte := rfl
@[simp] theorem resetState_bsq (asserted : Bool) (s : State) : (resetState asserted s).bsq = State.reset.bsq := rfl
@[simp] theorem resetState_rnlen (asserted : Bool) (s : State) : (resetState asserted s).rnlen = State.reset.rnlen := rfl
@[simp] theorem resetState_rplen (asserted : Bool) (s : State) : (resetState asserted s).rplen = State.reset.rplen := rfl
@[simp] theorem resetState_rtotLo (asserted : Bool) (s : State) : (resetState asserted s).rtotLo = State.reset.rtotLo := rfl
@[simp] theorem resetState_rtotHi (asserted : Bool) (s : State) : (resetState asserted s).rtotHi = State.reset.rtotHi := rfl
@[simp] theorem resetState_einfoLo (asserted : Bool) (s : State) : (resetState asserted s).einfoLo = State.reset.einfoLo := rfl
@[simp] theorem resetState_einfoHi (asserted : Bool) (s : State) : (resetState asserted s).einfoHi = State.reset.einfoHi := rfl
@[simp] theorem resetState_cursor (asserted : Bool) (s : State) : (resetState asserted s).cursor = State.reset.cursor := rfl
@[simp] theorem resetState_pix (asserted : Bool) (s : State) : (resetState asserted s).pix = State.reset.pix := rfl
@[simp] theorem resetState_frm (asserted : Bool) (s : State) : (resetState asserted s).frm = State.reset.frm := rfl
@[simp] theorem resetState_pay (asserted : Bool) (s : State) : (resetState asserted s).pay = State.reset.pay := rfl
@[simp] theorem resetState_nam (asserted : Bool) (s : State) : (resetState asserted s).nam = State.reset.nam := rfl
@[simp] theorem resetState_cmdw (asserted : Bool) (s : State) : (resetState asserted s).cmdw = State.reset.cmdw := rfl
@[simp] theorem resetState_rst (asserted : Bool) (s : State) : (resetState asserted s).rst = asserted := rfl
@[simp] theorem resetState_caps (asserted : Bool) (s : State) : (resetState asserted s).caps = s.caps := rfl
@[simp] theorem resetState_resets (asserted : Bool) (s : State) : (resetState asserted s).resets = s.resets + 1 := rfl
@[simp] theorem resetState_inputs (asserted : Bool) (s : State) : (resetState asserted s).inputs = s.inputs := rfl
@[simp] theorem resetState_replies (asserted : Bool) (s : State) : (resetState asserted s).replies = s.replies := rfl

end Sys2Proof.Machine
end

