-- ==== Sys2Proof/Laws/Command.lean ====
section
/-! SUPPORT. What a command comes to: its body between the prologue and the completion, in the closed forms of
Safety.lean. -/

namespace Sys2Proof.Machine

/-- The body of each command. -/
def bodyOf : Instr → State → Body
  | .unpack => unpackBody
  | .pack => packBody
  | .buildF => buildBody .file
  | .buildM => buildBody .message
  | .hdecF => hdecBody .file
  | .hdecM => hdecBody .message
  | .parseF => parseBody .file
  | .parseM => parseBody .message
  | .embed => embedBody
  | .extractF => extractBody .file
  | .extractM => extractBody .message
  | .encodeF => encodeBody .file
  | .encodeM => encodeBody .message

/-- Every command is its body between the prologue and the completion (R96, R97). -/
theorem exec_eq (i : Instr) (s : State) : exec i s = .next (command (bodyOf i) s) := by cases i <;> rfl

theorem exec_build (m : Mode) (s : State) : exec (buildOf m) s = .next (command (buildBody m) s) := by cases m <;> rfl
theorem exec_hdec (m : Mode) (s : State) : exec (hdecOf m) s = .next (command (hdecBody m) s) := by cases m <;> rfl
theorem exec_parse (m : Mode) (s : State) : exec (parseOf m) s = .next (command (parseBody m) s) := by cases m <;> rfl
theorem exec_extract (m : Mode) (s : State) : exec (extractOf m) s = .next (command (extractBody m) s) := by
  cases m <;> rfl
theorem exec_encode (m : Mode) (s : State) : exec (encodeOf m) s = .next (command (encodeBody m) s) := by
  cases m <;> rfl

theorem extract_ofNat_low (x : Nat) : (BitVec.ofNat 64 x).extractLsb' 0 32 = BitVec.ofNat 32 x := by
  apply BitVec.eq_of_toNat_eq
  simp only [BitVec.extractLsb'_toNat, BitVec.toNat_ofNat, Nat.shiftRight_zero]
  omega

theorem extract_ofNat_high (x : Nat) : (BitVec.ofNat 64 x).extractLsb' 32 32 = BitVec.ofNat 32 (x / 2 ^ 32) := by
  apply BitVec.eq_of_toNat_eq
  simp only [BitVec.extractLsb'_toNat, BitVec.toNat_ofNat, Nat.shiftRight_eq_div_pow]
  omega

theorem extract_total_low (x : Nat) : (BitVec.ofNat 34 x).extractLsb' 0 32 = BitVec.ofNat 32 x := by
  apply BitVec.eq_of_toNat_eq
  simp only [BitVec.extractLsb'_toNat, BitVec.toNat_ofNat, Nat.shiftRight_zero]
  omega

theorem extract_total_high (x : Nat) : (BitVec.ofNat 34 x).extractLsb' 32 2 = BitVec.ofNat 2 (x / 2 ^ 32) := by
  apply BitVec.eq_of_toNat_eq
  simp only [BitVec.extractLsb'_toNat, BitVec.toNat_ofNat, Nat.shiftRight_eq_div_pow]
  omega

/-- A raise whose state has changed nothing since the prologue but fields outside STATUS, EINFO and the results (R186). -/
theorem raise_ofNat (e : ErrorName) (x : Nat) (s : State) :
    raise e (BitVec.ofNat 64 x) (prologue s) = endedWith e.code x s := by
  simp only [raise, complete, State.setEinfo, prologue, endedWith, extract_ofNat_low, extract_ofNat_high]

/-- A completion that has changed nothing since the prologue (R97). -/
theorem complete_prologue (s : State) : complete (prologue s) = endedWith 0 0 s := rfl

/-- The results of a header decode in the form of `withResults` (R129). -/
theorem setResults_eq (m : Mode) (n p total : Nat) (s : State) :
    setResults m n p total s = withResults (namePresent m n) n p total s := by
  simp only [setResults, State.setRtot, withResults, namePresent, extract_total_low, extract_total_high]

theorem tooLargeBits_zero {n p : Nat} : tooLargeBits n p = 0 ↔ n < 2 ^ 32 ∧ p < 2 ^ 32 := by
  simp only [tooLargeBits, condBit, decide_eq_true_eq]
  split <;> split <;> omega

theorem buildLimitBits_zero {c : Caps} {n p total : Nat} :
    buildLimitBits c n p total = 0 ↔ total ≤ c.frmBytes ∧ p ≤ c.payBytes ∧ n ≤ c.namBytes := by
  simp only [buildLimitBits, condBit, decide_eq_true_eq]
  split <;> split <;> split <;> omega

theorem embedLimitBits_zero {c : Caps} {pixels f : Nat} :
    embedLimitBits c pixels f = 0 ↔ pixels ≤ c.pixWords ∧ f ≤ c.frmBytes := by
  simp only [embedLimitBits, condBit, decide_eq_true_eq]
  split <;> split <;> omega

theorem frameLen_eq (m : Mode) (s : State) :
    frameLen m (s.nameLen m) s.plen = headerSize m + s.nameLen m + s.plen := by
  cases m <;> simp [frameLen, headerSize, State.nameLen]

theorem length_hdrEncode (m : Mode) (n p : Nat) : (hdrEncode m n p).length = headerSize m := by cases m <;> rfl

/-- The bytes BUILD writes are the header, the name and the payload in that order (R120, R121). -/
theorem getElem?_frameBytes (m : Mode) (n p : Nat) (s : State) (j : Nat)
    (hj : j < headerSize m + n + p) :
    (frameBytes m n p s.namAt s.payAt)[j]? = some (builtByte m n p s j) := by
  have hl := length_hdrEncode m n p
  simp only [frameBytes, builtByte]
  by_cases h1 : j < headerSize m
  · rw [List.getElem?_append_left (by simp [hl]; omega), List.getElem?_append_left (by omega), if_pos h1]
    simp [hl, h1]
  · rw [if_neg h1]
    by_cases h2 : j < headerSize m + n
    · rw [List.getElem?_append_left (by simp [hl]; omega), List.getElem?_append_right (by omega), hl,
        getElem?_slice, if_pos (by omega), if_pos h2, Nat.zero_add]
    · rw [List.getElem?_append_right (by simp [hl]; omega), if_neg h2]
      simp only [List.length_append, length_slice, hl]
      rw [getElem?_slice, if_pos (by omega), Nat.zero_add]
      congr 2
      omega

theorem length_frameBytes (m : Mode) (n p : Nat) (nam pay : Nat → Byte) :
    (frameBytes m n p nam pay).length = headerSize m + n + p := by
  simp [frameBytes, length_hdrEncode, Nat.add_assoc]

theorem nameLen_message (m : Mode) (s : State) : m = .message → s.nameLen m = 0 := by rintro rfl; rfl

theorem einfo_eq_zero {s : State} (h1 : s.einfoHi = 0) (h2 : s.einfoLo = 0) : s.einfo = 0 := by
  simp [State.einfo, h1, h2]

theorem rtot_eq_zero {s : State} (h1 : s.rtotHi = 0) (h2 : s.rtotLo = 0) : s.rtot = 0 := by
  simp [State.rtot, h1, h2]

/-- The one lemma of BUILD's lines: what they come to (R130, R131). -/
theorem buildBody_cases (m : Mode) (s : State) :
    (tooLargeBits (s.nameLen m) s.plen ≠ 0 ∧
      buildBody m s = .raises .payloadTooLarge (BitVec.ofNat 64 (tooLargeBits (s.nameLen m) s.plen)) s) ∨
    (tooLargeBits (s.nameLen m) s.plen = 0 ∧
      buildLimitBits s.caps (s.nameLen m) s.plen (headerSize m + s.nameLen m + s.plen) ≠ 0 ∧
      buildBody m s = .raises .resourceLimit
        (BitVec.ofNat 64 (buildLimitBits s.caps (s.nameLen m) s.plen (headerSize m + s.nameLen m + s.plen))) s) ∨
    (BuildFits m s ∧
      buildBody m s = .ends { s with
        frm := s.frm.writeAll 0 (frameBytes m (s.nameLen m) s.plen s.namAt s.payAt)
        flen := BitVec.ofNat 32 (headerSize m + s.nameLen m + s.plen) }) := by
  simp only [buildBody, frameLen_eq]
  by_cases h1 : tooLargeBits (s.nameLen m) s.plen = 0
  · by_cases h2 : buildLimitBits s.caps (s.nameLen m) s.plen (headerSize m + s.nameLen m + s.plen) = 0
    · refine .inr (.inr ⟨?_, ?_⟩)
      · have a := tooLargeBits_zero.mp h1
        have b := buildLimitBits_zero.mp h2
        exact ⟨a.1, a.2, b.1, b.2.1, b.2.2⟩
      · rw [if_neg (not_not.mpr h1), if_neg (not_not.mpr h2)]
    · exact .inr (.inl ⟨h1, h2, by rw [if_neg (not_not.mpr h1), if_pos h2]⟩)
  · exact .inl ⟨h1, by rw [if_pos h1]⟩

/-- The name check by the whole name (R134, R155): an empty name has no bad byte. -/
theorem badName_eq (m : Mode) (n : Nat) (f : Nat → Byte) :
    badName m n f = if m = .file then utf8FirstBad (slice f 12 n) else none := by
  cases m
  · rcases Nat.eq_zero_or_pos n with rfl | h
    · rfl
    · simp only [badName, if_pos h, if_true]
  · rfl

/-- The one lemma of PARSE's lines: what they come to (R134, R135). -/
theorem parseBody_cases (m : Mode) (s : State) :
    (s.caps.frmBytes < s.flen.toNat ∧ parseBody m s = .raises .resourceLimit 2 s) ∨
    (s.flen.toNat ≤ s.caps.frmBytes ∧ s.flen.toNat < headerSize m ∧
      parseBody m s = .raises .invalidArgument (BitVec.ofNat 64 (headerSize m)) s) ∨
    (s.flen.toNat ≤ s.caps.frmBytes ∧ headerSize m ≤ s.flen.toNat ∧ ∃ found, hdrDecode m s.frmAt = .magicBad found ∧
      parseBody m s = .raises .magicMismatch (BitVec.ofNat 64 found) s) ∨
    (s.flen.toNat ≤ s.caps.frmBytes ∧ headerSize m ≤ s.flen.toNat ∧ ∃ h, hdrDecode m s.frmAt = .ok h ∧
      (s.flen.toNat ≠ h.total ∧ parseBody m s = .raises .invalidArgument (BitVec.ofNat 64 h.total) s ∨
       s.flen.toNat = h.total ∧
        ((∃ i, badName m h.n s.frmAt = some i ∧ parseBody m s = .raises .invalidEncoding (BitVec.ofNat 64 i) s) ∨
         (badName m h.n s.frmAt = none ∧ parseBody m s = .ends (setResults m h.n h.p h.total s))))) := by
  by_cases h1 : s.caps.frmBytes < s.flen.toNat
  · exact .inl ⟨h1, if_pos h1⟩
  · by_cases h2 : s.flen.toNat < headerSize m
    · exact .inr (.inl ⟨by omega, h2, (if_neg h1).trans (if_pos h2)⟩)
    · refine .inr (.inr ?_)
      have e : parseBody m s = _ := (if_neg h1).trans (if_neg h2)
      cases h : hdrDecode m s.frmAt with
      | magicBad found =>
        rw [h] at e
        exact .inl ⟨by omega, by omega, found, rfl, e⟩
      | ok hd =>
        rw [h] at e
        refine .inr ⟨by omega, by omega, hd, rfl, ?_⟩
        by_cases h3 : s.flen.toNat ≠ hd.total
        · exact .inl ⟨h3, e.trans (if_pos h3)⟩
        · have e := e.trans (if_neg h3)
          refine .inr ⟨not_not.mp h3, ?_⟩
          cases hb : badName m hd.n s.frmAt with
          | none => rw [hb] at e; exact .inr ⟨rfl, e⟩
          | some i => rw [hb] at e; exact .inl ⟨i, rfl, e⟩

/-- FRM after BUILD has written the frame (R130, R131). -/
theorem frmAt_built (m : Mode) (s : State) (hw : s.frm.wf) (j : Nat) :
    Memory.get (Config.unwrittenFrm s.resets)
      (s.frm.writeAll 0 (frameBytes m (s.nameLen m) s.plen s.namAt s.payAt)) j =
      if j < headerSize m + s.nameLen m + s.plen then builtByte m (s.nameLen m) s.plen s j else s.frmAt j := by
  rw [Memory.get_writeAll _ _ _ _ _ hw, length_frameBytes]
  by_cases h : j < headerSize m + s.nameLen m + s.plen
  · rw [if_pos ⟨Nat.zero_le _, by omega⟩, if_pos h, Nat.sub_zero, List.getD_eq_getElem?_getD,
      getElem?_frameBytes m _ _ s j h]
    rfl
  · rw [if_neg (by omega), if_neg h]
    rfl

/-- The one lemma of `EmbedBody`: what it comes to (R152, R162). -/
theorem embedBody_cases (s0 : State) :
    let s := resetCursor s0
    (s.grid.pixels < 8 * s.flen.toNat ∧
      embedBody s0 = .raises .insufficientCapacity (BitVec.ofNat 64 (8 * s.flen.toNat)) s) ∨
    (8 * s.flen.toNat ≤ s.grid.pixels ∧ s.flen.toNat ≠ 0 ∧ embedLimitBits s.caps s.grid.pixels s.flen.toNat ≠ 0 ∧
      embedBody s0 = .raises .resourceLimit
        (BitVec.ofNat 64 (embedLimitBits s.caps s.grid.pixels s.flen.toNat)) s) ∨
    (8 * s.flen.toNat ≤ s.grid.pixels ∧
      (s.flen.toNat = 0 ∨ (s.grid.pixels ≤ s.caps.pixWords ∧ s.flen.toNat ≤ s.caps.frmBytes)) ∧
      embedBody s0 = .ends { s with
        cursor := (embedLoop s (8 * s.flen.toNat) (embedStart s)).cursor
        pix := (embedLoop s (8 * s.flen.toNat) (embedStart s)).pix }) := by
  intro s
  simp only [embedBody]
  by_cases h1 : s.grid.pixels < 8 * s.flen.toNat
  · exact .inl ⟨h1, if_pos h1⟩
  · by_cases h2 : s.flen.toNat ≠ 0 ∧ embedLimitBits s.caps s.grid.pixels s.flen.toNat ≠ 0
    · exact .inr (.inl ⟨by omega, h2.1, h2.2, (if_neg h1).trans (if_pos h2)⟩)
    · refine .inr (.inr ⟨by omega, ?_, (if_neg h1).trans (if_neg h2)⟩)
      by_cases h0 : s.flen.toNat = 0
      · exact .inl h0
      · exact .inr (embedLimitBits_zero.mp (not_not.mp fun h => h2 ⟨h0, h⟩))

/-- The state in which the loop of an extract pass runs: the cursor and FLEN are cleared first (R155). -/
def extractInit (s : State) : State := { resetCursor s with flen := 0 }

/-- `ExtractBody` is its loop, or ResourceLimit before any read (R155). -/
theorem extractBody_cases (m : Mode) (s0 : State) :
    let s := extractInit s0
    (s.caps.pixWords < s.grid.pixels ∧ extractBody m s0 = .raises .resourceLimit 1 s) ∨
    (s.grid.pixels ≤ s.caps.pixWords ∧
      extractBody m s0 = extractEnd m s (extractLoop m s s.grid.pixels s.grid.pixels (extractStart s))) := by
  intro s
  by_cases h : s.caps.pixWords < s.grid.pixels
  · exact .inl ⟨h, if_pos h⟩
  · exact .inr ⟨by omega, if_neg h⟩

end Sys2Proof.Machine
end

