-- ==== Sys2Proof/Laws/Body.lean ====
section
/-! SUPPORT. What the body of any command can do, said once: how it may end, and which fields it may write
(R96, R97, R182, R186, R187). -/

namespace Sys2Proof.Machine

/-- What is true of a header that a decode has delivered (R124, R126). -/
def Header.Decoded (m : Mode) (h : Header) : Prop :=
  h.n < 2 ^ 32 ∧ h.p < 2 ^ 32 ∧ h.total = headerSize m + h.n + h.p ∧ (m = .message → h.n = 0)

/-- The extract loop stops with a decoded header or at one of three raises (R155). -/
theorem extractLoop_raises (m : Mode) (s : State) (pixels left : Nat) (r : ExtractRun)
    (hinv : ∀ h, r.hdr = some h → Header.Decoded m h) :
    match extractLoop m s pixels left r with
    | .complete h _ => Header.Decoded m h
    | .raises e _ _ => e = .magicMismatch ∨ e = .truncatedPayload ∨ e = .resourceLimit := by
  have turn : ∀ r : ExtractRun, (∀ h, r.hdr = some h → Header.Decoded m h) →
      match extractTurn m s pixels r with
      | .stop (.complete h _) => Header.Decoded m h
      | .stop (.raises e _ _) => e = .magicMismatch ∨ e = .truncatedPayload ∨ e = .resourceLimit
      | .pixel r' => (∀ h, r'.hdr = some h → Header.Decoded m h) := by
    intro r hr
    unfold extractTurn
    cases hh : r.hdr with
    | some h =>
      simp only
      by_cases e : r.cursor.bidx.toNat = h.total
      · rw [if_pos e]; exact hr h hh
      · rw [if_neg e]; exact hr
    | none =>
      simp only
      by_cases e : r.cursor.bidx.toNat = headerSize m
      · rw [if_pos e]
        cases hd : hdrDecode m (Memory.get (Config.unwrittenFrm s.resets) r.frm) with
        | magicBad f => simp
        | ok h =>
          simp only
          have := hdrDecode_ok hd
          by_cases e1 : h.total > s.caps.frmBytes ∧ pixels ≥ 8 * h.total
          · rw [if_pos e1]; simp
          · rw [if_neg e1]
            by_cases e2 : r.cursor.bidx.toNat = h.total
            · rw [if_pos e2]; exact this
            · rw [if_neg e2]; simp only; intro h' e'; cases e'; exact this
      · rw [if_neg e]; exact hr
  induction left generalizing r with
  | zero =>
    have := turn r hinv
    unfold extractLoop
    cases ht : extractTurn m s pixels r with
    | pixel r' => simp
    | stop e => rw [ht] at this; simp only at this ⊢; cases e <;> exact this
  | succ n ih =>
    have := turn r hinv
    unfold extractLoop
    cases ht : extractTurn m s pixels r with
    | pixel r' =>
      rw [ht] at this; simp only at this ⊢
      exact ih _ (by rw [extractStep_hdr]; exact this)
    | stop e => rw [ht] at this; simp only at this ⊢; cases e <;> exact this

/-- A place of the cursor that a pass over the grid of `s` reaches (R36, R41, R42). -/
def CursorReached (s : State) (c : Cursor) : Prop := ∃ j, j ≤ s.grid.pixels ∧ c = cursorAfter s.grid j

/-- FRM stays in canonical form and in its space (R47, R70). -/
def FrmKept (s : State) (frm : Memory 8) : Prop := memoryOk s.frm s.caps.frmBytes → memoryOk frm s.caps.frmBytes

theorem cursorReached_start (s : State) : CursorReached s Cursor.start := ⟨0, Nat.zero_le _, (cursorAfter_zero _).symm⟩

/-- What EXTRACT's lines come to, whatever the memories hold: a raise, or the results of a decoded header (R155). -/
theorem extractBody_outcome (m : Mode) (s0 : State) :
    (∃ e info cur frm, extractBody m s0 = .raises e info { extractInit s0 with cursor := cur, frm := frm } ∧
      e ∈ [ErrorName.magicMismatch, .truncatedPayload, .resourceLimit, .invalidEncoding] ∧
      (m = .message → e ≠ .invalidEncoding) ∧ CursorReached s0 cur ∧ FrmKept s0 frm) ∨
    (∃ h cur frm, extractBody m s0 = .ends (setResults m h.n h.p h.total
        { extractInit s0 with cursor := cur, frm := frm, flen := BitVec.ofNat 32 h.total }) ∧
      Header.Decoded m h ∧ CursorReached s0 cur ∧ FrmKept s0 frm) := by
  rcases extractBody_cases m s0 with ⟨h, e⟩ | ⟨h, e⟩
  · exact .inl ⟨_, _, _, s0.frm, e, by simp, by simp, cursorReached_start s0, id⟩
  · have h1 := extractLoop_raises m (extractInit s0) (extractInit s0).grid.pixels (extractInit s0).grid.pixels
      (extractStart (extractInit s0)) (by intro h hh; cases hh)
    have h2 := extractLoop_cursor m (extractInit s0) (extractInit s0).grid.pixels (extractInit s0).grid.pixels 0
      (extractStart (extractInit s0)) (cursorAfter_zero _).symm (by omega)
    have h3 := extractLoop_memoryOk m (extractInit s0) (extractInit s0).grid.pixels (extractInit s0).grid.pixels
      (extractStart (extractInit s0))
    rw [e]
    cases hl : extractLoop m (extractInit s0) (extractInit s0).grid.pixels (extractInit s0).grid.pixels
        (extractStart (extractInit s0)) with
    | raises er info r =>
      rw [hl] at h1 h2 h3
      refine .inl ⟨er, info, r.cursor, r.frm, rfl, ?_, ?_, h2, h3⟩
      · simp only at h1; rcases h1 with h | h | h <;> simp [h]
      · simp only at h1; rcases h1 with h | h | h <;> simp [h]
    | complete hd r =>
      rw [hl] at h1 h2 h3
      simp only [extractEnd]
      cases hb : badName m hd.n (Memory.get (Config.unwrittenFrm (extractInit s0).resets) r.frm) with
      | some i =>
        refine .inl ⟨_, _, r.cursor, r.frm, rfl, by simp, ?_, h2, h3⟩
        rintro rfl; simp [badName] at hb
      | none => exact .inr ⟨hd, r.cursor, r.frm, rfl, h1, h2, h3⟩

/-- The commands that write FLEN and FRM (R29, R47). -/
abbrev writesFrame (i : Instr) : Prop := i ∈ [Instr.buildF, .buildM, .extractF, .extractM, .encodeF, .encodeM]

/-- The commands that write PIX (R46). -/
abbrev writesPix (i : Instr) : Prop := i ∈ [Instr.embed, .encodeF, .encodeM]

/-- The cursor after a body: untouched by a command that makes no pass (R43). -/
def CursorMoves (i : Instr) (s : State) (c : Cursor) : Prop :=
  (isPass i = false → c = s.cursor) ∧ (isPass i = true → CursorReached s c)

/-- The result registers after a body: untouched, or those of a decoded header (R129). -/
def ResultsMove (s : State) (np : Bool) (rnlen rplen rtotLo : BitVec 32) (rtotHi : BitVec 2) : Prop :=
  (np = s.status.np ∧ rnlen = s.rnlen ∧ rplen = s.rplen ∧ rtotLo = s.rtotLo ∧ rtotHi = s.rtotHi) ∨
  ∃ m h, Header.Decoded m h ∧ np = namePresent m h.n ∧ rnlen = BitVec.ofNat 32 h.n ∧ rplen = BitVec.ofNat 32 h.p ∧
    rtotLo = BitVec.ofNat 32 h.total ∧ rtotHi = BitVec.ofNat 2 (h.total / 2 ^ 32)

/-- What the body of command `i`, run in `s`, can do. -/
inductive BodyDoes (i : Instr) (s : State) : Body → Prop
  | raises (e : ErrorName) (x : BitVec 64) (flen : BitVec 32) (cursor : Cursor) (frm : Memory 8)
      (code : e.code ∈ mayEndWith i) (moves : CursorMoves i s cursor)
      (frame : ¬ writesFrame i → flen = s.flen ∧ frm = s.frm) (cleared : i = .extractF ∨ i = .extractM → flen = 0)
      (frmOk : FrmKept s frm) :
      BodyDoes i s (.raises e x { s with flen := flen, cursor := cursor, frm := frm })
  | ends (np : Bool) (rnlen rplen rtotLo : BitVec 32) (rtotHi : BitVec 2) (flen : BitVec 32) (cursor : Cursor)
      (frm : Memory 8) (pix : Memory 32) (bsq : Bsq) (byte : BitVec 8)
      (moves : CursorMoves i s cursor) (frame : ¬ writesFrame i → flen = s.flen ∧ frm = s.frm)
      (pixels : ¬ writesPix i → pix = s.pix)
      (designated : s.pix.wf → ∀ a, sameButDB (Memory.get (Config.unwrittenPix s.resets) pix a) (s.pixAt a))
      (sequence : i ≠ .unpack → bsq = s.bsq) (packed : i ≠ .pack → byte = s.byte)
      (results : ResultsMove s np rnlen rplen rtotLo rtotHi) (frmOk : FrmKept s frm)
      (pixOk : memoryOk s.pix s.caps.pixWords → memoryOk pix s.caps.pixWords) :
      BodyDoes i s (.ends { s with
        status := { s.status with np := np }
        rnlen := rnlen, rplen := rplen, rtotLo := rtotLo, rtotHi := rtotHi
        flen := flen, cursor := cursor, frm := frm, pix := pix, bsq := bsq, byte := byte })

theorem resultsMove_same (s : State) : ResultsMove s s.status.np s.rnlen s.rplen s.rtotLo s.rtotHi :=
  .inl ⟨rfl, rfl, rfl, rfl, rfl⟩

theorem cursorMoves_same {i : Instr} (s : State) (h : isPass i = false) : CursorMoves i s s.cursor :=
  ⟨fun _ => rfl, fun h' => by simp [h] at h'⟩

theorem cursorMoves_pass {i : Instr} {s : State} {c : Cursor} (hi : isPass i = true) (h : CursorReached s c) :
    CursorMoves i s c := ⟨fun h' => by simp [hi] at h', fun _ => h⟩

/-- A raise that has written nothing. -/
theorem bodyDoes_raise {i : Instr} (s : State) {e : ErrorName} (x : BitVec 64) (he : e.code ∈ mayEndWith i)
    (hi : isPass i = false) : BodyDoes i s (.raises e x s) :=
  .raises e x s.flen s.cursor s.frm he (cursorMoves_same s hi) (fun _ => ⟨rfl, rfl⟩)
    (by rintro (rfl | rfl) <;> cases hi) id

/-- The end of a header decode (R129). -/
theorem bodyDoes_results {i : Instr} (s : State) {m : Mode} {h : Header} (hd : Header.Decoded m h)
    (hi : isPass i = false) : BodyDoes i s (.ends (setResults m h.n h.p h.total s)) := by
  rw [setResults_eq]
  exact .ends _ _ _ _ _ s.flen s.cursor s.frm s.pix s.bsq s.byte (cursorMoves_same s hi) (fun _ => ⟨rfl, rfl⟩)
    (fun _ => rfl) (fun _ a => sameButDB_refl _) (fun _ => rfl) (fun _ => rfl)
    (.inr ⟨m, h, hd, rfl, rfl, rfl, rfl, rfl⟩) id id

theorem buildBody_does (m : Mode) (s : State) : BodyDoes (buildOf m) s (buildBody m s) := by
  have hi : isPass (buildOf m) = false := by cases m <;> rfl
  have h4 : ErrorName.payloadTooLarge.code ∈ mayEndWith (buildOf m) := by cases m <;> decide
  have h9 : ErrorName.resourceLimit.code ∈ mayEndWith (buildOf m) := by cases m <;> decide
  have hw : writesFrame (buildOf m) := by cases m <;> decide
  rcases buildBody_cases m s with ⟨_, e⟩ | ⟨_, _, e⟩ | ⟨hf, e⟩ <;> rw [e]
  · exact bodyDoes_raise s _ h4 hi
  · exact bodyDoes_raise s _ h9 hi
  · refine .ends s.status.np s.rnlen s.rplen s.rtotLo s.rtotHi _ s.cursor _ s.pix s.bsq s.byte (cursorMoves_same s hi)
      (fun h => absurd hw h) (fun _ => rfl) (fun _ a => sameButDB_refl _) (fun _ => rfl) (fun _ => rfl)
      (resultsMove_same s) (fun h => ?_) id
    exact memoryOk_writeAll _ _ h (by rw [length_frameBytes, Nat.zero_add]; exact hf.2.2.1)

theorem embedBody_does (s : State) : BodyDoes .embed s (embedBody s) := by
  have h := embedBody_cases s
  simp only at h
  rcases h with ⟨_, e⟩ | ⟨_, _, _, e⟩ | ⟨h1, h2, e⟩ <;> rw [e]
  · exact .raises _ _ s.flen Cursor.start s.frm (by decide) (cursorMoves_pass rfl (cursorReached_start s))
      (fun _ => ⟨rfl, rfl⟩) nofun id
  · exact .raises _ _ s.flen Cursor.start s.frm (by decide) (cursorMoves_pass rfl (cursorReached_start s))
      (fun _ => ⟨rfl, rfl⟩) nofun id
  · refine .ends s.status.np s.rnlen s.rplen s.rtotLo s.rtotHi s.flen _ s.frm _ s.bsq s.byte
      (cursorMoves_pass rfl ⟨_, h1, embedLoop_cursor _ h1⟩) (fun _ => ⟨rfl, rfl⟩) (fun h => absurd (by decide) h)
      (fun hw a => ?_) (fun _ => rfl) (fun _ => rfl) (resultsMove_same s) id
      (fun hm => embedLoop_memoryOk (s := resetCursor s) hm h1 (h2.imp (by omega) And.left))
    have d := embedLoop_done (s := resetCursor s) hw h1
    by_cases ha : ∃ j, j < 8 * (resetCursor s).flen.toNat ∧ (resetCursor s).grid.addrOf j = a
    · obtain ⟨j, hj, rfl⟩ := ha
      rw [Memory.get, d.visited j hj]
      exact sameButDB_setDB _ _
    · rw [Memory.get, d.unvisited a (by intro j hj e; exact ha ⟨j, hj, e⟩)]
      exact sameButDB_refl _

theorem extractBody_does (m : Mode) (s : State) : BodyDoes (extractOf m) s (extractBody m s) := by
  have hi : isPass (extractOf m) = true := by cases m <;> rfl
  have hw : writesFrame (extractOf m) := by cases m <;> decide
  rcases extractBody_outcome m s with ⟨e, x, cur, frm, h, he, hem, hc, hm⟩ | ⟨h, cur, frm, e, hd, hc, hm⟩
  · rw [h]
    refine .raises e x 0 cur frm ?_ (cursorMoves_pass hi hc) (fun h => absurd hw h) (fun _ => rfl) hm
    cases m <;> simp [extractOf, mayEndWith] at * <;> rcases he with h | h | h | h <;> subst h <;>
      simp [ErrorName.code] at *
  · rw [e, setResults_eq]
    exact .ends _ _ _ _ _ _ cur frm s.pix s.bsq s.byte (cursorMoves_pass hi hc) (fun h => absurd hw h) (fun _ => rfl)
      (fun _ a => sameButDB_refl _) (fun _ => rfl) (fun _ => rfl) (.inr ⟨m, h, hd, rfl, rfl, rfl, rfl, rfl⟩) hm id

theorem hdecBody_does (m : Mode) (s : State) : BodyDoes (hdecOf m) s (hdecBody m s) := by
  have hi : isPass (hdecOf m) = false := by cases m <;> rfl
  have h1 : ErrorName.magicMismatch.code ∈ mayEndWith (hdecOf m) := by cases m <;> decide
  unfold hdecBody
  cases h : hdrDecode m s.frmAt with
  | magicBad f => exact bodyDoes_raise s _ h1 hi
  | ok hd => exact bodyDoes_results s (hdrDecode_ok h) hi

theorem parseBody_does (m : Mode) (s : State) : BodyDoes (parseOf m) s (parseBody m s) := by
  have hi : isPass (parseOf m) = false := by cases m <;> rfl
  have h9 : ErrorName.resourceLimit.code ∈ mayEndWith (parseOf m) := by cases m <;> decide
  have h7 : ErrorName.invalidArgument.code ∈ mayEndWith (parseOf m) := by cases m <;> decide
  have h1 : ErrorName.magicMismatch.code ∈ mayEndWith (parseOf m) := by cases m <;> decide
  rcases parseBody_cases m s with ⟨_, e⟩ | ⟨_, _, e⟩ | ⟨_, _, f, _, e⟩ | ⟨_, _, hd, h, ⟨_, e⟩ | ⟨_, ⟨i, hb, e⟩ | ⟨_, e⟩⟩⟩ <;>
    rw [e]
  · exact bodyDoes_raise s _ h9 hi
  · exact bodyDoes_raise s _ h7 hi
  · exact bodyDoes_raise s _ h1 hi
  · exact bodyDoes_raise s _ h7 hi
  · cases m
    · exact bodyDoes_raise s _ (by decide) rfl
    · simp [badName] at hb
  · exact bodyDoes_results s (hdrDecode_ok h) hi

theorem encodeBody_does (m : Mode) (s : State) : BodyDoes (encodeOf m) s (encodeBody m s) := by
  have hi : isPass (encodeOf m) = true := by cases m <;> rfl
  have hw : writesFrame (encodeOf m) := by cases m <;> decide
  have hp : writesPix (encodeOf m) := by cases m <;> decide
  have hx : ¬ (encodeOf m = .extractF ∨ encodeOf m = .extractM) := by cases m <;> decide
  have h4 : ErrorName.payloadTooLarge.code ∈ mayEndWith (encodeOf m) := by cases m <;> decide
  have h9 : ErrorName.resourceLimit.code ∈ mayEndWith (encodeOf m) := by cases m <;> decide
  have hembed : ∀ x ∈ mayEndWith .embed, x ∈ mayEndWith (encodeOf m) := by cases m <;> decide
  unfold encodeBody
  rcases buildBody_cases m (resetCursor s) with ⟨_, e⟩ | ⟨_, _, e⟩ | ⟨hf, e⟩ <;> rw [e]
  · exact .raises _ _ s.flen Cursor.start s.frm h4 (cursorMoves_pass hi (cursorReached_start s)) (fun h => absurd hw h)
      (fun h => absurd h hx) id
  · exact .raises _ _ s.flen Cursor.start s.frm h9 (cursorMoves_pass hi (cursorReached_start s)) (fun h => absurd hw h)
      (fun h => absurd h hx) id
  · simp only [Body.andThen]
    generalize hu : ({ resetCursor s with
        frm := (resetCursor s).frm.writeAll 0 (frameBytes m ((resetCursor s).nameLen m) (resetCursor s).plen
          (resetCursor s).namAt (resetCursor s).payAt)
        flen := BitVec.ofNat 32 (headerSize m + (resetCursor s).nameLen m + (resetCursor s).plen) } : State) = u
    have hbuilt : FrmKept s u.frm := by
      subst hu
      exact fun h => memoryOk_writeAll _ _ h (by rw [length_frameBytes, Nat.zero_add]; exact hf.2.2.1)
    have h2 := embedBody_does u
    generalize embedBody u = b at h2
    cases h2 with
    | raises er x flen cursor frm code moves _ _ frmOk =>
      obtain ⟨j, hj, hcj⟩ := moves.2 rfl
      subst hu
      exact .raises er x flen cursor frm (hembed _ code) (cursorMoves_pass hi ⟨j, hj, hcj⟩) (fun h => absurd hw h)
        (fun h => absurd h hx) (fun h => frmOk (hbuilt h))
    | ends np rn rp rl rh flen cursor frm pix bsq byte moves _ _ designated sequence packed results frmOk pixOk =>
      obtain ⟨j, hj, hcj⟩ := moves.2 rfl
      subst hu
      exact .ends np rn rp rl rh flen cursor frm pix bsq byte (cursorMoves_pass hi ⟨j, hj, hcj⟩)
        (fun h => absurd hw h) (fun h => absurd hp h) designated (fun _ => sequence (by decide))
        (fun _ => packed (by decide)) results (fun h => frmOk (hbuilt h)) pixOk

/-- The one lemma about all bodies. -/
theorem bodyOf_does (i : Instr) (s : State) : BodyDoes i s (bodyOf i s) := by
  cases i with
  | unpack =>
    exact .ends s.status.np s.rnlen s.rplen s.rtotLo s.rtotHi s.flen s.cursor s.frm s.pix _ s.byte
      (cursorMoves_same s rfl) (fun _ => ⟨rfl, rfl⟩) (fun _ => rfl) (fun _ a => sameButDB_refl _)
      (fun h => absurd rfl h) (fun _ => rfl) (resultsMove_same s) id id
  | pack =>
    show BodyDoes _ _ (packBody s)
    unfold packBody
    split
    · exact .ends s.status.np s.rnlen s.rplen s.rtotLo s.rtotHi s.flen s.cursor s.frm s.pix s.bsq _
        (cursorMoves_same s rfl) (fun _ => ⟨rfl, rfl⟩) (fun _ => rfl) (fun _ a => sameButDB_refl _)
        (fun _ => rfl) (fun h => absurd rfl h) (resultsMove_same s) id id
    · exact bodyDoes_raise s _ (by decide) rfl
  | buildF => exact buildBody_does .file s
  | buildM => exact buildBody_does .message s
  | hdecF => exact hdecBody_does .file s
  | hdecM => exact hdecBody_does .message s
  | parseF => exact parseBody_does .file s
  | parseM => exact parseBody_does .message s
  | embed => exact embedBody_does s
  | extractF => exact extractBody_does .file s
  | extractM => exact extractBody_does .message s
  | encodeF => exact encodeBody_does .file s
  | encodeM => exact encodeBody_does .message s

/-- Everything a command can do: its body, in what the prologue leaves, and then its end (R96, R97, R186). -/
theorem exec_does {i : Instr} {s t : State} (h : exec i s = .next t) :
    ∃ b, BodyDoes i (prologue s) b ∧ t = b.finish := by
  rw [exec_eq] at h; cases h
  exact ⟨_, bodyOf_does i _, rfl⟩

end Sys2Proof.Machine
end

