-- ==== Sys2Proof/Laws/PerInstr.lean ====
section
/-! SUPPORT. The family RoundTrip: for each command, the decoder reads the encoder's word as the command. -/

namespace Sys2Proof.Laws.RoundTrip

/-- Decoding a command's word gives the command back, and its format is well formed (R92, R93). -/
def Statement (i : Instr) : Prop := decode (encode i) = .ok i ∧ i.format.wellFormed = true

theorem unpack : Statement .unpack := ⟨rfl, rfl⟩
theorem pack : Statement .pack := ⟨rfl, rfl⟩
theorem buildF : Statement .buildF := ⟨rfl, rfl⟩
theorem buildM : Statement .buildM := ⟨rfl, rfl⟩
theorem hdecF : Statement .hdecF := ⟨rfl, rfl⟩
theorem hdecM : Statement .hdecM := ⟨rfl, rfl⟩
theorem parseF : Statement .parseF := ⟨rfl, rfl⟩
theorem parseM : Statement .parseM := ⟨rfl, rfl⟩
theorem embed : Statement .embed := ⟨rfl, rfl⟩
theorem extractF : Statement .extractF := ⟨rfl, rfl⟩
theorem extractM : Statement .extractM := ⟨rfl, rfl⟩
theorem encodeF : Statement .encodeF := ⟨rfl, rfl⟩
theorem encodeM : Statement .encodeM := ⟨rfl, rfl⟩

end Sys2Proof.Laws.RoundTrip
end

