-- ==== Sys2Proof/Laws/Step.lean ====
section
/-! SUPPORT. What one step of STEGCORE can do, said once (R22, R62, R73, R197, R210). -/

namespace Sys2Proof.Machine

/-- A register stands at its own offset (R20). -/
@[simp] theorem regAt_offset (r : Reg) : regAt (Reg.offset r) = some r := by cases r <;> rfl

/-- A port operation that reaches the ports with `rst` released and BUSY = 0. -/
theorem step_idle {s : State} {op : HostOp} {rest : List Arrival} (h : HostMovesIdle s op rest) :
    step s = .next (hostIdle op { s with inputs := rest }) := by
  obtain ⟨hr, hb, e, hi⟩ := h
  simp [step, coreMoves, hr, hb, hostMove, hi, receive]

/-- A port operation that reaches the ports with `rst` released and BUSY = 1. -/
theorem step_busy {s : State} {op : HostOp} {rest : List Arrival} (h : HostMovesBusy s op rest) :
    step s = .next (hostBusy op { s with inputs := rest }) := by
  obtain ⟨hr, hb, hi⟩ := h
  simp [step, coreMoves, hr, hb, hostMove, hi, receive]

/-- A port operation that reaches the ports with `rst` asserted. -/
theorem step_held {s : State} {op : HostOp} {rest : List Arrival} (h : HostMovesHeld s op rest) :
    step s = .next (hostHeld op { s with inputs := rest }) := by
  obtain ⟨hr, e, hi⟩ := h
  simp [step, coreMoves, hr, hostMove, hi, receive]

/-- A change of `rst` that is not put off until a running command has completed. -/
theorem step_rst {s : State} {asserted early : Bool} {rest : List Arrival}
    (hi : s.inputs = { event := .rst asserted, whileBusy := early } :: rest)
    (hb : s.rst = false → s.status.busy = true → early = true) :
    step s = .next (setRst asserted { s with inputs := rest }) := by
  cases hr : s.rst <;> cases hs : s.status.busy <;>
    simp_all [step, coreMoves, hostMove, receive]

/-- A change of `rst` leads to the reset state, or is a release of a line that is not asserted (R210). -/
theorem setRst_cases (asserted : Bool) (s : State) :
    setRst asserted s = resetState asserted s ∨ (asserted = false ∧ s.rst = false ∧ setRst asserted s = s) := by
  cases asserted <;> cases hr : s.rst <;> simp [setRst, hr]

/-- A port operation while BUSY = 1 changes nothing but what the host has read (R73). -/
theorem hostBusy_frame (op : HostOp) (s : State) : ∃ read, hostBusy op s = { s with replies := read } := by
  cases op <;> exact ⟨_, rfl⟩

/-- A port operation while `rst` is asserted changes nothing but what the host has read (R210). -/
theorem hostHeld_frame (op : HostOp) (s : State) : ∃ read, hostHeld op s = { s with replies := read } := by
  cases op <;> exact ⟨_, rfl⟩

/-- Everything that a step from `s` can lead to: a command, the illegal-command rule, a port operation with BUSY = 0, with
BUSY = 1 or with `rst` asserted, a change of `rst`, or nothing at all. -/
theorem step_cases {s t : State} (h : step s = .next t) :
    (∃ i, s.rst = false ∧ decode s.cmdw = .ok i ∧ exec i s = .next t) ∨
    (s.rst = false ∧ t = illegalCommand s.cmdw s) ∨
    (∃ op rest, s.rst = false ∧ s.status.busy = false ∧ t = hostIdle op { s with inputs := rest }) ∨
    (∃ op rest, s.rst = false ∧ s.status.busy = true ∧ t = hostBusy op { s with inputs := rest }) ∨
    (∃ op rest, s.rst = true ∧ t = hostHeld op { s with inputs := rest }) ∨
    (∃ asserted rest, t = setRst asserted { s with inputs := rest }) ∨
    (s.inputs = [] ∧ (s.rst = true ∨ s.status.busy = false) ∧ t = s) := by
  unfold step at h
  split at h
  · rename_i hc
    have hr : s.rst = false := by simp only [coreMoves, Bool.and_eq_true] at hc; simpa using hc.1.1
    unfold runLatched at h
    split at h
    · rename_i i hd; exact .inl ⟨i, hr, hd, h⟩
    · cases h; exact .inr (.inl ⟨hr, rfl⟩)
  · rename_i hc
    cases h
    cases hi : s.inputs with
    | nil =>
      have hb : s.rst = true ∨ s.status.busy = false := by
        cases hr : s.rst
        · exact .inr (by simpa [coreMoves, hi, hr] using hc)
        · exact .inl rfl
      exact .inr (.inr (.inr (.inr (.inr (.inr ⟨rfl, hb, by simp only [hostMove, hi]⟩)))))
    | cons a rest =>
      obtain ⟨e, early⟩ := a
      simp only [hostMove, hi]
      cases e with
      | rst asserted => exact .inr (.inr (.inr (.inr (.inr (.inl ⟨asserted, rest, rfl⟩)))))
      | host op =>
        cases hr : s.rst with
        | true =>
          refine .inr (.inr (.inr (.inr (.inl ⟨op, rest, rfl, ?_⟩))))
          simp only [receive, if_true]
        | false =>
          cases hb : s.status.busy with
          | true =>
            refine .inr (.inr (.inr (.inl ⟨op, rest, rfl, rfl, ?_⟩)))
            simp only [receive, hb, Bool.false_eq_true, if_false, if_true]
          | false =>
            refine .inr (.inr (.inl ⟨op, rest, rfl, rfl, ?_⟩))
            simp only [receive, hb, Bool.false_eq_true, if_false]

end Sys2Proof.Machine
end

