-- ==== Sys2Proof/Laws/Utf8.lean ====
section
/-! SUPPORT. The UTF-8 check one sequence at a time (R127, R128). -/

namespace Sys2Proof.Machine

theorem matchesPrefix_iff (row : Utf8Row) (bs : List Byte) :
    Utf8Row.matchesPrefix row bs = true ↔ MatchesRow row (bs.take row.length) := by
  induction row generalizing bs with
  | nil => simp [Utf8Row.matchesPrefix, MatchesRow]
  | cons r row ih =>
    obtain ⟨lo, hi⟩ := r
    cases bs with
    | nil => simp [Utf8Row.matchesPrefix, MatchesRow]
    | cons b bs =>
      simp only [Utf8Row.matchesPrefix, Bool.and_eq_true, decide_eq_true_eq, ih, MatchesRow, List.length_cons,
        List.take_succ_cons, List.forall₂_cons]

theorem utf8Rows_length_pos : ∀ row ∈ utf8Rows, 0 < row.length := by decide

theorem utf8SeqLen_some {bs : List Byte} {m : Nat} (h : utf8SeqLen bs = some m) :
    ∃ row ∈ utf8Rows, row.length = m ∧ MatchesRow row (bs.take m) := by
  unfold utf8SeqLen at h
  rw [Option.map_eq_some_iff] at h
  obtain ⟨row, hr, rfl⟩ := h
  exact ⟨row, List.mem_of_find?_eq_some hr, rfl,
    (matchesPrefix_iff _ _).mp (List.find?_some (p := fun row => Utf8Row.matchesPrefix row bs) hr)⟩

theorem utf8SeqLen_none {bs : List Byte} (h : utf8SeqLen bs = none) :
    ∀ row ∈ utf8Rows, ¬ MatchesRow row (bs.take row.length) := by
  unfold utf8SeqLen at h
  rw [Option.map_eq_none_iff, List.find?_eq_none] at h
  exact fun row hr hm => h row hr ((matchesPrefix_iff _ _).mpr hm)

theorem utf8Scan_skip (bs : List Byte) (skip i : Nat) :
    utf8Scan skip i bs = (utf8Scan 0 0 (bs.drop skip)).map (· + (i + skip)) := by
  induction bs generalizing skip i with
  | nil => simp [utf8Scan]
  | cons b bs ih =>
    cases skip with
    | succ k =>
      simp only [utf8Scan, List.drop_succ_cons]
      rw [ih]; congr 1; funext x; omega
    | zero =>
      simp only [utf8Scan, List.drop_zero]
      cases h : utf8SeqLen (b :: bs) with
      | none => simp
      | some m =>
        simp only
        rw [ih (m - 1) (i + 1), ih (m - 1) (0 + 1), Option.map_map]
        congr 1; funext x; simp; omega

/-- The loop of R128, one turn: a sequence that some row matches is passed over, else the index is bad. -/
theorem utf8FirstBad_cons (b : Byte) (bs : List Byte) : utf8FirstBad (b :: bs) =
    match utf8SeqLen (b :: bs) with
    | some m => (utf8FirstBad ((b :: bs).drop m)).map (· + m)
    | none => some 0 := by
  unfold utf8FirstBad
  rw [utf8Scan]
  cases h : utf8SeqLen (b :: bs) with
  | none => rfl
  | some m =>
    obtain ⟨row, hr, hl, _⟩ := utf8SeqLen_some h
    have := utf8Rows_length_pos row hr
    obtain ⟨k, rfl⟩ : ∃ k, m = k + 1 := ⟨m - 1, by omega⟩
    simp only
    rw [utf8Scan_skip]
    simp only [List.drop_succ_cons, Nat.add_sub_cancel]
    congr 1; funext x; omega

end Sys2Proof.Machine
end

