-- ==== Sys2Proof/Tests/Slice0.lean ====
section
/-! SUPPORT. The model's own tests. The expected values are the spec's: the vectors T<n>, V<n> and P<n> are those of
`95_test_vectors.md`. The theorems `witness_...` show states that meet the hypotheses of the statements. -/

namespace Sys2Proof.Machine.Tests

-- One test at a time: tests that wait for the kernel side by side take a thread each.
set_option Elab.async false

/-! ### Helpers -/

/-- A small machine after reset: 169 pixel words, 24 frame bytes, 8 payload bytes, 8 name bytes. -/
def small : State := { State.reset with caps := ⟨169, 24, 8, 8⟩ }

/-- Units from index 0 on. -/
def load {w : Nat} (vs : List (BitVec w)) : Memory w := vs.zipIdx.map (fun x => (x.2, x.1))

/-- The state a command leads to. -/
def after (i : Instr) (s : State) : State :=
  match exec i s with
  | .next t => t
  | _ => s

/-- The cursor registers as numbers. -/
def cursorOf (s : State) : List Nat :=
  [s.cursor.pidx.toNat, s.cursor.xpos.toNat, s.cursor.ypos.toNat, s.cursor.bidx.toNat, s.cursor.biti.toNat]

/-- `FRM[0..n)`. -/
def frame (s : State) (n : Nat) : List Byte := slice s.frmAt 0 n

/-- A grid of `w` columns and `h` rows over the words given, in the layout given. -/
def onGrid (w h : BitVec 16) (columnMajor : Bool) (words : List Word) (s : State) : State :=
  { s with width := w, height := h, ctrl := { s.ctrl with layout := columnMajor }, pix := load words }

/-- Words of alpha FF and F7 that carry the bits of the bytes. -/
def carrying (bytes : List Byte) : List Word :=
  (bytes.map (fun b => (byteToBits b).map (fun bit => if bit then 0xFF000000#32 else 0xF7000000#32))).flatten

/-- The frame of V1. -/
def frameV1 : List Byte :=
  [0x53, 0x54, 0x45, 0x47, 0x05, 0, 0, 0, 0x02, 0, 0, 0, 0x61, 0x2e, 0x74, 0x78, 0x74, 0x48, 0x49]

/-- The operands of V1: name "a.txt", payload "HI", an opaque carrier of 13 by 13. -/
def startV1 : State :=
  { onGrid 13 13 false (List.replicate 169 0xFF336699#32) small with
    nlenLo := 5, nam := load [0x61, 0x2e, 0x74, 0x78, 0x74], plenLo := 2, pay := load [0x48, 0x49] }

/-- A frame in FRM and its length in FLEN. -/
def holding (bytes : List Byte) (flen : Nat) : State :=
  { small with frm := load bytes, flen := BitVec.ofNat 32 flen }

/-- The magic in front of some bytes. -/
def withMagic (bytes : List Byte) : List Byte := magic ++ bytes

/-! ### WellFormed: an ill-formed term for each check -/

theorem test_format_zero_field_refused : (FormatC.mk 1 false 1).wellFormed = false := by decide
theorem test_format_op_zero_refused : (FormatC.mk 0 false 0).wellFormed = false := by decide
theorem test_format_op_nine_refused : (FormatC.mk 9 false 0).wellFormed = false := by decide
theorem test_format_mode_refused :
    (FormatC.mk 1 true 0).wellFormed = false ∧ (FormatC.mk 2 true 0).wellFormed = false ∧
      (FormatC.mk 6 true 0).wellFormed = false := by decide
theorem test_caps_pix_refused : (Caps.mk (2 ^ 32 + 1) 12 0 0).wellFormed = false := by decide
theorem test_caps_frm_low_refused : (Caps.mk 0 11 0 0).wellFormed = false := by decide
theorem test_caps_frm_high_refused : (Caps.mk 0 (2 ^ 32) 0 0).wellFormed = false := by decide
theorem test_caps_pay_refused : (Caps.mk 0 12 (2 ^ 32) 0).wellFormed = false := by decide
theorem test_caps_nam_refused : (Caps.mk 0 12 0 (2 ^ 32)).wellFormed = false := by decide
theorem test_caps_bounds_accepted :
    (Caps.mk (2 ^ 32) 12 0 0).wellFormed = true ∧
      (Caps.mk 0 (2 ^ 32 - 1) (2 ^ 32 - 1) (2 ^ 32 - 1)).wellFormed = true := by decide

/-! ### Decode: every command's word of R92, written out bit by bit -/

theorem test_decode_unpack : decode 0b00000000000000000000000000000001#32 = .ok .unpack := rfl
theorem test_decode_pack : decode 0b00000000000000000000000000000010#32 = .ok .pack := rfl
theorem test_decode_buildF : decode 0b00000000000000000000000000000011#32 = .ok .buildF := rfl
theorem test_decode_buildM : decode 0b00000000000000000000000000010011#32 = .ok .buildM := rfl
theorem test_decode_hdecF : decode 0b00000000000000000000000000000100#32 = .ok .hdecF := rfl
theorem test_decode_hdecM : decode 0b00000000000000000000000000010100#32 = .ok .hdecM := rfl
theorem test_decode_parseF : decode 0b00000000000000000000000000000101#32 = .ok .parseF := rfl
theorem test_decode_parseM : decode 0b00000000000000000000000000010101#32 = .ok .parseM := rfl
theorem test_decode_embed : decode 0b00000000000000000000000000000110#32 = .ok .embed := rfl
theorem test_decode_extractF : decode 0b00000000000000000000000000000111#32 = .ok .extractF := rfl
theorem test_decode_extractM : decode 0b00000000000000000000000000010111#32 = .ok .extractM := rfl
theorem test_decode_encodeF : decode 0b00000000000000000000000000001000#32 = .ok .encodeF := rfl
theorem test_decode_encodeM : decode 0b00000000000000000000000000011000#32 = .ok .encodeM := rfl

/-- Illegal words of section 2.6, by the reason R95 gives. -/
theorem test_decode_illegal :
    decode 0x00000000#32 = .error .opNotAssigned ∧ decode 0x0000000F#32 = .error .opNotAssigned ∧
    decode 0x00000010#32 = .error .opNotAssigned ∧ decode 0x0000001F#32 = .error .opNotAssigned ∧
    decode 0x00000011#32 = .error .modeBitNotAllowed ∧ decode 0x00000012#32 = .error .modeBitNotAllowed ∧
    decode 0x00000016#32 = .error .modeBitNotAllowed ∧ decode 0x00000020#32 = .error .zeroFieldNotZero ∧
    decode 0x80000001#32 = .error .zeroFieldNotZero ∧ decode 0xFFFFFFFF#32 = .error .zeroFieldNotZero :=
  ⟨rfl, rfl, rfl, rfl, rfl, rfl, rfl, rfl, rfl, rfl⟩

theorem test_decodeTableWord : decodeTableWord 32 0x18 = some .encodeM ∧ decodeTableWord 32 0x16 = none := ⟨rfl, rfl⟩

/-! ### One step -/

/-- The word that `withFetchWord` places is the command that the next step runs. -/
theorem test_withFetchWord_runs :
    step (State.reset.withFetchWord 32 0x01) = exec .unpack (State.reset.withFetchWord 32 0x01) := rfl

/-- T24c. -/
theorem test_unpack : (after .unpack { small with byte := 0x53, bsq := ⟨0xFFFF, 31⟩ }).readReg .bsq = 0x00080053 ∧
    (after .unpack { small with byte := 0x53, bsq := ⟨0xFFFF, 31⟩ }).readReg .status = 0x00000002 := by decide

/-- T25b. -/
theorem test_pack : (after .pack { small with byte := 0x53, bsq := ⟨0xFF01, 8⟩ }).byte = 0x01 := by decide

/-- T25g. -/
theorem test_pack_count : (after .pack { small with byte := 0x53, bsq := ⟨0x00CA, 9⟩ }).readReg .status = 0x00000702 ∧
    (after .pack { small with byte := 0x53, bsq := ⟨0x00CA, 9⟩ }).einfo = 9 := by decide

/-- T26b. -/
theorem test_buildF : frame (after .buildF startV1) 19 = frameV1 ∧ (after .buildF startV1).flen = 19 := by
  decide +kernel

/-- T26j. -/
theorem test_buildF_too_large :
    (after .buildF { small with nlenHi := 1, plenHi := 1 }).readReg .status = 0x00000402 ∧
      (after .buildF { small with nlenHi := 1, plenHi := 1 }).einfo = 3 := by decide +kernel

/-- T26c: NLEN = 5 is ignored. -/
theorem test_buildM : frame (after .buildM startV1) 10 = withMagic [2, 0, 0, 0, 0x48, 0x49] ∧
    (after .buildM startV1).flen = 10 := by decide +kernel

/-- T26v in a smaller memory: payload and header one byte too long for FRM, payload too long for PAY. -/
theorem test_buildM_limit : (after .buildM { small with plenLo := 17 }).readReg .status = 0x00000902 ∧
    (after .buildM { small with plenLo := 17 }).einfo = 6 := by decide +kernel

/-- T27a. -/
theorem test_hdecF : (after .hdecF (holding frameV1 0)).readReg .status = 0x00000006 ∧
    (after .hdecF (holding frameV1 0)).rnlen = 5 ∧ (after .hdecF (holding frameV1 0)).rplen = 2 ∧
    (after .hdecF (holding frameV1 0)).rtot = 19 := by decide +kernel

/-- T27d: RTOT has 34 bits. -/
theorem test_hdecF_largest :
    (after .hdecF (holding (withMagic (List.replicate 8 0xFF)) 0)).readReg .rtotHi = 2 ∧
      (after .hdecF (holding (withMagic (List.replicate 8 0xFF)) 0)).readReg .rtotLo = 0x0000000A := by decide +kernel

/-- T27h. -/
theorem test_hdecM : (after .hdecM (holding (withMagic [0x78, 0x56, 0x34, 0x12]) 0)).rplen = 0x12345678 ∧
    (after .hdecM (holding (withMagic [0x78, 0x56, 0x34, 0x12]) 0)).rtot = 0x12345680 := by decide +kernel

/-- T27i. -/
theorem test_hdecM_magic :
    (after .hdecM (holding [0x53, 0x54, 0x45, 0x48, 0, 0, 0, 0] 0)).readReg .status = 0x00000102 ∧
      (after .hdecM (holding [0x53, 0x54, 0x45, 0x48, 0, 0, 0, 0] 0)).einfo = 0x48455453 := by decide +kernel

/-- T28a. -/
theorem test_parseF : (after .parseF (holding frameV1 19)).readReg .status = 0x00000006 ∧
    (after .parseF (holding frameV1 19)).rtot = 19 := by decide +kernel

/-- T28n. -/
theorem test_parseF_name :
    (after .parseF (holding (withMagic [3, 0, 0, 0, 1, 0, 0, 0, 0x61, 0xFF, 0x62, 0]) 16)).readReg .status =
        0x00000502 ∧
      (after .parseF (holding (withMagic [3, 0, 0, 0, 1, 0, 0, 0, 0x61, 0xFF, 0x62, 0]) 16)).einfo = 1 := by
  decide +kernel

/-- T29f: a file-mode frame read in the wrong mode. -/
theorem test_parseM : (after .parseM (holding frameV1 13)).readReg .status = 0x00000002 ∧
    (after .parseM (holding frameV1 13)).rplen = 5 ∧ (after .parseM (holding frameV1 13)).rtot = 13 := by
  decide +kernel

/-- T29c. -/
theorem test_parseM_short : (after .parseM (holding frameV1 7)).readReg .status = 0x00000702 ∧
    (after .parseM (holding frameV1 7)).einfo = 8 := by decide +kernel

/-- T33a: row-major. -/
theorem test_embed :
    (after .embed (onGrid 2 4 false (List.replicate 9 0xFF000000#32) (holding [0x53] 1))).pix =
        load [0xFF000000, 0xFF000000, 0xFF000000, 0xF7000000, 0xF7000000, 0xFF000000, 0xF7000000, 0xF7000000,
          0xFF000000] ∧
      cursorOf (after .embed (onGrid 2 4 false (List.replicate 9 0xFF000000#32) (holding [0x53] 1))) =
        [8, 2, 0, 1, 0] := by decide +kernel

/-- R162: an empty frame on a grid larger than PIX; the cursor stood elsewhere. -/
def emptyEmbed : State :=
  { small with width := 170, height := 1, cursor := ⟨9, 9, 0, 1, 1⟩, pix := load [0x12345678] }

/-- T34: every other bit of a word is kept; and R162, the empty frame. -/
theorem test_embed_keeps_bits_and_empty :
    (after .embed (onGrid 1 8 true [0x00000000, 0x08000000, 0x12345678, 0xFFFFFFFF, 0xF7FFFFFF, 0x80000000, 0x07FFFFFF,
        0xDEADBEEF, 0x11111111] (holding [0xA5] 1))).pix =
      load [0x08000000, 0x00000000, 0x1A345678, 0xF7FFFFFF, 0xF7FFFFFF, 0x88000000, 0x07FFFFFF, 0xDEADBEEF,
        0x11111111] ∧
    (after .embed emptyEmbed).readReg .status = 0x00000002 ∧ (after .embed emptyEmbed).pix = emptyEmbed.pix ∧
    (after .embed emptyEmbed).cursor = Cursor.start := by decide +kernel

/-- T45f: the name byte is read from the carrier and is not UTF-8. -/
def startT45f : State :=
  onGrid 13 8 true (carrying (withMagic [1, 0, 0, 0, 0, 0, 0, 0]) ++ List.replicate 8 0xFF000000#32) small

theorem test_extractF : (after .extractF startT45f).readReg .status = 0x00000502 ∧
    cursorOf (after .extractF startT45f) = [104, 13, 0, 13, 0] ∧ (after .extractF startT45f).flen = 0 := by
  decide +kernel

/-- T40. -/
theorem test_extractF_magic :
    (after .extractF (onGrid 10 10 false (List.replicate 100 0) { small with flen := 0x55 })).readReg .status =
        0x00000102 ∧
      cursorOf (after .extractF (onGrid 10 10 false (List.replicate 100 0) { small with flen := 0x55 })) =
        [96, 9, 6, 12, 0] := by decide +kernel

/-- Step 18 of P2: the frame of T60 in a column-major grid of 9 by 8. -/
def startP2 : State := onGrid 9 8 true (carrying (withMagic [1, 0, 0, 0, 0x41])) small

theorem test_extractM : (after .extractM startP2).readReg .status = 0x00000002 ∧ (after .extractM startP2).flen = 9 ∧
    (after .extractM startP2).rplen = 1 ∧ frame (after .extractM startP2) 9 = withMagic [1, 0, 0, 0, 0x41] := by
  decide +kernel

/-- T44c: a grid too small for the header. -/
theorem test_extractM_short :
    (after .extractM (onGrid 7 9 false (List.replicate 63 0xFF000000#32) small)).readReg .status = 0x00000302 ∧
      cursorOf (after .extractM (onGrid 7 9 false (List.replicate 63 0xFF000000#32) small)) = [63, 7, 0, 7, 7] := by
  decide +kernel

/-- V1a, with its spot checks. -/
theorem test_encodeF : (after .encodeF startV1).readReg .status = 0x00000002 ∧
    frame (after .encodeF startV1) 19 = frameV1 ∧ cursorOf (after .encodeF startV1) = [152, 11, 9, 19, 0] ∧
    [0, 1, 13, 115, 128].map (after .encodeF startV1).pixAt =
      [0xFF336699, 0xF7336699, 0xFF336699, 0xF7336699, 0xFF336699] := by decide +kernel

/-- T66 with a smaller grid: the frame is built, no pixel is touched. -/
theorem test_encodeF_capacity :
    (after .encodeF { startV1 with width := 12, height := 12 }).readReg .status = 0x00000202 ∧
      (after .encodeF { startV1 with width := 12, height := 12 }).einfo = 152 ∧
      (after .encodeF { startV1 with width := 12, height := 12 }).flen = 19 := by decide +kernel

/-- T60, rows 0 and 8 of the table: byte 0x41 in column 8. -/
theorem test_encodeM :
    (([0, 1, 2, 3, 4, 5, 6, 7, 8].map
        (after .encodeM { onGrid 9 8 false (List.replicate 72 0xFF000000#32) small with
          plenLo := 1, pay := load [0x41] }).pixAt).map getDB) =
      [true, false, true, true, true, false, false, false, true] := by decide +kernel

/-- Step 9 of P3. -/
theorem test_encodeM_capacity :
    (after .encodeM { onGrid 7 9 false (List.replicate 63 0xFF000000#32) small with
        plenLo := 1, pay := load [0x41] }).readReg .status = 0x00000202 ∧
      (after .encodeM { onGrid 7 9 false (List.replicate 63 0xFF000000#32) small with
        plenLo := 1, pay := load [0x41] }).einfo = 72 := by decide +kernel

/-! ### Functions -/

/-- T30a. -/
theorem test_utf8_valid :
    [[], [0x61], [0x00], [0x7F], [0xC2, 0x80], [0xDF, 0xBF], [0xE0, 0xA0, 0x80], [0xE2, 0x82, 0xAC], [0xED, 0x9F, 0xBF],
      [0xEE, 0x80, 0x80], [0xEF, 0xBF, 0xBF], [0xF0, 0x90, 0x80, 0x80], [0xF4, 0x8F, 0xBF, 0xBF],
      [0x61, 0xC3, 0xA9, 0xE2, 0x82, 0xAC, 0xF0, 0x9F, 0x98, 0x80]].all (fun bs => utf8FirstBad bs == none) = true := by
  decide +kernel

/-- T30b. -/
theorem test_utf8_bad_at_0 :
    [[0x80], [0xBF], [0xC0, 0x80], [0xC1, 0xBF], [0xC2], [0xC2, 0x7F], [0xC2, 0xC0], [0xE0, 0x80, 0x80],
      [0xE0, 0x9F, 0xBF], [0xE0, 0xA0], [0xE2, 0x28, 0xA1], [0xED, 0xA0, 0x80], [0xF0, 0x8F, 0xBF, 0xBF],
      [0xF0, 0x90, 0x80], [0xF4, 0x90, 0x80, 0x80], [0xF5, 0x80, 0x80, 0x80], [0xFE], [0xFF]].all
      (fun bs => utf8FirstBad bs == some 0) = true := by decide +kernel

/-- T30c, T30d, T30e. -/
theorem test_utf8_bad_later : utf8FirstBad [0x61, 0xE2, 0x82] = some 1 ∧ utf8FirstBad [0xC3, 0xA9, 0xC3] = some 2 ∧
    utf8FirstBad [0x61, 0xC3, 0xA9, 0x62, 0xFF] = some 4 := by decide +kernel

/-- T31. -/
theorem test_setDB : setDB 0x12345678 true = 0x1A345678 ∧ setDB 0x1A345678 false = 0x12345678 ∧
    setDB 0xF7FFFFFF true = 0xFFFFFFFF ∧ getDB 0x04000000 = false ∧ getDB 0x08000000 = true := by decide

/-- T32a and T32c. -/
theorem test_addresses : (List.range 6).map (Grid.addrOf ⟨3, 2, false⟩) = [0, 3, 1, 4, 2, 5] ∧
    Grid.addrOf ⟨13, 13, false⟩ 151 = 115 ∧ Grid.addrOf ⟨13, 13, true⟩ 152 = 152 := by decide

/-! ### The host's ports -/

/-- A state whose next event is a port operation. -/
def nextOp (op : HostOp) (s : State) : State := { s with inputs := [{ event := .host op, whileBusy := false }] }

/-- The state one step leads to. -/
def stepped (s : State) : State :=
  match step s with
  | .next t => t
  | _ => s

/-- T2 and T6. -/
theorem test_reserved_bits_read_zero : (stepped (nextOp (.regWrite 0x0C 0x00012345) small)).readReg .width = 0x2345 ∧
    (stepped (nextOp (.regWrite 0x2C 0xFFFFFFFF) small)).readReg .bsq = 0x001FFFFF := by decide

/-- T13: no aliasing above 0xFF. -/
theorem test_no_aliasing : stepped (nextOp (.regWrite 0x10C 7) small) = small := by decide +kernel

/-- T16. -/
theorem test_status_write :
    (stepped (nextOp (.regWrite 0x04 0x00000F04) { small with status := ⟨false, false, false, 8⟩ })).readReg .status =
      0x00000800 := by decide

/-- T18: the interrupt output is DONE and IE. -/
theorem test_irq : (after .unpack { small with ctrl := ⟨true, false⟩ }).irq = true := by decide

/-- R73: a STATUS read of a busy core. -/
theorem test_busy_status :
    (stepped { small with
      status := ⟨true, false, false, 0⟩
      inputs := [{ event := .host (.regRead 0x04), whileBusy := true }] }).replies = [.word 1] := by decide

/-- R210: a CMD write while `rst` is asserted starts nothing; the release leaves the core idle. -/
theorem test_held_reset :
    (stepped (nextOp (.regWrite 0x00 1) { small with rst := true })).readReg .status = 0 ∧
      (stepped { small with
        rst := true, inputs := [{ event := .rst false, whileBusy := false }] }).rst = false := by decide

/-- R210: asserting `rst` during a command abandons it and clears the registers. -/
theorem test_reset_while_busy :
    (stepped { small with
      status := ⟨true, false, false, 0⟩, width := 5
      inputs := [{ event := .rst true, whileBusy := true }] }).readReg .status = 0 ∧
    (stepped { small with
      status := ⟨true, false, false, 0⟩, width := 5
      inputs := [{ event := .rst true, whileBusy := true }] }).width = 0 := by decide

/-- Statement 8 of P1 and `wr64`. -/
theorem test_script : Stmt.arrivals (.cmd .encodeF) = [idleOp (.regWrite 0x00 0x00000008)] ∧
    Stmt.arrivals (.wr64 .nlen 5) = [idleOp (.regWrite 0x1C 5), idleOp (.regWrite 0x20 0)] ∧
    Stmt.arrivals (.fill 0 2 7) = [idleOp (.pixWrite 0 7), idleOp (.pixWrite 1 7), idleOp (.pixWrite 2 7)] := by decide

/-! ### Witnesses: states that meet the hypotheses of the statements -/

/-- A busy state with nothing to come. -/
def busy : State := { small with status := ⟨true, false, false, 0⟩ }

/-- A busy state whose next event lands while the command runs. -/
def busyOpState (op : HostOp) : State := { busy with inputs := [{ event := .host op, whileBusy := true }] }

theorem witness_idle_move (op : HostOp) : HostMovesIdle (nextOp op small) op [] := ⟨rfl, rfl, false, rfl⟩

theorem witness_busy_move (op : HostOp) : HostMovesBusy (busyOpState op) op [] := ⟨rfl, rfl, rfl⟩

/-- A held state whose next event is a port operation. -/
def heldOpState (op : HostOp) : State := nextOp op { small with rst := true }

theorem witness_held_move (op : HostOp) : HostMovesHeld (heldOpState op) op [] := ⟨rfl, false, rfl⟩

/-- A state whose next event is a change of `rst` that may land during a command. -/
def nextRst (asserted : Bool) (s : State) : State := { s with inputs := [{ event := .rst asserted, whileBusy := true }] }

/-- Asserting `rst` during a command, releasing it, and a release of a line that is not asserted. -/
theorem witness_ResetLeavesEveryRegisterZero :
    ((nextRst true busy).inputs = { event := .rst true, whileBusy := true } :: [] ∧
      ((nextRst true busy).rst = false → (nextRst true busy).status.busy = true → true = true)) ∧
    ((nextRst false (heldOpState (.regRead 0))).inputs = { event := .rst false, whileBusy := true } :: [] ∧
      (heldOpState (.regRead 0)).rst = true) ∧
    (nextRst false small).rst = false := ⟨⟨rfl, fun _ _ => rfl⟩, ⟨rfl, rfl⟩, rfl⟩

theorem witness_AssertedResetHoldsTheCore : HostMovesHeld (heldOpState (.regWrite 0x00 1)) (.regWrite 0x00 1) [] ∧
    HostMovesHeld (heldOpState (.namWrite 7 1)) (.namWrite 7 1) [] ∧
    HostMovesHeld (heldOpState (.regRead 0x58)) (.regRead 0x58) [] ∧ HeldInReset (heldOpState (.regRead 0x58)) ∧
    HostMovesHeld (heldOpState (.pixRead 168)) (.pixRead 168) [] :=
  ⟨witness_held_move _, witness_held_move _, witness_held_move _, fun _ => rfl, witness_held_move _⟩

theorem witness_AssertedResetHoldsTheCore_step : ({ small with rst := true } : State).inputs = [] ∧
    HeldInReset { small with rst := true } ∧ (∃ t, step { small with rst := true } = .next t) ∧
    ∃ t, step (nextRst false (heldOpState (.regRead 0))) = .next t ∧ t.rst = false :=
  ⟨rfl, fun _ => rfl, ⟨_, rfl⟩, ⟨_, rfl, rfl⟩⟩

theorem witness_StepRunsLatchedCommand : (State.reset.withFetchWord 32 0x18).rst = false ∧
    (State.reset.withFetchWord 32 0x18).status.busy = true ∧
    noBusyArrival (State.reset.withFetchWord 32 0x18) = true ∧
    decode (State.reset.withFetchWord 32 0x18).cmdw = .ok .encodeM := ⟨rfl, rfl, rfl, rfl⟩

theorem witness_CmdWriteStartsCommand :
    HostMovesIdle (nextOp (.regWrite 0x00 1) small) (.regWrite 0x00 1) [] := witness_idle_move _

/-- One illegal word for each of the four conditions of R95. -/
theorem witness_IllegalWord : IllegalWord 0x20 ∧ IllegalWord 0 ∧ IllegalWord 9 ∧ IllegalWord 0x16 :=
  ⟨.inl (by decide), .inr (.inl (by decide)), .inr (.inr (.inl (by decide))),
    .inr (.inr (.inr ⟨by decide, .inr (.inr (by decide))⟩))⟩

theorem witness_IllegalWordEndsWithIllegalCommand :
    HostMovesIdle (nextOp (.regWrite 0x00 0x11) small) (.regWrite 0x00 0x11) [] ∧
      noBusyArrival { nextOp (.regWrite 0x00 0x11) small with inputs := [] } = true ∧ IllegalWord 0x11 :=
  ⟨witness_idle_move _, rfl, .inr (.inr (.inr ⟨by decide, .inl (by decide)⟩))⟩

/-- The lowest and the highest offset that a clause writes; the others have the same move. -/
theorem witness_RegisterMapAsTabled :
    HostMovesIdle (nextOp (.regWrite 0x08 3) small) (.regWrite 0x08 3) [] ∧
      HostMovesIdle (nextOp (.regWrite 0x2C 0x001FFFFF) small) (.regWrite 0x2C 0x001FFFFF) [] :=
  ⟨witness_idle_move _, witness_idle_move _⟩

theorem witness_RegisterReadsBackItsUsedBits : isReadWrite .bsq = true ∧
    HostMovesIdle (nextOp (.regWrite (Machine.Reg.offset .bsq) 0xFFFFFFFF) small)
      (.regWrite (Machine.Reg.offset .bsq) 0xFFFFFFFF) [] := ⟨rfl, witness_idle_move _⟩

theorem witness_IgnoredRegisterAccesses_readOnly : isReadOnly .biti = true ∧
    HostMovesIdle (nextOp (.regWrite (Machine.Reg.offset .biti) 5) small)
      (.regWrite (Machine.Reg.offset .biti) 5) [] := ⟨rfl, witness_idle_move _⟩

/-- The first reserved offset and an offset that is no multiple of 4. -/
theorem witness_IgnoredRegisterAccesses_noRegister :
    ((0x5C % 4 ≠ 0 ∨ 0x5C ≤ 0x5C) ∧ HostMovesIdle (nextOp (.regWrite 0x5C 7) small) (.regWrite 0x5C 7) []) ∧
      ((0x59 % 4 ≠ 0 ∨ 0x5C ≤ 0x59) ∧ HostMovesIdle (nextOp (.regRead 0x59) small) (.regRead 0x59) []) :=
  ⟨⟨by decide, witness_idle_move _⟩, ⟨by decide, witness_idle_move _⟩⟩

theorem witness_StatusWriteClearsDoneOnly :
    HostMovesIdle (nextOp (.regWrite 0x04 2) small) (.regWrite 0x04 2) [] ∧ (2#32).getLsbD 1 = true ∧
      HostMovesIdle (nextOp (.regWrite 0x00 1) small) (.regWrite 0x00 1) [] :=
  ⟨witness_idle_move _, by decide, witness_idle_move _⟩

/-- A CTRL write while DONE = 1. -/
theorem witness_StatusWriteClearsDoneOnly_irq :
    HostMovesIdle (nextOp (.regWrite 0x08 1) { small with status := ⟨false, true, false, 0⟩ }) (.regWrite 0x08 1) [] ∧
      (nextOp (.regWrite 0x08 1) { small with status := ⟨false, true, false, 0⟩ }).status.done = true :=
  ⟨⟨rfl, rfl, false, rfl⟩, rfl⟩

/-- The last index of each memory; `nextOp` gives the move. -/
theorem witness_PortWriteStoresOneUnit : MemoriesOk (nextOp (.pixWrite 168 7) small) ∧
    168 < (nextOp (.pixWrite 168 7) small).caps.pixWords ∧ 23 < (nextOp (.frmWrite 23 7) small).caps.frmBytes ∧
    7 < (nextOp (.payWrite 7 7) small).caps.payBytes ∧ 7 < (nextOp (.namWrite 7 7) small).caps.namBytes :=
  ⟨⟨⟨List.Pairwise.nil, nofun⟩, ⟨List.Pairwise.nil, nofun⟩, ⟨List.Pairwise.nil, nofun⟩, ⟨List.Pairwise.nil, nofun⟩⟩,
    by decide, by decide, by decide, by decide⟩

theorem witness_PortReadReturnsTheUnit_register :
    HostMovesIdle (nextOp (.regRead (Machine.Reg.offset .status)) small) (.regRead (Machine.Reg.offset .status)) [] :=
  witness_idle_move _

theorem witness_PortReadReturnsTheUnit : 168 < (nextOp (.pixRead 168) small).caps.pixWords ∧
    23 < (nextOp (.frmRead 23) small).caps.frmBytes ∧ 7 < (nextOp (.payRead 7) small).caps.payBytes ∧
    7 < (nextOp (.namRead 7) small).caps.namBytes := by decide

/-- The first index outside each memory. -/
theorem witness_OutOfRangePortAccess : (nextOp (.pixRead 169) small).caps.pixWords ≤ 169 ∧
    (nextOp (.frmRead 24) small).caps.frmBytes ≤ 24 ∧ (nextOp (.payRead 8) small).caps.payBytes ≤ 8 ∧
    (nextOp (.namRead 8) small).caps.namBytes ≤ 8 := by decide

theorem witness_BusyHidesEverythingFromTheHost :
    HostMovesBusy (busyOpState (.regRead 0x04)) (.regRead 0x04) [] ∧ 0x00 ≠ 0x04 ∧
      HostMovesBusy (busyOpState (.regRead 0x00)) (.regRead 0x00) [] ∧
      HostMovesBusy (busyOpState (.regWrite 0x00 1)) (.regWrite 0x00 1) [] :=
  ⟨witness_busy_move _, by decide, witness_busy_move _, witness_busy_move _⟩

theorem witness_IdleCoreHoldsItsState : small.inputs = [] ∧ small.status.busy = false := ⟨rfl, rfl⟩

theorem witness_CommandEndsOnlyWithItsCodes : ∃ t, exec .unpack small = .next t := ⟨_, rfl⟩

theorem witness_ErrorCommitsNothing : ∃ t, exec .pack small = .next t ∧ t.status.err ≠ 0 := ⟨_, rfl, by decide⟩

theorem witness_ErrorCommitsNothing_extract :
    ∃ t, exec .extractM { small with width := 170, height := 1 } = .next t ∧ t.status.err ≠ 0 := ⟨_, rfl, by decide⟩

/-- A command that is none of the writers of a field, for each clause of the frame. -/
theorem witness_CommandFrame : ∃ t, exec .hdecF small = .next t ∧ Instr.hdecF ≠ .unpack ∧ Instr.hdecF ≠ .pack ∧
    Instr.hdecF ∉ [Instr.buildF, .buildM, .extractF, .extractM, .encodeF, .encodeM] ∧ isPass .hdecF = false ∧
    Instr.hdecF ∉ [Instr.embed, .encodeF, .encodeM] :=
  ⟨_, rfl, by decide, by decide, by decide, by decide, by decide⟩

theorem witness_OnlyTheDesignatedBitChanges : startV1.pix.wf ∧ ∃ t, exec .encodeF startV1 = .next t :=
  ⟨by decide +kernel, _, rfl⟩

theorem witness_PackResult : ({ small with bsq := ⟨0xCA, 8⟩ } : State).bsq.cnt = 8 ∧
    ({ small with bsq := ⟨0xCA, 9⟩ } : State).bsq.cnt ≠ 8 := by decide

theorem witness_BitCodecInverse : 7 < 8 ∧ (List.replicate 8 true).length = 8 ∧ (List.replicate 9 true).length ≠ 8 := by
  decide

theorem witness_LengthFieldsInverse : 2 ^ 32 - 1 < 2 ^ 32 := by decide

theorem witness_HeaderDecodeInvertsEncode : 2 ^ 32 - 1 < 2 ^ 32 ∧ (Mode.file = .message → 2 ^ 32 - 1 = 0) ∧
    0 < 2 ^ 32 ∧ (Mode.message = .message → 0 = 0) := by decide

/-- A name and a payload that fill FRM to its last byte. -/
def fullFrame : State :=
  { small with
    nlenLo := 4, nam := load [0x61, 0x62, 0x63, 0x64]
    plenLo := 8, pay := load [1, 2, 3, 4, 5, 6, 7, 8] }

theorem witness_BuildFits_file : BuildFits .file fullFrame ∧ fullFrame.frm.wf :=
  ⟨⟨by decide, by decide, by decide, by decide, by decide⟩, List.Pairwise.nil⟩

theorem witness_BuildFits_message : BuildFits .message fullFrame ∧ fullFrame.frm.wf :=
  ⟨⟨by decide, by decide, by decide, by decide, by decide⟩, List.Pairwise.nil⟩

theorem witness_BuildRefusesWhatDoesNotFit_length : 2 ^ 32 ≤ ({ small with nlenHi := 1 } : State).nameLen .file ∧
    2 ^ 32 ≤ ({ small with plenHi := 1 } : State).plen := by decide

theorem witness_BuildRefusesWhatDoesNotFit_memory : ({ fullFrame with nlenLo := 5 } : State).nameLen .file < 2 ^ 32 ∧
    ({ fullFrame with nlenLo := 5 } : State).plen < 2 ^ 32 ∧ ¬ BuildFits .file { fullFrame with nlenLo := 5 } :=
  ⟨by decide, by decide, fun h => absurd h.2.2.1 (by decide)⟩

theorem witness_Hdec : ((holding frameV1 0).frmAt 0 = 0x53 ∧ (holding frameV1 0).frmAt 1 = 0x54 ∧
      (holding frameV1 0).frmAt 2 = 0x45 ∧ (holding frameV1 0).frmAt 3 = 0x47) ∧
    ¬ ((holding [0, 0, 0, 0] 0).frmAt 0 = 0x53 ∧ (holding [0, 0, 0, 0] 0).frmAt 1 = 0x54 ∧
      (holding [0, 0, 0, 0] 0).frmAt 2 = 0x45 ∧ (holding [0, 0, 0, 0] 0).frmAt 3 = 0x47) := by decide +kernel

theorem witness_ParseAcceptsTheFrame_file : (holding frameV1 19).flen.toNat ≤ (holding frameV1 19).caps.frmBytes ∧
    hdrDecode .file (holding frameV1 19).frmAt = .ok ⟨5, 2, 19⟩ ∧ (holding frameV1 19).flen.toNat = 19 ∧
    (Mode.file = .file → utf8FirstBad (slice (holding frameV1 19).frmAt 12 5) = none) := by decide +kernel

theorem witness_ParseAcceptsTheFrame_message : (holding frameV1 13).flen.toNat ≤ (holding frameV1 13).caps.frmBytes ∧
    hdrDecode .message (holding frameV1 13).frmAt = .ok ⟨0, 5, 13⟩ ∧ (holding frameV1 13).flen.toNat = 13 ∧
    (Mode.message = .file → utf8FirstBad (slice (holding frameV1 13).frmAt 12 0) = none) := by decide +kernel

/-- FLEN one above FRM, one below the header, and a frame without the magic. -/
theorem witness_ParseRefusalsInOrder_first : (holding [] 25).caps.frmBytes < (holding [] 25).flen.toNat ∧
    (holding [] 11).flen.toNat ≤ (holding [] 11).caps.frmBytes ∧ (holding [] 11).flen.toNat < headerSize .file ∧
    headerSize .message ≤ (holding [0, 0, 0, 0] 8).flen.toNat ∧
    hdrDecode .message (holding [0, 0, 0, 0] 8).frmAt = .magicBad 0 := by decide +kernel

/-- A length that is not the total, and a name that is not UTF-8. -/
theorem witness_ParseRefusalsInOrder_then : hdrDecode .file (holding frameV1 20).frmAt = .ok ⟨5, 2, 19⟩ ∧
    (holding frameV1 20).flen.toNat ≠ 19 ∧
    hdrDecode .file (holding (withMagic [1, 0, 0, 0, 0, 0, 0, 0, 0x80]) 13).frmAt = .ok ⟨1, 0, 13⟩ ∧
    (holding (withMagic [1, 0, 0, 0, 0, 0, 0, 0, 0x80]) 13).flen.toNat = 13 ∧
    utf8FirstBad (slice (holding (withMagic [1, 0, 0, 0, 0, 0, 0, 0, 0x80]) 13).frmAt 12 1) = some 0 := by
  decide +kernel

theorem witness_Utf8FirstBadIsTheFirst : utf8FirstBad [0x61, 0x80] = some 1 := by decide +kernel

theorem witness_PixelAddressesAreABijection : 5 < (Grid.mk 3 2 true).pixels ∧ (Grid.mk 3 2 true).columnMajor = true ∧
    (Grid.mk 3 2 false).addrOf 5 = (Grid.mk 3 2 false).addrOf 5 := by decide

theorem witness_CursorCountsTheTraversal : 6 ≤ (Grid.mk 3 2 false).pixels ∧ 0 ≤ (Grid.mk 0 0 false).pixels := by decide

/-- One frame byte on exactly eight pixels. -/
def exactEmbed : State := onGrid 2 4 false (List.replicate 8 0xFF000000#32) (holding [0x53] 1)

theorem witness_EmbedWritesTheFrameBits : exactEmbed.pix.wf ∧ 8 * exactEmbed.flen.toNat ≤ exactEmbed.grid.pixels ∧
    (exactEmbed.flen = 0 ∨
      (exactEmbed.grid.pixels ≤ exactEmbed.caps.pixWords ∧ exactEmbed.flen.toNat ≤ exactEmbed.caps.frmBytes)) ∧
    7 < 8 * exactEmbed.flen.toNat := by decide +kernel

/-- No frame, on a grid of one pixel more than PIX; a witness of `EmbedRefusesWhatDoesNotFit` too. -/
theorem witness_EmbedWritesTheFrameBits_empty : emptyEmbed.pix.wf ∧
    8 * emptyEmbed.flen.toNat ≤ emptyEmbed.grid.pixels ∧ emptyEmbed.flen = 0 ∧
    emptyEmbed.caps.pixWords < emptyEmbed.grid.pixels := by decide +kernel

theorem witness_EmbedRefusesWhatDoesNotFit :
    ({ exactEmbed with height := 3 } : State).grid.pixels < 8 * ({ exactEmbed with height := 3 } : State).flen.toNat ∧
      8 * ({ exactEmbed with width := 170 } : State).flen.toNat ≤ ({ exactEmbed with width := 170 } : State).grid.pixels ∧
      ({ exactEmbed with width := 170 } : State).flen ≠ 0 ∧
      ({ exactEmbed with width := 170 } : State).caps.pixWords < ({ exactEmbed with width := 170 } : State).grid.pixels ∧
      8 * ({ exactEmbed with width := 50, flen := 25 } : State).flen.toNat ≤
        ({ exactEmbed with width := 50, flen := 25 } : State).grid.pixels ∧
      ({ exactEmbed with width := 50, flen := 25 } : State).caps.frmBytes <
        ({ exactEmbed with width := 50, flen := 25 } : State).flen.toNat := by decide +kernel

theorem witness_EmbedTwiceIsEmbedOnce : exactEmbed.pix.wf ∧ ∃ t, exec .embed exactEmbed = .next t :=
  ⟨by decide +kernel, _, rfl⟩

/-- A header-only frame on exactly its pixels, in each mode. -/
def exactFile : State := onGrid 12 8 true (carrying (withMagic [0, 0, 0, 0, 0, 0, 0, 0])) small
def exactMessage : State := onGrid 8 8 true (carrying (withMagic [0, 0, 0, 0])) small

theorem witness_ExtractRecoversAWholeFrame_file : exactFile.frm.wf ∧ exactFile.caps.wellFormed = true ∧
    exactFile.grid.pixels ≤ exactFile.caps.pixWords ∧ hdrDecode .file (assembledByte exactFile) = .ok ⟨0, 0, 12⟩ ∧
    8 * 12 ≤ exactFile.grid.pixels ∧ 12 ≤ exactFile.caps.frmBytes ∧
    (Mode.file = .file → utf8FirstBad (slice (assembledByte exactFile) 12 0) = none) := by decide +kernel

theorem witness_ExtractRecoversAWholeFrame_message : exactMessage.frm.wf ∧ exactMessage.caps.wellFormed = true ∧
    exactMessage.grid.pixels ≤ exactMessage.caps.pixWords ∧
    hdrDecode .message (assembledByte exactMessage) = .ok ⟨0, 0, 8⟩ ∧ 8 * 8 ≤ exactMessage.grid.pixels ∧
    8 ≤ exactMessage.caps.frmBytes ∧
    (Mode.message = .file → utf8FirstBad (slice (assembledByte exactMessage) 12 0) = none) := by decide +kernel

theorem witness_ExtractRefusesAGridBeyondPix :
    ({ small with width := 170, height := 1 } : State).caps.pixWords <
      ({ small with width := 170, height := 1 } : State).grid.pixels := by decide

theorem witness_ExtractTruncatedBeforeTheHeader : small.frm.wf ∧ small.caps.wellFormed = true ∧
    ({ small with width := 95, height := 1 } : State).grid.pixels ≤ small.caps.pixWords ∧
    ({ small with width := 95, height := 1 } : State).grid.pixels < 8 * headerSize .file := by decide

theorem witness_ExtractRejectsAWrongMagic :
    8 * headerSize .message ≤ (onGrid 8 8 true (carrying (List.replicate 8 0xFF)) small).grid.pixels ∧
      (onGrid 8 8 true (carrying (List.replicate 8 0xFF)) small).grid.pixels ≤
        (onGrid 8 8 true (carrying (List.replicate 8 0xFF)) small).caps.pixWords ∧
      (onGrid 8 8 true (carrying (List.replicate 8 0xFF)) small).caps.wellFormed = true ∧
      (onGrid 8 8 true (carrying (List.replicate 8 0xFF)) small).frm.wf ∧
      hdrDecode .message (assembledByte (onGrid 8 8 true (carrying (List.replicate 8 0xFF)) small)) =
        .magicBad 0xFFFFFFFF := by decide +kernel

/-- A header that declares one payload byte more than the grid holds. -/
def cutShort : State := onGrid 8 8 true (carrying (withMagic [1, 0, 0, 0])) small

theorem witness_ExtractTruncatedBeforeTheTotal : cutShort.frm.wf ∧ cutShort.caps.wellFormed = true ∧
    cutShort.grid.pixels ≤ cutShort.caps.pixWords ∧ 8 * headerSize .message ≤ cutShort.grid.pixels ∧
    hdrDecode .message (assembledByte cutShort) = .ok ⟨0, 1, 9⟩ ∧ cutShort.grid.pixels < 8 * 9 := by decide +kernel

/-- A frame of 13 bytes in front of an FRM of 12. -/
def beyondFrm : State :=
  { onGrid 13 8 true (carrying (withMagic [5, 0, 0, 0, 1, 2, 3, 4, 5])) small with caps := ⟨104, 12, 8, 8⟩ }

theorem witness_ExtractRefusesAFrameBeyondFrm : beyondFrm.frm.wf ∧ beyondFrm.caps.wellFormed = true ∧
    beyondFrm.grid.pixels ≤ beyondFrm.caps.pixWords ∧
    hdrDecode .message (assembledByte beyondFrm) = .ok ⟨0, 5, 13⟩ ∧ 8 * 13 ≤ beyondFrm.grid.pixels ∧
    beyondFrm.caps.frmBytes < 13 := by decide +kernel

theorem witness_ExtractRejectsABadName : startT45f.frm.wf ∧ startT45f.caps.wellFormed = true ∧
    startT45f.grid.pixels ≤ startT45f.caps.pixWords ∧ hdrDecode .file (assembledByte startT45f) = .ok ⟨1, 0, 13⟩ ∧
    8 * 13 ≤ startT45f.grid.pixels ∧ 13 ≤ startT45f.caps.frmBytes ∧
    utf8FirstBad (slice (assembledByte startT45f) 12 1) = some 0 := by decide +kernel

/-- Another PIX with the same designated bits in the pixels visited, which are all 64. -/
theorem witness_ExtractDependsOnVisitedBitsOnly : ∃ t, exec (extractOf .message) exactMessage = .next t ∧
    t.cursor.pidx.toNat = 64 ∧
    ∀ k, k < 64 → pixelBit { exactMessage with pix := exactMessage.pix.map (fun x => (x.1, x.2 ^^^ 1)) } k =
      pixelBit exactMessage k := ⟨_, rfl, by decide +kernel, by decide +kernel⟩

/-- A message-mode frame of 9 bytes on a grid of 9 by 8. -/
def embedding : State := onGrid 9 8 false (List.replicate 72 0) (holding (withMagic [1, 0, 0, 0, 0x41]) 9)

theorem witness_ExtractRecoversTheEmbeddedFrame : embedding.pix.wf ∧ embedding.caps.wellFormed = true ∧
    HoldsFrame .message 0 1 embedding.frmAt ∧ embedding.flen.toNat = headerSize .message + 0 + 1 ∧
    embedding.flen.toNat ≤ embedding.caps.frmBytes ∧ 8 * embedding.flen.toNat ≤ embedding.grid.pixels ∧
    embedding.grid.pixels ≤ embedding.caps.pixWords :=
  ⟨by decide +kernel, by decide, ⟨by decide, by decide, by decide, by decide +kernel, nofun⟩, by decide, by decide,
    by decide, by decide⟩

/-- The frame of V1 on a grid of 13 by 13. -/
theorem witness_HoldsFrame_file : HoldsFrame .file 5 2 (holding frameV1 19).frmAt :=
  ⟨by decide, by decide, by decide, by decide +kernel, by decide +kernel⟩

theorem witness_EncodeWritesFrameAndPixels : startV1.frm.wf ∧ startV1.pix.wf ∧ startV1.caps.wellFormed = true ∧
    BuildFits .file startV1 ∧
    8 * (headerSize .file + startV1.nameLen .file + startV1.plen) ≤ startV1.grid.pixels ∧
    startV1.grid.pixels ≤ startV1.caps.pixWords :=
  ⟨by decide, by decide +kernel, by decide, ⟨by decide, by decide, by decide, by decide, by decide⟩, by decide, by decide⟩

theorem witness_EncodeWritesFrameAndPixels_message : BuildFits .message startV1 ∧
    8 * (headerSize .message + startV1.nameLen .message + startV1.plen) ≤ startV1.grid.pixels :=
  ⟨⟨by decide, by decide, by decide, by decide, by decide⟩, by decide⟩

/-- A build that succeeds and one that fails. -/
theorem witness_EncodeIsBuildThenEmbed : (∃ t, exec (buildOf .file) startV1 = .next t ∧ t.status.err = 0) ∧
    ∃ t, exec (buildOf .file) { small with plenHi := 1 } = .next t ∧ t.status.err ≠ 0 :=
  ⟨⟨_, rfl, by decide +kernel⟩, ⟨_, rfl, by decide +kernel⟩⟩

/-- A grid one column too small, and one larger than PIX. -/
theorem witness_EncodeRefusesTheGrid : BuildFits .file { startV1 with width := 11 } ∧
    ({ startV1 with width := 11 } : State).grid.pixels < 8 * (12 + 5 + 2) ∧
    BuildFits .file { startV1 with width := 14 } ∧
    8 * (12 + 5 + 2) ≤ ({ startV1 with width := 14 } : State).grid.pixels ∧
    ({ startV1 with width := 14 } : State).caps.pixWords < ({ startV1 with width := 14 } : State).grid.pixels :=
  by unfold BuildFits; decide

theorem witness_EncodeThenExtractRoundTrip :
    (Mode.file = .file → utf8FirstBad (slice startV1.namAt 0 (startV1.nameLen .file)) = none) := by decide +kernel

/-- A state that meets the invariants and is not the reset state. -/
theorem witness_invariants : MemoriesOk exactEmbed ∧ ResultsOk exactEmbed ∧ CursorOk exactEmbed ∧
    ∃ t, step exactEmbed = .next t :=
  ⟨⟨⟨by decide +kernel, by decide +kernel⟩, ⟨by decide +kernel, by decide +kernel⟩, ⟨List.Pairwise.nil, nofun⟩,
      ⟨List.Pairwise.nil, nofun⟩⟩,
    ⟨by decide, by decide, by decide, by decide, by decide, by decide⟩, ⟨by decide, by decide⟩, _, rfl⟩

end Sys2Proof.Machine.Tests
end

section
/-! PROOFS. The scope statements: the reset state meets the invariants (R7, R42, R51, R211), and no step changes the
capacities (R7). -/

namespace Sys2Proof.Machine

/-! ### The reset state -/

/-- A memory in which nothing is written (R212) fits every space. -/
@[simp] theorem memoryOk_nil {w : Nat} (size : Nat) : memoryOk ([] : Memory w) size := ⟨List.Pairwise.nil, nofun⟩

theorem memoriesOk_reset : MemoriesOk State.reset :=
  ⟨memoryOk_nil _, memoryOk_nil _, memoryOk_nil _, memoryOk_nil _⟩

/-- No error and no results: every conjunct speaks of registers that are 0 (R211). -/
theorem resultsOk_reset : ResultsOk State.reset :=
  ⟨by decide, by decide, fun _ => rfl, fun h => absurd rfl h, by decide, .inl ⟨rfl, rfl, rfl⟩⟩

theorem cursorOk_reset : CursorOk State.reset := ⟨rfl, Nat.zero_le _⟩

/-- The invariant speaks of an asserted `rst` only (R210). -/
theorem heldInReset_of_released {s : State} (h : s.rst = false) : HeldInReset s :=
  fun hr => absurd hr (by simp [h])

/-- The four ranges of R7. -/
theorem caps_wellFormed_iff (c : Caps) : c.wellFormed = true ↔
    c.pixWords ≤ 2 ^ 32 ∧ (12 ≤ c.frmBytes ∧ c.frmBytes < 2 ^ 32) ∧ c.payBytes < 2 ^ 32 ∧ c.namBytes < 2 ^ 32 := by
  simp only [Caps.wellFormed, Caps.pixLegal, Caps.frmLegal, Caps.payLegal, Caps.namLegal, Bool.and_eq_true,
    decide_eq_true_eq, and_assoc]

/-- The constants of `Config` range over what R7 allows, by their types. -/
theorem config_caps_wellFormed : Config.caps.wellFormed = true := by
  have hpix := Config.pixWords.isLt
  have hfrm := Config.frmBytesAbove12.isLt
  have hpay := Config.payBytes.isLt
  have hnam := Config.namBytes.isLt
  rw [caps_wellFormed_iff]
  simp only [Config.caps]
  omega

/-- Settles O55: one lemma per invariant. -/
theorem resetMeetsTheInvariants : Obligations.ResetMeetsTheInvariants :=
  ⟨memoriesOk_reset, resultsOk_reset, cursorOk_reset, heldInReset_of_released rfl, config_caps_wellFormed⟩

/-! ### The capacities -/

/-- The end of a command, normal or by a raise, keeps the capacities its body has left. -/
theorem finish_caps_of_bodyDoes {i : Instr} {s : State} {b : Body} (h : BodyDoes i s b) : b.finish.caps = s.caps := by
  cases h with
  | raises => simp only [Body.finish, raise_caps]
  | ends => simp only [Body.finish, complete_caps]

theorem exec_caps {i : Instr} {s t : State} (h : exec i s = .next t) : t.caps = s.caps := by
  obtain ⟨b, hb, rfl⟩ := exec_does h
  rw [finish_caps_of_bodyDoes hb, prologue_caps]

@[simp] theorem illegalCommand_caps (c : Word) (s : State) : (illegalCommand c s).caps = s.caps := by
  simp only [illegalCommand, command, illegalBody, Body.finish, raise_caps, prologue_caps]

@[simp] theorem writeReg_caps (v : Word) (s : State) (r : Reg) : (s.writeReg v r).caps = s.caps := by
  cases r <;> rfl

@[simp] theorem writeOffset_caps (s : State) (off : Nat) (v : Word) : (s.writeOffset off v).caps = s.caps := by
  unfold State.writeOffset
  split
  · exact writeReg_caps v s _
  · rfl

@[simp] theorem hostIdle_caps (op : HostOp) (s : State) : (hostIdle op s).caps = s.caps := by
  cases op with
  | regRead | pixRead | frmRead | payRead | namRead => exact reply_caps _ s
  | regWrite off v => exact writeOffset_caps s off v
  | pixWrite | frmWrite | payWrite | namWrite => simp only [hostIdle]; split <;> rfl

@[simp] theorem hostBusy_caps (op : HostOp) (s : State) : (hostBusy op s).caps = s.caps := by
  obtain ⟨read, h⟩ := hostBusy_frame op s
  rw [h]

@[simp] theorem hostHeld_caps (op : HostOp) (s : State) : (hostHeld op s).caps = s.caps := by
  obtain ⟨read, h⟩ := hostHeld_frame op s
  rw [h]

@[simp] theorem setRst_caps (asserted : Bool) (s : State) : (setRst asserted s).caps = s.caps := by
  obtain h | ⟨-, -, h⟩ := setRst_cases asserted s
  · rw [h, resetState_caps]
  · rw [h]

/-- Settles O59: each of the moves that `step_cases` lists keeps the capacities. -/
theorem stepKeepsTheCapacities : Obligations.StepKeepsTheCapacities := by
  intro s t h
  obtain ⟨i, -, -, hexec⟩ | ⟨-, rfl⟩ | ⟨op, rest, -, -, rfl⟩ | ⟨op, rest, -, -, rfl⟩ | ⟨op, rest, -, rfl⟩ |
    ⟨asserted, rest, rfl⟩ | ⟨-, -, rfl⟩ := step_cases h
  · exact exec_caps hexec
  · exact illegalCommand_caps s.cmdw s
  · exact hostIdle_caps op _
  · exact hostBusy_caps op _
  · exact hostHeld_caps op _
  · exact setRst_caps asserted _
  · rfl

end Sys2Proof.Machine
end

section
/-! PROOFS. The invariants that every step keeps: the memories in their spaces (R46 to R49, R70), the results (R32 to
R35, R96, R129, R181) and the cursor (R36, R42). -/

namespace Sys2Proof.Machine

/-- The induction step of every invariant, packaged once over `step_cases`: an invariant that does not read the script
and the replies holds after every step when it holds after reset and is kept by a command, by an illegal word and by a
port operation with BUSY = 0. -/
theorem step_keeps {P : State → Prop}
    (script : ∀ s inputs replies, P s → P { s with inputs := inputs, replies := replies })
    (reset : ∀ asserted s, P (resetState asserted s))
    (command : ∀ i s t, exec i s = .next t → P s → P t)
    (illegal : ∀ c s, P s → P (illegalCommand c s))
    (port : ∀ op s, P s → P (hostIdle op s))
    {s t : State} (hs : P s) (h : step s = .next t) : P t := by
  have arrival : ∀ rest, P { s with inputs := rest } := fun rest => script s rest s.replies hs
  obtain ⟨i, -, -, hexec⟩ | ⟨-, rfl⟩ | ⟨op, rest, -, -, rfl⟩ | ⟨op, rest, -, -, rfl⟩ | ⟨op, rest, -, rfl⟩ |
    ⟨asserted, rest, rfl⟩ | ⟨-, -, rfl⟩ := step_cases h
  · exact command i s t hexec hs
  · exact illegal _ s hs
  · exact port op _ (arrival rest)
  · obtain ⟨read, e⟩ := hostBusy_frame op { s with inputs := rest }
    rw [e]
    exact script s rest read hs
  · obtain ⟨read, e⟩ := hostHeld_frame op { s with inputs := rest }
    rw [e]
    exact script s rest read hs
  · obtain e | ⟨-, -, e⟩ := setRst_cases asserted { s with inputs := rest } <;> rw [e]
    · exact reset asserted _
    · exact arrival rest
  · exact hs

/-- A host write of an offset either writes the register that stands there or does nothing (R21, R62, R70). -/
theorem writeOffset_cases (s : State) (off : Nat) (v : Word) :
    (∃ r, s.writeOffset off v = s.writeReg v r) ∨ s.writeOffset off v = s := by
  unfold State.writeOffset
  cases regAt off with
  | some r => exact .inl ⟨r, rfl⟩
  | none => exact .inr rfl

/-- Everything that a port operation with BUSY = 0 can do: answer a read, write a register, store one unit in the space
of its memory, or nothing (R62, R70). -/
theorem hostIdle_cases (op : HostOp) (s : State) :
    (∃ r, hostIdle op s = reply r s) ∨ (∃ v r, hostIdle op s = s.writeReg v r) ∨
    (∃ a v, a < s.caps.pixWords ∧ hostIdle op s = { s with pix := s.pix.write a v }) ∨
    (∃ i b, i < s.caps.frmBytes ∧ hostIdle op s = { s with frm := s.frm.write i b }) ∨
    (∃ i b, i < s.caps.payBytes ∧ hostIdle op s = { s with pay := s.pay.write i b }) ∨
    (∃ i b, i < s.caps.namBytes ∧ hostIdle op s = { s with nam := s.nam.write i b }) ∨
    hostIdle op s = s := by
  cases op with
  | regRead | pixRead | frmRead | payRead | namRead => exact .inl ⟨_, rfl⟩
  | regWrite off v =>
    obtain ⟨r, e⟩ | e := writeOffset_cases s off v
    · exact .inr (.inl ⟨v, r, e⟩)
    · simp [hostIdle, e]
  | pixWrite a v =>
    by_cases h : a < s.caps.pixWords
    · exact .inr (.inr (.inl ⟨a, v, h, if_pos h⟩))
    · simp [hostIdle, h]
  | frmWrite i b =>
    by_cases h : i < s.caps.frmBytes
    · exact .inr (.inr (.inr (.inl ⟨i, b, h, if_pos h⟩)))
    · simp [hostIdle, h]
  | payWrite i b =>
    by_cases h : i < s.caps.payBytes
    · exact .inr (.inr (.inr (.inr (.inl ⟨i, b, h, if_pos h⟩))))
    · simp [hostIdle, h]
  | namWrite i b =>
    by_cases h : i < s.caps.namBytes
    · exact .inr (.inr (.inr (.inr (.inr (.inl ⟨i, b, h, if_pos h⟩)))))
    · simp [hostIdle, h]


/-! ### The memories (R46 to R49, R70) -/

theorem memoriesOk_writeReg {s : State} (v : Word) (r : Reg) (h : MemoriesOk s) : MemoriesOk (s.writeReg v r) := by
  cases r <;> exact h

theorem memoriesOk_hostIdle (op : HostOp) {s : State} (h : MemoriesOk s) : MemoriesOk (hostIdle op s) := by
  obtain ⟨hpix, hfrm, hpay, hnam⟩ := id h
  obtain ⟨r, e⟩ | ⟨v, r, e⟩ | ⟨a, v, ha, e⟩ | ⟨i, b, hi, e⟩ | ⟨i, b, hi, e⟩ | ⟨i, b, hi, e⟩ | e :=
    hostIdle_cases op s <;> rw [e]
  · exact h
  · exact memoriesOk_writeReg v r h
  · exact ⟨memoryOk_write v hpix ha, hfrm, hpay, hnam⟩
  · exact ⟨hpix, memoryOk_write b hfrm hi, hpay, hnam⟩
  · exact ⟨hpix, hfrm, memoryOk_write b hpay hi, hnam⟩
  · exact ⟨hpix, hfrm, hpay, memoryOk_write b hnam hi⟩
  · exact h

theorem memoriesOk_exec {i : Instr} {s t : State} (h : exec i s = .next t) (hs : MemoriesOk s) : MemoriesOk t := by
  obtain ⟨b, hb, rfl⟩ := exec_does h
  obtain ⟨hpix, hfrm, hpay, hnam⟩ := hs
  cases hb with
  | raises e x flen cursor frm code moves frame cleared frmOk => exact ⟨hpix, frmOk hfrm, hpay, hnam⟩
  | ends np rnlen rplen rtotLo rtotHi flen cursor frm pix bsq byte moves frame pixels designated sequence packed results
      frmOk pixOk => exact ⟨pixOk hpix, frmOk hfrm, hpay, hnam⟩

/-- Settles O56: a command keeps its writes in FRM and PIX, a port operation stores in the space only, and a reset lists
nothing. -/
theorem stepKeepsMemoriesInTheirSpaces : Obligations.StepKeepsMemoriesInTheirSpaces := fun _ _ hs h =>
  step_keeps (P := MemoriesOk)
    (script := fun _ _ _ h => h)
    (reset := fun _ _ => ⟨memoryOk_nil _, memoryOk_nil _, memoryOk_nil _, memoryOk_nil _⟩)
    (command := fun _ _ _ hexec h => memoriesOk_exec hexec h)
    (illegal := fun _ _ h => h)
    (port := fun op _ h => memoriesOk_hostIdle op h)
    hs h

/-! ### The results (R32 to R35, R96, R129, R181) -/

/-- A state without results: the consistency is then that of ERR and EINFO alone (R96). -/
theorem resultsOk_of_no_results {s : State} (hcode : s.status.err.toNat ≤ 9 ∧ s.status.err ≠ 6)
    (hinfo : s.status.err = 0 → s.einfo = 0) (hnp : s.status.np = false)
    (hres : s.rnlen = 0 ∧ s.rplen = 0 ∧ s.rtot = 0) : ResultsOk s :=
  ⟨hcode.1, hcode.2, hinfo, fun _ => hres, by simp [hnp, hres.1], .inl hres⟩

/-- The state that a CMD write leaves (R22, R96). -/
theorem resultsOk_startCommand (c : Word) (s : State) : ResultsOk (startCommand c s) :=
  resultsOk_of_no_results (s := startCommand c s) (by simp) (fun _ => rfl) rfl ⟨rfl, rfl, rfl⟩

theorem ErrorName.code_ne_zero (e : ErrorName) : e.code ≠ 0 := by cases e <;> decide

/-- The codes of R182 are among those that R181 lets the core produce. -/
theorem mayEndWith_produced (i : Instr) : ∀ c ∈ mayEndWith i, c.toNat ≤ 9 ∧ c ≠ 6 := by cases i <;> decide

/-- An error end whose body has left the results as the prologue makes them (R96, R186). -/
theorem resultsOk_raise {e : ErrorName} (info : BitVec 64) {s : State} (hcode : e.code.toNat ≤ 9 ∧ e.code ≠ 6)
    (hnp : s.status.np = false) (hres : s.rnlen = 0 ∧ s.rplen = 0 ∧ s.rtot = 0) : ResultsOk (raise e info s) :=
  resultsOk_of_no_results (s := raise e info s) hcode (fun h => absurd h e.code_ne_zero) hnp hres

/-- RTOT of a total of 34 bits (R34). -/
theorem rtot_eq_total {s : State} {total : Nat} (hlo : s.rtotLo = BitVec.ofNat 32 total)
    (hhi : s.rtotHi = BitVec.ofNat 2 (total / 2 ^ 32)) (h : total < 2 ^ 34) : s.rtot = total := by
  simp only [State.rtot, hlo, hhi, BitVec.toNat_ofNat]
  omega

/-- A success whose results are those of a decoded header (R124, R129). -/
theorem resultsOk_of_decoded {m : Mode} {h : Header} (hd : Header.Decoded m h) {s : State} (herr : s.status.err = 0)
    (hinfo : s.einfo = 0) (hnp : s.status.np = namePresent m h.n) (hn : s.rnlen = BitVec.ofNat 32 h.n)
    (hp : s.rplen = BitVec.ofNat 32 h.p) (ht : s.rtot = h.total) : ResultsOk s := by
  obtain ⟨hn32, hp32, htotal, hmessage⟩ := hd
  have hn' : s.rnlen.toNat = h.n := by rw [hn, BitVec.toNat_ofNat, Nat.mod_eq_of_lt hn32]
  have hp' : s.rplen.toNat = h.p := by rw [hp, BitVec.toNat_ofNat, Nat.mod_eq_of_lt hp32]
  have hn0 : s.rnlen ≠ 0 ↔ 0 < h.n := by
    rw [← hn', Nat.pos_iff_ne_zero, ne_eq, ne_eq, ← BitVec.toNat_inj]
    rfl
  refine ⟨by simp [herr], by simp [herr], fun _ => hinfo, fun he => absurd herr he, ?_, .inr ?_⟩
  · rw [hnp, hn0]
    cases m with
    | file => simp [namePresent]
    | message => simp [namePresent, hmessage rfl]
  · rw [hn', hp', ht, htotal]
    cases m with
    | file => exact .inl rfl
    | message => exact .inr ⟨by rw [hn, hmessage rfl]; rfl, by rw [hmessage rfl]; rfl⟩

theorem resultsOk_exec {i : Instr} {s t : State} (h : exec i s = .next t) : ResultsOk t := by
  obtain ⟨b, hb, rfl⟩ := exec_does h
  cases hb with
  | raises e x flen cursor frm code =>
    exact resultsOk_raise x (mayEndWith_produced i _ code) rfl ⟨rfl, rfl, rfl⟩
  | ends np rnlen rplen rtotLo rtotHi flen cursor frm pix bsq byte moves frame pixels designated sequence packed
      results =>
    obtain ⟨rfl, rfl, rfl, rfl, rfl⟩ | ⟨m, hd, decoded, rfl, rfl, rfl, rfl, rfl⟩ := results
    · exact resultsOk_of_no_results (by simp [Body.finish]) (fun _ => rfl) rfl ⟨rfl, rfl, rfl⟩
    · obtain ⟨hn, hp, htotal, -⟩ := id decoded
      have hs : headerSize m ≤ 12 := by cases m <;> decide
      exact resultsOk_of_decoded decoded rfl rfl rfl rfl rfl (rtot_eq_total rfl rfl (by omega))

theorem resultsOk_writeReg {s : State} (v : Word) (r : Reg) (h : ResultsOk s) : ResultsOk (s.writeReg v r) := by
  cases r with
  | cmd => exact resultsOk_startCommand v s
  | _ => exact h

theorem resultsOk_hostIdle (op : HostOp) {s : State} (h : ResultsOk s) : ResultsOk (hostIdle op s) := by
  obtain ⟨r, e⟩ | ⟨v, r, e⟩ | ⟨a, v, ha, e⟩ | ⟨i, b, hi, e⟩ | ⟨i, b, hi, e⟩ | ⟨i, b, hi, e⟩ | e :=
    hostIdle_cases op s <;> rw [e]
  case inr.inl => exact resultsOk_writeReg v r h
  all_goals exact h

/-- Settles O57: only a command and a CMD write touch ERR, EINFO and the results; both begin with the prologue, and a
command then raises or delivers a decoded header. -/
theorem stepKeepsResultsConsistent : Obligations.StepKeepsResultsConsistent := fun _ _ hs h =>
  step_keeps (P := ResultsOk)
    (script := fun _ _ _ h => h)
    (reset := fun _ _ => resultsOk_reset)
    (command := fun _ _ _ hexec _ => resultsOk_exec hexec)
    (illegal := fun _ _ _ => resultsOk_raise _ (by decide) rfl ⟨rfl, rfl, rfl⟩)
    (port := fun op _ h => resultsOk_hostIdle op h)
    hs h

/-! ### The cursor (R36, R42) -/

/-- Every place that a pass reaches meets the invariant (R36, R41, R42). -/
theorem cursorOk_of_reached {s t : State} (h : CursorReached s t.cursor) : CursorOk t := by
  obtain ⟨k, hk, e⟩ := h
  have hN := s.grid.pixels_le
  simp only [CursorOk, e, cursorAfter_pidx hk, cursorAfter_bidx hk, cursorAfter_biti]
  omega

/-- A move of a command keeps the invariant: no move, or a place that a pass reaches (R43). -/
theorem cursorOk_of_moves {i : Instr} {s t : State} (hs : CursorOk s) (h : CursorMoves i s t.cursor) : CursorOk t := by
  obtain ⟨same, pass⟩ := h
  cases hi : isPass i with
  | true => exact cursorOk_of_reached (pass hi)
  | false => rw [CursorOk, same hi]; exact hs

theorem cursorOk_exec {i : Instr} {s t : State} (h : exec i s = .next t) (hs : CursorOk s) : CursorOk t := by
  obtain ⟨b, hb, rfl⟩ := exec_does h
  cases hb with
  | raises e x flen cursor frm code moves => exact cursorOk_of_moves hs moves
  | ends np rnlen rplen rtotLo rtotHi flen cursor frm pix bsq byte moves => exact cursorOk_of_moves hs moves

@[simp] theorem writeReg_cursor (v : Word) (s : State) (r : Reg) : (s.writeReg v r).cursor = s.cursor := by
  cases r <;> rfl

/-- The host has no write access to the cursor (R20). -/
@[simp] theorem hostIdle_cursor (op : HostOp) (s : State) : (hostIdle op s).cursor = s.cursor := by
  obtain ⟨r, e⟩ | ⟨v, r, e⟩ | ⟨a, v, ha, e⟩ | ⟨i, b, hi, e⟩ | ⟨i, b, hi, e⟩ | ⟨i, b, hi, e⟩ | e :=
    hostIdle_cases op s <;> rw [e]
  case inr.inl => exact writeReg_cursor v s r
  all_goals rfl

/-- Settles O58: only a pass and a reset move the cursor. -/
theorem stepKeepsTheCursorInvariant : Obligations.StepKeepsTheCursorInvariant := fun _ _ hs h =>
  step_keeps (P := CursorOk)
    (script := fun _ _ _ h => h)
    (reset := fun _ _ => cursorOk_reset)
    (command := fun _ _ _ hexec h => cursorOk_exec hexec h)
    (illegal := fun _ _ h => h)
    (port := fun op s h => by rw [CursorOk, hostIdle_cursor]; exact h)
    hs h

end Sys2Proof.Machine
end

section
/-! PROOFS. The cursor and EMBED in closed form (R41, R42, R152, R162), and the frame of every command (R20, R43,
R60). -/

namespace Sys2Proof.Machine

/-! ### The cursor (R41 to R45, R141) -/

/-- Counting `k` pixels of a grid moves the cursor to its place after `k` pixels (R44, R45). -/
theorem iterate_advance_eq_cursorAfter {g : Grid} {k : Nat} (h : k ≤ g.pixels) :
    (fun c : Cursor => (c.advanceRaster g.h).advanceBit)^[k] Cursor.start = cursorAfter g k := by
  induction k with
  | zero => exact (cursorAfter_zero g).symm
  | succ k ih => rw [Function.iterate_succ_apply', ih (Nat.le_of_lt h)]; exact cursorAfter_succ h

/-- The row of the cursor, at the end of the grid too (R41): there it is 0, as on the grid without pixels. -/
theorem cursorAfter_ypos_of_le {g : Grid} {k : Nat} (h : k ≤ g.pixels) :
    (cursorAfter g k).ypos.toNat = k % g.h.toNat := by
  obtain hlt | rfl := Nat.lt_or_eq_of_le h
  · exact cursorAfter_ypos hlt
  · simp [cursorAfter, Grid.pixels]

/-- Settles O37: the iterate is `cursorAfter`, whose registers read as their closed forms. -/
theorem cursorCountsTheTraversal : Obligations.CursorCountsTheTraversal := by
  intro g k h
  rw [iterate_advance_eq_cursorAfter h]
  exact ⟨cursorAfter_pidx h, cursorAfter_xpos h, cursorAfter_ypos_of_le h, cursorAfter_bidx h, cursorAfter_biti g k⟩

/-! ### EMBED (R152, R162) -/

/-- The conditions of R152 and R162 are those of the third case of `embedBody_cases`. -/
theorem embedBody_fits {s : State} (hN : 8 * s.flen.toNat ≤ s.grid.pixels)
    (hfit : s.flen = 0 ∨ (s.grid.pixels ≤ s.caps.pixWords ∧ s.flen.toNat ≤ s.caps.frmBytes)) :
    embedBody s = .ends { s with
      cursor := (embedLoop (resetCursor s) (8 * s.flen.toNat) (embedStart (resetCursor s))).cursor
      pix := (embedLoop (resetCursor s) (8 * s.flen.toNat) (embedStart (resetCursor s))).pix } := by
  obtain ⟨hsmall, -⟩ | ⟨-, hne, hlimit, -⟩ | ⟨-, -, e⟩ := embedBody_cases s
  · exact absurd hN (Nat.not_le_of_lt hsmall)
  · obtain h0 | hroom := hfit
    · exact absurd (congrArg BitVec.toNat h0) hne
    · exact absurd (embedLimitBits_zero.mpr hroom) hlimit
  · exact e

/-- The state in which the pass of an EMBED runs: the prologue is made and the cursor cleared (R96, R152). -/
def embedInit (s : State) : State := resetCursor (prologue s)

/-- An EMBED that fits, with the pixel memory that its pass leaves (R152, R162). -/
theorem exec_embed_fits {s : State} (hN : 8 * s.flen.toNat ≤ s.grid.pixels)
    (hfit : s.flen = 0 ∨ (s.grid.pixels ≤ s.caps.pixWords ∧ s.flen.toNat ≤ s.caps.frmBytes)) :
    exec .embed s = .next { endedWith 0 0 s with
      cursor := cursorAfter s.grid (8 * s.flen.toNat)
      pix := (embedLoop (embedInit s) (8 * s.flen.toNat) (embedStart (embedInit s))).pix } := by
  have hcursor : (embedLoop (embedInit s) (8 * s.flen.toNat) (embedStart (embedInit s))).cursor =
      cursorAfter s.grid (8 * s.flen.toNat) := embedLoop_cursor (embedInit s) hN
  rw [exec_eq, command, bodyOf, embedBody_fits (s := prologue s) hN hfit, ← hcursor]
  rfl

/-- What a visited pixel reads as while an embed pass is at work (R148). -/
theorem EmbedDone.get_visited {s : State} {k j : Nat} {r : EmbedRun} (d : EmbedDone s k r) (hj : j < k) :
    Memory.get (Config.unwrittenPix s.resets) r.pix (s.grid.addrOf j) =
      setDB (s.pixAt (s.grid.addrOf j)) (frameBit s.frmAt j) := by
  rw [Memory.get, d.visited j hj, Option.getD_some]

/-- A word that belongs to no visited pixel still reads as at the start of the pass (R148). -/
theorem EmbedDone.get_unvisited {s : State} {k a : Nat} {r : EmbedRun} (d : EmbedDone s k r)
    (ha : ∀ j, j < k → s.grid.addrOf j ≠ a) : Memory.get (Config.unwrittenPix s.resets) r.pix a = s.pixAt a := by
  rw [Memory.get, d.unvisited a ha, State.pixAt, Memory.get]

/-- Settles O38: `embedLoop_done` says where the pass has come to after 8 * FLEN pixels. -/
theorem embedWritesTheFrameBits : Obligations.EmbedWritesTheFrameBits := by
  intro s hwf hN hfit
  have done := embedLoop_done (s := embedInit s) hwf hN
  exact ⟨_, exec_embed_fits hN hfit, rfl, fun k hk => done.get_visited hk, fun a ha => done.get_unvisited ha⟩

/-! ### The frame of every command (R20, R43, R60) -/

/-- Settles O20: the two ways a body ends, with the fields that each may write. -/
theorem commandFrame : Obligations.CommandFrame := by
  intro i s t h
  obtain ⟨b, hb, rfl⟩ := exec_does h
  cases hb with
  | raises e x flen cursor frm code moves frame =>
    exact ⟨rfl, rfl, rfl, rfl, rfl, rfl, rfl, rfl, rfl, rfl, rfl, rfl, rfl, rfl, rfl, fun _ => rfl, fun _ => rfl, frame,
      moves.1, fun _ => rfl⟩
  | ends np rnlen rplen rtotLo rtotHi flen cursor frm pix bsq byte moves frame pixels designated sequence packed =>
    exact ⟨rfl, rfl, rfl, rfl, rfl, rfl, rfl, rfl, rfl, rfl, rfl, rfl, rfl, rfl, rfl, sequence, packed, frame, moves.1,
      pixels⟩

end Sys2Proof.Machine
end

section
/-! PROOFS. The register map and the host's ports with BUSY = 0 (R20 to R31, R62, R66, R68, R70), the start of a command
(R22, R96) and its run (R73, R76). -/

namespace Sys2Proof.Machine

/-! ### The register map (R20, R101) -/

/-- An offset names the register whose offset it is, and no other offset does (R20). -/
theorem regAt_eq_some_iff {off : Nat} {r : Reg} : regAt off = some r ↔ Reg.offset r = off := by
  constructor
  · intro h
    have hfound := List.find?_some (p := fun q => Reg.offset q == off) h
    exact of_decide_eq_true hfound
  · rintro rfl
    exact regAt_offset r

/-- The registers stand at the multiples of 4 below 0x5C (R20). -/
theorem offset_aligned_lt (r : Reg) : Reg.offset r % 4 = 0 ∧ Reg.offset r < 0x5C := by cases r <;> decide

/-- No register stands at a misaligned offset or above BITI (R21, R66, R70). -/
theorem regAt_eq_none {off : Nat} (h : off % 4 ≠ 0 ∨ 0x5C ≤ off) : regAt off = none := by
  rw [Option.eq_none_iff_forall_ne_some]
  intro r hr
  obtain rfl := regAt_eq_some_iff.mp hr
  have := offset_aligned_lt r
  omega

/-! ### One step at an idle port (R62) -/

theorem step_regWrite {s : State} {r : Reg} {v : Word} {rest : List Arrival}
    (h : HostMovesIdle s (.regWrite (Reg.offset r) v) rest) :
    step s = .next (State.writeReg v { s with inputs := rest } r) := by
  rw [step_idle h]
  simp only [hostIdle, State.writeOffset, regAt_offset]

theorem step_regWrite_nowhere {s : State} {off : Nat} {v : Word} {rest : List Arrival} (hoff : regAt off = none)
    (h : HostMovesIdle s (.regWrite off v) rest) : step s = .next { s with inputs := rest } := by
  rw [step_idle h]
  simp only [hostIdle, State.writeOffset, hoff]

@[simp] theorem readOffset_offset (s : State) (r : Reg) : s.readOffset (Reg.offset r) = s.readReg r := by
  simp only [State.readOffset, regAt_offset]

/-- The script is not a register. -/
@[simp] theorem readReg_inputs (s : State) (r : Reg) (rest : List Arrival) :
    State.readReg { s with inputs := rest } r = s.readReg r := rfl

theorem step_regRead {s : State} {r : Reg} {rest : List Arrival} (h : HostMovesIdle s (.regRead (Reg.offset r)) rest) :
    step s = .next { s with inputs := rest, replies := .word (s.readReg r) :: s.replies } := by
  rw [step_idle h]
  simp only [hostIdle, readOffset_offset, readReg_inputs, reply]

theorem step_regRead_nowhere {s : State} {off : Nat} {rest : List Arrival} (hoff : regAt off = none)
    (h : HostMovesIdle s (.regRead off) rest) :
    step s = .next { s with inputs := rest, replies := .word 0 :: s.replies } := by
  rw [step_idle h]
  simp only [hostIdle, State.readOffset, hoff, reply]

/-- A write of a register that the host only reads has no effect (R21). -/
theorem writeReg_readOnly {r : Reg} (h : isReadOnly r = true) (v : Word) (s : State) : s.writeReg v r = s := by
  cases r with
  | cmd | status | ctrl | width | height | plenLo | plenHi | nlenLo | nlenHi | flen | byte | bsq => cases h
  | _ => rfl

/-! ### The bits of the registers (R23 to R40) -/

theorem getLsbD_statusWord (t : Status) (i : Nat) : t.word.getLsbD i =
    if i = 0 then t.busy else if i = 1 then t.done else if i = 2 then t.np
    else if 8 ≤ i ∧ i < 12 then t.err.getLsbD (i - 8) else false := by
  simp only [Status.word, BitVec.getLsbD_append, BitVec.getLsbD_ofBool, BitVec.getLsbD_zero]
  grind

theorem getLsbD_ctrlWord (c : Ctrl) (i : Nat) : c.word.getLsbD i =
    if i = 0 then c.ie else if i = 1 then c.layout else false := by
  simp only [Ctrl.word, BitVec.getLsbD_append, BitVec.getLsbD_ofBool, BitVec.getLsbD_zero]
  grind

theorem getLsbD_bsqWord (b : Bsq) (i : Nat) : b.word.getLsbD i =
    if i < 16 then b.vec.getLsbD i else if i < 21 then b.cnt.getLsbD (i - 16) else false := by
  simp only [Bsq.word, BitVec.getLsbD_append, BitVec.getLsbD_zero]
  grind

/-- The low `k` bits of a word, stored and read back (R21). -/
theorem setWidth_setWidth_eq_and (v : Word) (k : Nat) :
    (v.setWidth k).setWidth 32 = v &&& (BitVec.allOnes k).setWidth 32 :=
  BitVec.eq_of_getLsbD_eq fun i hi => by
    simp only [BitVec.getLsbD_setWidth, BitVec.getLsbD_and, BitVec.getLsbD_allOnes, hi, decide_true, Bool.true_and]
    exact Bool.and_comm _ _

/-- CTRL reads back bits 0 and 1 (R24). -/
theorem ctrlWord_written (v : Word) : Ctrl.word { ie := v.getLsbD 0, layout := v.getLsbD 1 } = v &&& 0x00000003 :=
  BitVec.eq_of_getLsbD_eq fun i hi => by
    have mask : ∀ i, i < 32 → (0x00000003 : Word).getLsbD i = decide (i < 2) := by decide
    rw [getLsbD_ctrlWord, BitVec.getLsbD_and, mask i hi]
    grind

/-- BSQ reads back bits 20 to 0 (R31). -/
theorem bsqWord_written (v : Word) :
    Bsq.word { vec := v.extractLsb' 0 16, cnt := v.extractLsb' 16 5 } = v &&& 0x001FFFFF :=
  BitVec.eq_of_getLsbD_eq fun i hi => by
    have mask : ∀ i, i < 32 → (0x001FFFFF : Word).getLsbD i = decide (i < 21) := by decide
    rw [getLsbD_bsqWord, BitVec.getLsbD_and, mask i hi]
    simp only [BitVec.getLsbD_extractLsb']
    grind

/-! ### A register write and the registers (R20, R21) -/

/-- A register that the host reads and writes reads back its used bits. -/
theorem readReg_writeReg_same {r : Reg} (h : isReadWrite r = true) (v : Word) (s : State) :
    (s.writeReg v r).readReg r = v &&& usedBits r := by
  cases r with
  | ctrl => exact ctrlWord_written v
  | width | height => exact setWidth_setWidth_eq_and v 16
  | byte => exact setWidth_setWidth_eq_and v 8
  | bsq => exact bsqWord_written v
  | plenLo | plenHi | nlenLo | nlenHi | flen => exact (BitVec.and_allOnes (x := v)).symm
  | _ => cases h

/-- A write of such a register leaves every other register as it reads. -/
theorem readReg_writeReg_other {r q : Reg} (h : isReadWrite r = true) (hq : q ≠ r) (v : Word) (s : State) :
    (s.writeReg v r).readReg q = s.readReg q := by
  cases r with
  | ctrl | width | height | plenLo | plenHi | nlenLo | nlenHi | flen | byte | bsq =>
    cases q <;> simp [State.writeReg, State.readReg] at hq ⊢
  | _ => cases h

@[simp] theorem writeReg_pix (v : Word) (s : State) (r : Reg) : (s.writeReg v r).pix = s.pix := by cases r <;> rfl
@[simp] theorem writeReg_frm (v : Word) (s : State) (r : Reg) : (s.writeReg v r).frm = s.frm := by cases r <;> rfl
@[simp] theorem writeReg_pay (v : Word) (s : State) (r : Reg) : (s.writeReg v r).pay = s.pay := by cases r <;> rfl
@[simp] theorem writeReg_nam (v : Word) (s : State) (r : Reg) : (s.writeReg v r).nam = s.nam := by cases r <;> rfl

/-- Settles O9: what each register reads after the write, and the frame of `writeReg`. -/
theorem registerReadsBackItsUsedBits : Obligations.RegisterReadsBackItsUsedBits := by
  intro s r v rest hr h
  refine ⟨_, step_regWrite h, ?_, fun q hq => ?_, writeReg_pix v _ r, writeReg_frm v _ r, writeReg_pay v _ r,
    writeReg_nam v _ r⟩
  · rw [readOffset_offset, readReg_writeReg_same hr]
  · rw [readReg_writeReg_other hr hq, readReg_inputs]

/-- Settles O10: a read-only register ignores the write, and at the other offsets no register stands. -/
theorem ignoredRegisterAccesses : Obligations.IgnoredRegisterAccesses := by
  refine ⟨fun s r v rest hr h => ?_, fun s off v rest hoff h => step_regWrite_nowhere (regAt_eq_none hoff) h,
    fun s off rest hoff h => step_regRead_nowhere (regAt_eq_none hoff) h⟩
  rw [step_regWrite h, writeReg_readOnly hr]

/-! ### Commands and `irq` (R22, R73, R76, R190, R191) -/

/-- The core moves when `rst` is released, a command runs and no event is due first (R73, R210). -/
theorem coreMoves_eq (s : State) : coreMoves s = (!s.rst && s.status.busy && noBusyArrival s) := by
  unfold coreMoves noBusyArrival
  cases s.inputs <;> rfl

/-- Settles O3: the core moves, and what it runs is the command that the latched word encodes. -/
theorem stepRunsLatchedCommand : Obligations.StepRunsLatchedCommand := by
  intro s i hrst hbusy hnone hdecode
  have hmoves : coreMoves s = true := by simp [coreMoves_eq, hrst, hbusy, hnone]
  rw [step, if_pos hmoves, runLatched, hdecode]

/-- Settles O4: CMD stands at offset 0, and its write is `startCommand`. -/
theorem cmdWriteStartsCommand : Obligations.CmdWriteStartsCommand := fun _ _ _ h => step_regWrite (r := .cmd) h

/-- `irq` is a level: IE and DONE (R190). -/
theorem irq_iff (s : State) : s.irq = true ↔ s.ctrl.ie = true ∧ s.status.done = true := Bool.and_eq_true_iff

/-- A STATUS write with a 1 in bit 1 lowers `irq` (R188, R191). -/
theorem irq_acknowledge {v : Word} (hv : v.getLsbD 1 = true) (s : State) : (acknowledge v s).irq = false := by
  simp [State.irq, hv]

/-- The prologue lowers `irq` with DONE (R96, R191). -/
theorem irq_startCommand (c : Word) (s : State) : (startCommand c s).irq = false := by simp [State.irq]

/-- Settles O11: a STATUS write is `acknowledge`, a CMD write `startCommand`, and `irq` reads IE and DONE. -/
theorem statusWriteClearsDoneOnly : Obligations.StatusWriteClearsDoneOnly := by
  refine ⟨fun s v rest h => ?_, irq_iff, fun s v rest h hv => ⟨_, step_regWrite (r := .status) h, irq_acknowledge hv _⟩,
    fun s c rest h => ⟨_, step_regWrite (r := .cmd) h, irq_startCommand c _⟩,
    fun s v rest h hdone => ⟨_, step_regWrite (r := .ctrl) h, ?_⟩⟩
  · rw [step_regWrite (r := .status) h, State.writeReg, acknowledge]
    cases hv : v.getLsbD 1 <;> simp
  · simp [State.irq, State.writeReg, hdone]

/-! ### The map and the ports as tabled (R20, R62, R68, R101) -/

/-- Settles O8: the offsets by their definition, and `step_regWrite` at each register that the host writes. -/
theorem registerMapAsTabled : Obligations.RegisterMapAsTabled := by
  refine ⟨?_, fun off r => regAt_eq_some_iff, fun s v rest => ?_⟩
  · exact ⟨rfl, rfl, rfl, rfl, rfl, rfl, rfl, rfl, rfl, rfl, rfl, rfl, rfl, rfl, rfl, rfl, rfl, rfl, rfl, rfl, rfl, rfl,
      rfl⟩
  · exact ⟨step_regWrite (r := .ctrl), step_regWrite (r := .width), step_regWrite (r := .height),
      step_regWrite (r := .plenLo), step_regWrite (r := .plenHi), step_regWrite (r := .nlenLo),
      step_regWrite (r := .nlenHi), step_regWrite (r := .flen), step_regWrite (r := .byte), step_regWrite (r := .bsq)⟩

/-- Settles O13: the read of a register, the layout of each register, and the read of each memory in its space. -/
theorem portReadReturnsTheUnit : Obligations.PortReadReturnsTheUnit := by
  refine ⟨fun s r rest h => step_regRead h, fun s => ?_, fun s rest i => ?_⟩
  · have field {k : Nat} (x : BitVec k) (hk : k ≤ 32) : (x.setWidth 32).toNat = x.toNat :=
      BitVec.toNat_setWidth_of_le hk
    exact ⟨rfl, fun i _ => getLsbD_statusWord s.status i, fun i _ => getLsbD_ctrlWord s.ctrl i,
      fun i _ => getLsbD_bsqWord s.bsq i, field s.width (by decide), field s.height (by decide), rfl, rfl, rfl, rfl,
      rfl, field s.byte (by decide), rfl, rfl, rfl, field s.rtotHi (by decide), rfl, rfl, rfl,
      field s.cursor.xpos (by decide), field s.cursor.ypos (by decide), rfl, field s.cursor.biti (by decide)⟩
  · refine ⟨fun hi h => ?_, fun hi h => ?_, fun hi h => ?_, fun hi h => ?_⟩ <;> rw [step_idle h]
    · simp only [hostIdle, hi, if_true, reply, State.pixAt]
    · simp only [hostIdle, hi, if_true, reply, State.frmAt]
    · simp only [hostIdle, hi, if_true, reply, State.payAt]
    · simp only [hostIdle, hi, if_true, reply, State.namAt]

end Sys2Proof.Machine
end

section
/-! PROOFS. The host's ports outside a memory (R62, R70), while BUSY = 1 (R73) and while `rst` is asserted (R210), the
store of one unit (R60, R68), and what EXTRACT reads of PIX (R78, R145, R160). -/

namespace Sys2Proof.Machine

/-! ### EXTRACT and the pixel memory (R78, R145, R160) -/

/-- A body's end with another pixel memory in its place. -/
def Body.withPix (other : Memory 32) : Body → Body
  | .ends s => .ends { s with pix := other }
  | .raises e info s => .raises e info { s with pix := other }

/-- The end of a command does not touch PIX (R97, R186). -/
theorem finish_withPix (other : Memory 32) (b : Body) : (b.withPix other).finish = { b.finish with pix := other } := by
  cases b <;> rfl

/-- What follows the loop of an extract pass does not read PIX (R155). -/
theorem extractEnd_withPix (m : Mode) (s : State) (other : Memory 32) (e : ExtractStop) :
    extractEnd m { s with pix := other } e = (extractEnd m s e).withPix other := by
  cases e with
  | raises er info r => rfl
  | complete hd r =>
    simp only [extractEnd]
    cases badName m hd.n (Memory.get (Config.unwrittenFrm s.resets) r.frm) <;> rfl

/-- EXTRACT ends with the cursor where its loop has left it (R155). -/
theorem extractEnd_finish_cursor (m : Mode) (s : State) (e : ExtractStop) :
    (extractEnd m s e).finish.cursor = e.run.cursor := by
  cases e with
  | raises er info r => rfl
  | complete hd r =>
    simp only [extractEnd]
    cases badName m hd.n (Memory.get (Config.unwrittenFrm s.resets) r.frm) <;> rfl

/-- The head of a turn does not read PIX (R155). -/
theorem extractTurn_withPix (m : Mode) (s : State) (other : Memory 32) (pixels : Nat) (r : ExtractRun) :
    extractTurn m { s with pix := other } pixels r = extractTurn m s pixels r := rfl

/-- A turn that ends the loop has not moved the cursor. -/
theorem cursor_of_extractTurn_stop {m : Mode} {s : State} {pixels : Nat} {r : ExtractRun} {e : ExtractStop}
    (h : extractTurn m s pixels r = .stop e) : e.run.cursor = r.cursor := by
  have hc := extractTurn_cursor m s pixels r
  rwa [h] at hc

/-- A turn that goes on to a pixel has not moved the cursor. -/
theorem cursor_of_extractTurn_pixel {m : Mode} {s : State} {pixels : Nat} {r r' : ExtractRun}
    (h : extractTurn m s pixels r = .pixel r') : r'.cursor = r.cursor := by
  have hc := extractTurn_cursor m s pixels r
  rwa [h] at hc

theorem extractLoop_of_stop {m : Mode} {s : State} {pixels : Nat} {r : ExtractRun} {e : ExtractStop}
    (h : extractTurn m s pixels r = .stop e) (left : Nat) : extractLoop m s pixels left r = e := by
  unfold extractLoop
  rw [h]

theorem extractLoop_zero_of_pixel {m : Mode} {s : State} {pixels : Nat} {r r' : ExtractRun}
    (h : extractTurn m s pixels r = .pixel r') :
    extractLoop m s pixels 0 r = .raises .truncatedPayload (BitVec.ofNat 64 r'.declared) r' := by
  rw [extractLoop, h]

theorem extractLoop_succ_of_pixel {m : Mode} {s : State} {pixels : Nat} {r r' : ExtractRun}
    (h : extractTurn m s pixels r = .pixel r') (left : Nat) :
    extractLoop m s pixels (left + 1) r = extractLoop m s pixels left (extractStep s r') := by
  rw [extractLoop, h]

/-- A step from pixel `k` leaves the cursor at pixel `k + 1` (R44, R45, R153). -/
theorem extractStep_cursorAfter {s : State} {k : Nat} {r : ExtractRun} (hc : r.cursor = cursorAfter s.grid k)
    (hk : k < s.grid.pixels) : (extractStep s r).cursor = cursorAfter s.grid (k + 1) := by
  rw [extractStep_cursor, hc]
  exact cursorAfter_succ hk

/-- A step at pixel `k` reads PIX in the designated bit of that pixel only (R145, R153). -/
theorem extractStep_withPix {s : State} {other : Memory 32} {k : Nat} {r : ExtractRun}
    (hc : r.cursor = cursorAfter s.grid k) (hk : k < s.grid.pixels)
    (hbit : pixelBit { s with pix := other } k = pixelBit s k) :
    extractStep { s with pix := other } r = extractStep s r := by
  have haddr : s.grid.pixAddr r.cursor.xpos.toNat r.cursor.ypos.toNat = s.grid.addrOf k := by
    rw [hc, pixAddr_cursorAfter hk]
  have hread : getDB (State.pixAt { s with pix := other } (s.grid.pixAddr r.cursor.xpos.toNat r.cursor.ypos.toNat)) =
      getDB (s.pixAt (s.grid.pixAddr r.cursor.xpos.toNat r.cursor.ypos.toNat)) := by
    rw [haddr]
    exact hbit
  have hgrid : State.grid { s with pix := other } = s.grid := rfl
  simp only [extractStep, hgrid, hread]

/-- The pass never goes back: a loop at pixel `k` ends at `k` or beyond (R44, R155). -/
theorem le_pidx_extractLoop (m : Mode) (s : State) (pixels left : Nat) {k : Nat} {r : ExtractRun}
    (hc : r.cursor = cursorAfter s.grid k) (hk : k + left ≤ s.grid.pixels) :
    k ≤ (extractLoop m s pixels left r).run.cursor.pidx.toNat := by
  induction left generalizing k r with
  | zero =>
    cases h : extractTurn m s pixels r with
    | stop e =>
      rw [extractLoop_of_stop h, cursor_of_extractTurn_stop h, hc, cursorAfter_pidx (Nat.le_of_add_right_le hk)]
    | pixel r' =>
      rw [extractLoop_zero_of_pixel h, ExtractStop.run, cursor_of_extractTurn_pixel h, hc,
        cursorAfter_pidx (Nat.le_of_add_right_le hk)]
  | succ left ih =>
    cases h : extractTurn m s pixels r with
    | stop e =>
      rw [extractLoop_of_stop h, cursor_of_extractTurn_stop h, hc, cursorAfter_pidx (Nat.le_of_add_right_le hk)]
    | pixel r' =>
      have hnext := extractStep_cursorAfter ((cursor_of_extractTurn_pixel h).trans hc) (by omega)
      rw [extractLoop_succ_of_pixel h]
      exact Nat.le_of_succ_le (ih hnext (by omega))

/-- The loop of an extract pass depends on no bit of PIX but the designated bits of the pixels it visits: those below the
place where it leaves the cursor. -/
theorem extractLoop_withPix (m : Mode) (s : State) (other : Memory 32) (pixels left : Nat) {k : Nat} {r : ExtractRun}
    (hc : r.cursor = cursorAfter s.grid k) (hk : k + left ≤ s.grid.pixels)
    (hbits : ∀ j, j < (extractLoop m s pixels left r).run.cursor.pidx.toNat →
      pixelBit { s with pix := other } j = pixelBit s j) :
    extractLoop m { s with pix := other } pixels left r = extractLoop m s pixels left r := by
  induction left generalizing k r with
  | zero => rw [extractLoop, extractTurn_withPix, extractLoop]
  | succ left ih =>
    cases h : extractTurn m s pixels r with
    | stop e => rw [extractLoop_of_stop h, extractLoop_of_stop ((extractTurn_withPix ..).trans h)]
    | pixel r' =>
      have hc' : r'.cursor = cursorAfter s.grid k := (cursor_of_extractTurn_pixel h).trans hc
      have hnext := extractStep_cursorAfter hc' (by omega)
      have hvisited := le_pidx_extractLoop m s pixels left hnext (by omega)
      rw [extractLoop_succ_of_pixel h] at hbits ⊢
      rw [extractLoop_succ_of_pixel ((extractTurn_withPix ..).trans h),
        extractStep_withPix hc' (by omega) (hbits k hvisited)]
      exact ih hnext (by omega) hbits

/-- `ExtractBody` with another PIX that agrees on the designated bits of the pixels visited (R155, R160). -/
theorem extractBody_withPix (m : Mode) (s : State) (other : Memory 32)
    (hbits : ∀ k, k < (extractBody m s).finish.cursor.pidx.toNat →
      pixelBit { s with pix := other } k = pixelBit s k) :
    extractBody m { s with pix := other } = (extractBody m s).withPix other := by
  obtain ⟨hbig, e⟩ | ⟨hfit, e⟩ := extractBody_cases m s
  · rw [e]
    exact if_pos hbig
  · obtain ⟨hbig, -⟩ | ⟨-, e'⟩ := extractBody_cases m { s with pix := other }
    · exact absurd hfit (Nat.not_le_of_lt hbig)
    · have hloop := extractLoop_withPix m (extractInit s) other (extractInit s).grid.pixels (extractInit s).grid.pixels
        (r := extractStart (extractInit s)) (cursorAfter_zero _).symm (Nat.zero_add _).le
        (by rw [e, extractEnd_finish_cursor] at hbits; exact hbits)
      rw [e, e', ← extractEnd_withPix, ← hloop]
      rfl

/-- Settles O48: the loop reads PIX in the designated bits of the pixels it passes, and nothing else reads PIX. -/
theorem extractDependsOnVisitedBitsOnly : Obligations.ExtractDependsOnVisitedBitsOnly := by
  intro m s t other h hbits
  rw [exec_extract] at h ⊢
  cases h
  have hbody : extractBody m (prologue { s with pix := other }) = (extractBody m (prologue s)).withPix other :=
    extractBody_withPix m (prologue s) other hbits
  rw [command, hbody, finish_withPix, command]

/-! ### The asserted reset (R210) -/

/-- While `rst` is asserted the core makes no move: the next event arrives, if there is one. -/
theorem step_asserted {s : State} (h : s.rst = true) : step s = .next (hostMove s) := by
  simp [step, coreMoves, h]

/-- The script and the replies are the host's: whatever they are, the core is held (log 9). -/
theorem heldInReset_script {s : State} (h : HeldInReset s) (inputs : List Arrival) (replies : List Reply) :
    HeldInReset { s with inputs := inputs, replies := replies } := by
  intro hr
  rw [h hr]

theorem heldInReset_setRst (asserted : Bool) {s : State} (h : HeldInReset s) : HeldInReset (setRst asserted s) := by
  obtain e | ⟨-, -, e⟩ := setRst_cases asserted s <;> rw [e]
  · rintro rfl
    rfl
  · exact h

@[simp] theorem illegalCommand_rst (c : Word) (s : State) : (illegalCommand c s).rst = s.rst := rfl

@[simp] theorem writeReg_rst (v : Word) (s : State) (r : Reg) : (s.writeReg v r).rst = s.rst := by cases r <;> rfl

@[simp] theorem hostIdle_rst (op : HostOp) (s : State) : (hostIdle op s).rst = s.rst := by
  obtain ⟨r, e⟩ | ⟨v, r, e⟩ | ⟨a, v, ha, e⟩ | ⟨i, b, hi, e⟩ | ⟨i, b, hi, e⟩ | ⟨i, b, hi, e⟩ | e :=
    hostIdle_cases op s <;> rw [e]
  case inr.inl => exact writeReg_rst v s r
  all_goals rfl

/-- No command changes the level of `rst` (R210). -/
theorem exec_rst {i : Instr} {s t : State} (h : exec i s = .next t) : t.rst = s.rst := by
  obtain ⟨b, hb, rfl⟩ := exec_does h
  cases hb <;> rfl

/-- A step keeps the core in the reset state while `rst` stays asserted: with `rst` released only an assertion changes
the line, and with it asserted only an event arrives. -/
theorem heldInReset_step {s t : State} (hs : HeldInReset s) (h : step s = .next t) : HeldInReset t := by
  obtain ⟨i, hrst, -, hexec⟩ | ⟨hrst, rfl⟩ | ⟨op, rest, hrst, -, rfl⟩ | ⟨op, rest, -, -, rfl⟩ | ⟨op, rest, -, rfl⟩ |
    ⟨asserted, rest, rfl⟩ | ⟨-, -, rfl⟩ := step_cases h
  · exact heldInReset_of_released ((exec_rst hexec).trans hrst)
  · exact heldInReset_of_released ((illegalCommand_rst s.cmdw s).trans hrst)
  · exact heldInReset_of_released ((hostIdle_rst op _).trans hrst)
  · obtain ⟨read, e⟩ := hostBusy_frame op { s with inputs := rest }
    rw [e]
    exact heldInReset_script hs rest read
  · obtain ⟨read, e⟩ := hostHeld_frame op { s with inputs := rest }
    rw [e]
    exact heldInReset_script hs rest read
  · exact heldInReset_setRst asserted (heldInReset_script hs rest s.replies)
  · exact hs

/-- Only a release ends an asserted reset (R210). -/
theorem asserted_until_release {s t : State} (hr : s.rst = true) (h : step s = .next t) :
    t.rst = true ∨ ∃ early, s.inputs = { event := .rst false, whileBusy := early } :: t.inputs := by
  rw [step_asserted hr] at h
  cases h
  unfold hostMove
  cases hi : s.inputs with
  | nil => exact .inl hr
  | cons a rest =>
    obtain ⟨event, early⟩ := a
    cases event with
    | host op =>
      obtain ⟨read, e⟩ := hostHeld_frame op { s with inputs := rest }
      have arrives : receive (.host op) { s with inputs := rest } = { s with inputs := rest, replies := read } :=
        (if_pos hr).trans e
      exact .inl ((congrArg State.rst arrives).trans hr)
    | rst asserted =>
      cases asserted with
      | true => exact .inl rfl
      | false => exact .inr ⟨early, by simp [receive, setRst, hr]⟩

/-- Every register of the reset state reads 0 (R211). -/
theorem readReg_reset (r : Reg) : State.reset.readReg r = 0 := by cases r <;> rfl

/-- While the core is held, every offset of REG reads 0: a register as reset leaves it, or no register (R70, R211). -/
theorem readOffset_held {s : State} (h : HeldInReset s) (hr : s.rst = true) (off : Nat) : s.readOffset off = 0 := by
  unfold State.readOffset
  cases regAt off with
  | none => rfl
  | some r =>
    have hreg : s.readReg r = State.reset.readReg r := by rw [h hr]; cases r <;> rfl
    exact hreg.trans (readReg_reset r)

/-- Settles O2: the port operations by `step_held`, and the two lemmas about what a step leaves. -/
theorem assertedResetHoldsTheCore : Obligations.AssertedResetHoldsTheCore := by
  refine ⟨fun s rest a v b h => ?_, fun s rest off held h => ?_, fun s rest i => ?_, fun s hr hi => ?_,
    fun s t => heldInReset_step, fun s t => asserted_until_release⟩
  · obtain h | h | h | h | h := h <;> exact step_held h
  · have hzero := readOffset_held (heldInReset_script held rest s.replies) h.1 off
    rw [step_held h, hostHeld, hostIdle, hzero, reply]
  · exact ⟨step_held, step_held, step_held, step_held⟩
  · rw [step_asserted hr, hostMove, hi]

/-! ### The store of one unit (R60, R62, R68) -/

/-- Settles O12: the port operation is `Memory.write`, and `Memory.get_write` says what each index holds after it. -/
theorem portWriteStoresOneUnit : Obligations.PortWriteStoresOneUnit := by
  rintro s rest ⟨⟨hpix, -⟩, ⟨hfrm, -⟩, ⟨hpay, -⟩, ⟨hnam, -⟩⟩
  exact ⟨fun a v ha h => ⟨_, (step_idle h).trans (congrArg _ (if_pos ha)), rfl,
      fun b => Memory.get_write _ _ a b v hpix⟩,
    fun i v hi h => ⟨_, (step_idle h).trans (congrArg _ (if_pos hi)), rfl,
      fun b => Memory.get_write _ _ i b v hfrm⟩,
    fun i v hi h => ⟨_, (step_idle h).trans (congrArg _ (if_pos hi)), rfl,
      fun b => Memory.get_write _ _ i b v hpay⟩,
    fun i v hi h => ⟨_, (step_idle h).trans (congrArg _ (if_pos hi)), rfl,
      fun b => Memory.get_write _ _ i b v hnam⟩⟩

/-! ### Outside a memory, and while BUSY = 1 (R62, R70, R73) -/

/-- Settles O14: in each memory the bounds test fails, for the write and for the read. -/
theorem outOfRangePortAccess : Obligations.OutOfRangePortAccess := by
  intro s rest i
  refine ⟨fun hi => ⟨fun v h => ?_, fun h => ?_⟩, fun hi => ⟨fun v h => ?_, fun h => ?_⟩,
    fun hi => ⟨fun v h => ?_, fun h => ?_⟩, fun hi => ⟨fun v h => ?_, fun h => ?_⟩⟩ <;>
    simp only [step_idle h, hostIdle, if_neg (Nat.not_lt_of_le hi), reply]

/-- Settles O15: `hostBusy` answers by the kind of the operation, and the offset counts for STATUS only. -/
theorem busyHidesEverythingFromTheHost : Obligations.BusyHidesEverythingFromTheHost := by
  refine fun s rest => ⟨step_busy, fun off hoff h => ?_, fun a => step_busy, fun i h => ?_, fun a v b h => ?_⟩
  · rw [step_busy h, hostBusy, if_neg hoff, reply]
  · obtain h | h | h := h <;> exact step_busy h
  · obtain h | h | h | h | h := h <;> exact step_busy h

end Sys2Proof.Machine
end

section
/-! PROOFS. The command words: decoder against encoder (R90 to R95, R98), the run of an illegal word (R95), and how
every command ends (R96, R97, R186, R187, R199). -/

namespace Sys2Proof

/-! ### Formats and words (R90) -/

/-- Bit by bit: OP below bit 4, M at bit 4, ZERO above. -/
theorem FormatC.getLsbD_toWord (f : FormatC) (i : Nat) : f.toWord.getLsbD i =
    if i < 4 then f.op.getLsbD i else if i = 4 then f.m else f.zero.getLsbD (i - 5) := by
  simp only [FormatC.toWord, BitVec.getLsbD_append, BitVec.getLsbD_ofBool]
  obtain hop | rfl | hzero := Nat.lt_trichotomy i 4
  · simp [hop]
  · simp
  · simp [show ¬ i < 4 by omega, show ¬ i - 4 < 1 by omega, show i ≠ 4 by omega]
    congr 1

/-- A format is the fields of its word. -/
theorem FormatC.ofWord_toWord (f : FormatC) : FormatC.ofWord f.toWord = f := by
  have hop : f.toWord.extractLsb' 0 4 = f.op := by
    apply BitVec.eq_of_getLsbD_eq
    intro i hi
    simp [getLsbD_toWord, hi]
  have hm : f.toWord.getLsbD 4 = f.m := by simp only [getLsbD_toWord]; rfl
  have hzero : f.toWord.extractLsb' 5 27 = f.zero := by
    apply BitVec.eq_of_getLsbD_eq
    intro i hi
    rw [BitVec.getLsbD_extractLsb', getLsbD_toWord, if_neg (by omega), if_neg (by omega), Nat.add_sub_cancel_left]
    simp [hi]
  simp only [FormatC.ofWord, hop, hm, hzero]

/-- A word is the word of its fields: OP, M and ZERO cover its 32 bits. -/
theorem FormatC.toWord_ofWord (c : Word) : (FormatC.ofWord c).toWord = c := by
  apply BitVec.eq_of_getLsbD_eq
  intro i hi
  rw [getLsbD_toWord, FormatC.ofWord]
  obtain hop | rfl | hzero := Nat.lt_trichotomy i 4
  · simp [hop]
  · rfl
  · rw [if_neg (by omega), if_neg (by omega), BitVec.getLsbD_extractLsb', Nat.add_sub_cancel' hzero]
    simp [show i - 5 < 27 by omega]

theorem FormatC.ofWord_eq_iff {c : Word} {f : FormatC} : FormatC.ofWord c = f ↔ c = f.toWord :=
  ⟨fun h => h ▸ (FormatC.toWord_ofWord c).symm, fun h => h ▸ FormatC.ofWord_toWord f⟩

/-! ### The opcode map (R92, R93) -/

/-- The opcode map is read off the table of R92: OP and M of the command. -/
theorem decodeOp_eq_ok_iff {op : Nat} {m : Bool} {i : Instr} :
    decodeOp op m = .ok i ↔ op = i.op.toNat ∧ m = i.m := by
  constructor
  · intro h
    unfold decodeOp at h
    split at h <;> cases h <;> exact ⟨rfl, rfl⟩
  · rintro ⟨rfl, rfl⟩
    cases i <;> rfl

/-- The decoder reads a word as a command exactly when the word's fields are the command's (R90, R93). -/
theorem decode_eq_ok_iff {c : Word} {i : Instr} : decode c = .ok i ↔ FormatC.ofWord c = i.format := by
  unfold decode Instr.format
  generalize FormatC.ofWord c = f
  obtain ⟨op, m, zero⟩ := f
  by_cases hzero : zero = 0
  · simp only [hzero, if_pos, decodeOp_eq_ok_iff, BitVec.toNat_inj, FormatC.mk.injEq, and_true]
  · simp only [hzero, if_false, reduceCtorEq, FormatC.mk.injEq, and_false]

/-- Settles O6: the word's fields are the command's, and a word is the word of its fields. -/
theorem decodeReadsExactlyTheEncodedWords : Obligations.DecodeReadsExactlyTheEncodedWords :=
  fun _ _ => decode_eq_ok_iff.trans FormatC.ofWord_eq_iff

/-- Settles O7: the encoder evaluates to the table, and the decoder reads each command's word as the command. -/
theorem commandWordsAsTabled : Obligations.CommandWordsAsTabled :=
  ⟨rfl, rfl, rfl, rfl, rfl, rfl, rfl, rfl, rfl, rfl, rfl, rfl, rfl, Laws.RoundTrip.buildM.1, Laws.RoundTrip.embed.1,
    Laws.RoundTrip.encodeM.1⟩

/-! ### The illegal words (R95) -/

/-- The opcode map has a command for OP and M exactly when checks 2 and 3 of a format pass (R93, R94). -/
theorem isOk_decodeOp : ∀ (op : BitVec 4) (m : Bool),
    (decodeOp op.toNat m).isOk = ((FormatC.mk op m 0).opAssigned && (FormatC.mk op m 0).modeAllowed) := by decide

/-- The three checks of a format, spelled out (R93, R95). -/
theorem FormatC.wellFormed_iff {f : FormatC} : f.wellFormed = true ↔
    f.zero = 0 ∧ (1 ≤ f.op.toNat ∧ f.op.toNat ≤ 8) ∧ ¬ (f.m = true ∧ (f.op = 1 ∨ f.op = 2 ∨ f.op = 6)) := by
  simp [FormatC.wellFormed, FormatC.zeroClear, FormatC.opAssigned, FormatC.modeAllowed, and_assoc, imp_iff_not_or]

/-- The decoder finds a command exactly in a word with a legal format (R93, R95). -/
theorem isOk_decode (c : Word) : (decode c).isOk = (FormatC.ofWord c).wellFormed := by
  unfold decode FormatC.wellFormed
  by_cases hzero : (FormatC.ofWord c).zero = 0
  · simp only [hzero, if_true, isOk_decodeOp, FormatC.zeroClear, BEq.rfl, Bool.true_and]
    rfl
  · have hbeq : ((FormatC.ofWord c).zero == 0) = false := by simpa using hzero
    simp only [hzero, hbeq, if_false, FormatC.zeroClear, Bool.false_and]
    rfl

end Sys2Proof

namespace Sys2Proof.Machine

/-- R95 calls a word illegal when one of the three checks of its format fails. -/
theorem illegalWord_iff {c : Word} : IllegalWord c ↔ ¬ (FormatC.ofWord c).wellFormed = true := by
  have hop : c.extractLsb' 0 4 = 0 ↔ ¬ 1 ≤ (c.extractLsb' 0 4).toNat := by
    rw [← BitVec.toNat_inj, Nat.not_le, Nat.lt_one_iff]
    rfl
  rw [FormatC.wellFormed_iff, not_and_or, not_and_or, not_and_or, not_not, FormatC.ofWord, ← hop, Nat.not_le, or_assoc]
  rfl

/-- A word is illegal exactly when the decoder reads no command from it (R95, R98). -/
theorem illegalWord_iff_decode {c : Word} : IllegalWord c ↔ ∃ e, decode c = .error e := by
  rw [illegalWord_iff, ← isOk_decode]
  cases decode c <;> simp [Except.isOk, Except.toBool]

/-- An illegal word is none of the thirteen (R92, R95). -/
theorem illegalWord_iff_encode {c : Word} : IllegalWord c ↔ ∀ i : Instr, encode i ≠ c := by
  have hread (i : Instr) : encode i = c ↔ decode c = .ok i :=
    eq_comm.trans (decodeReadsExactlyTheEncodedWords c i).symm
  simp only [illegalWord_iff_decode, ne_eq, hread]
  constructor
  · rintro ⟨e, he⟩ i hi
    cases he.symm.trans hi
  · intro h
    cases hc : decode c with
    | error e => exact ⟨e, rfl⟩
    | ok i => exact absurd hc (h i)

/-- The illegal-command rule in closed form (R95, R186). -/
theorem illegalCommand_eq (c : Word) (s : State) : illegalCommand c s = endedWith 8 c.toNat s := by
  have hinfo : c.setWidth 64 = BitVec.ofNat 64 c.toNat := by simp
  rw [illegalCommand, command, illegalBody, hinfo]
  exact raise_ofNat .illegalCommand c.toNat s

/-- With an illegal word latched, the step of a running command is the illegal-command rule (R22, R95). -/
theorem step_illegal {s : State} (hrst : s.rst = false) (hbusy : s.status.busy = true) (hnone : noBusyArrival s = true)
    (hword : IllegalWord s.cmdw) : step s = .next (illegalCommand s.cmdw s) := by
  have hmoves : coreMoves s = true := by simp [coreMoves_eq, hrst, hbusy, hnone]
  obtain ⟨e, he⟩ := illegalWord_iff_decode.1 hword
  rw [step, if_pos hmoves, runLatched, he]

/-- Settles O5: the CMD write is `startCommand`, and the next step the illegal-command rule. -/
theorem illegalWordEndsWithIllegalCommand : Obligations.IllegalWordEndsWithIllegalCommand := by
  refine ⟨fun c => illegalWord_iff_encode, fun s c rest h hnone hword => ⟨_, step_regWrite (r := .cmd) h, ?_⟩⟩
  have hrun := step_illegal (s := startCommand c { s with inputs := rest }) h.1 rfl hnone hword
  exact hrun.trans (congrArg _ (illegalCommand_eq c _))

/-! ### How a command ends (R96, R97, R186, R187) -/

/-- Whether a body ends or raises, the command completes (R97, R186). -/
@[simp] theorem finish_busy (b : Body) : b.finish.status.busy = false := by cases b <;> rfl
@[simp] theorem finish_done (b : Body) : b.finish.status.done = true := by cases b <;> rfl

/-- Settles O17: a command is a body and its finish, CTRL is in the frame, and EINFO is part of `ResultsOk`. -/
theorem everyCommandCompletes : Obligations.EveryCommandCompletes := by
  intro i s
  have hexec := exec_eq i s
  have hctrl := (commandFrame i s _ hexec).1
  obtain ⟨-, -, hinfo, -⟩ := resultsOk_exec hexec
  refine ⟨_, hexec, finish_busy _, finish_done _, ?_, hinfo⟩
  rw [State.irq, hctrl, command, finish_done, Bool.and_true]

/-- Settles O19: a body that raises has written nothing but FLEN, the cursor and FRM since the prologue; one that ends
leaves ERR 0. -/
theorem errorCommitsNothing : Obligations.ErrorCommitsNothing := by
  intro i s t h herr
  obtain ⟨b, hb, rfl⟩ := exec_does h
  cases hb with
  | raises e x flen cursor frm code moves frame cleared => exact ⟨rfl, rfl, rfl, rfl, rfl, cleared⟩
  | ends => exact absurd rfl herr

end Sys2Proof.Machine
end

section
/-! PROOFS. The Bit Codec (R110 to R114): the two functions and their inverse laws, then UNPACK and PACK. -/

namespace Sys2Proof.Machine

/-! ### The two functions (R110 to R112) -/

@[simp] theorem length_byteToBits (b : Byte) : (byteToBits b).length = 8 := by simp [byteToBits]

/-- R110: element i is bit i. -/
@[simp] theorem getElem_byteToBits (b : Byte) (i : Nat) (hi : i < (byteToBits b).length) :
    (byteToBits b)[i] = b.getLsbD i := by
  simp [byteToBits]

/-- R112, from a byte to its bits and back. -/
theorem bitsToByte_byteToBits (b : Byte) : bitsToByte (byteToBits b) = some b :=
  bitsToByte_range b.getLsbD b fun _ _ => rfl

/-- Every sequence of eight bits is the bits of a byte (R110). -/
theorem exists_byteToBits_eq {bits : List Bool} (h : bits.length = 8) : ∃ b, byteToBits b = bits := by
  refine ⟨BitVec.ofFnLE fun k : Fin 8 => bits[k], List.ext_getElem (by simp [h]) fun i hi _ => ?_⟩
  rw [length_byteToBits] at hi
  simp [hi]

/-- Settles O24: a sequence of eight bits is `byteToBits` of a byte, so its inverse law is the byte's. -/
theorem bitCodecInverse : Obligations.BitCodecInverse := by
  refine ⟨fun b i hi => ?_, bitsToByte_byteToBits, fun bits hlen => ?_, fun bits hlen => if_neg hlen⟩
  · rw [List.getElem?_eq_getElem (by rwa [length_byteToBits]), getElem_byteToBits]
  · obtain ⟨b, rfl⟩ := exists_byteToBits_eq hlen
    exact ⟨b, bitsToByte_byteToBits b, rfl⟩

/-! ### UNPACK and PACK (R113, R114) -/

/-- Settles O22: the command is its body between the prologue and the completion, and the body ends. -/
theorem unpackResult : Obligations.UnpackResult :=
  ⟨Laws.RoundTrip.unpack.1, exec_eq .unpack⟩

/-- Settles O23: the body ends or raises by its test of CNT, which the prologue leaves alone. -/
theorem packResult : Obligations.PackResult := by
  refine ⟨Laws.RoundTrip.pack.1, fun s hcnt => ?_, fun s hcnt => ?_⟩
  · have hbody : packBody (prologue s) = .ends { prologue s with byte := s.bsq.vec.setWidth 8 } := if_pos hcnt
    rw [exec_eq, command, bodyOf, hbody]
    rfl
  · have hbody : packBody (prologue s) = .raises .invalidArgument (s.bsq.cnt.setWidth 64) (prologue s) := if_neg hcnt
    rw [exec_eq, command, bodyOf, hbody, ← BitVec.ofNat_toNat]
    exact congrArg _ (raise_ofNat .invalidArgument s.bsq.cnt.toNat s)

end Sys2Proof.Machine
end

section
/-! PROOFS. The Payload Framer (R120 to R135): the length fields and the header, the UTF-8 check, then BUILD, HDEC and
PARSE. -/

namespace Sys2Proof.Machine

/-! ### The length fields (R122) -/

/-- `LE32` inverts `UnLE32`: each byte is a digit of the sum in base 256. -/
theorem le32_unLE32 (b0 b1 b2 b3 : Byte) : le32 (unLE32 b0 b1 b2 b3) = [b0, b1, b2, b3] := by
  have h0 := b0.isLt
  have h1 := b1.isLt
  have h2 := b2.isLt
  have h3 := b3.isLt
  simp only [le32, unLE32, List.cons.injEq, ← BitVec.toNat_inj, BitVec.toNat_ofNat, and_true]
  omega

/-- Settles O25: the bytes of `LE32` are the digits in base 256, and the two inverse laws. -/
theorem lengthFieldsInverse : Obligations.LengthFieldsInverse := by
  refine ⟨fun v hv => ⟨_, _, _, _, rfl, ?_, ?_, ?_, ?_, unLE32_le32 v hv⟩,
    fun b0 b1 b2 b3 => ⟨rfl, unLE32_lt b0 b1 b2 b3, le32_unLE32 b0 b1 b2 b3⟩⟩
  · exact BitVec.toNat_ofNat v 8
  · exact BitVec.toNat_ofNat (v / 2 ^ 8) 8
  · exact BitVec.toNat_ofNat (v / 2 ^ 16) 8
  · rw [BitVec.toNat_ofNat, Nat.mod_eq_of_lt (by omega)]

/-! ### The header (R123 to R126) -/

/-- The four bytes at the head are "STEG" (R7). -/
theorem magic_iff (f : Nat → Byte) :
    [f 0, f 1, f 2, f 3] = magic ↔ f 0 = 0x53 ∧ f 1 = 0x54 ∧ f 2 = 0x45 ∧ f 3 = 0x47 := by
  simp [magic]

/-- The header of mode `m` that the length fields of the bytes give (R126). -/
def headerAt (m : Mode) (f : Nat → Byte) : Header :=
  match m with
  | .file => ⟨fieldAt f 4, fieldAt f 8, 12 + fieldAt f 4 + fieldAt f 8⟩
  | .message => ⟨0, fieldAt f 4, 8 + fieldAt f 4⟩

theorem hdrDecode_of_magic (m : Mode) {f : Nat → Byte} (h : [f 0, f 1, f 2, f 3] = magic) :
    hdrDecode m f = .ok (headerAt m f) := by
  cases m <;> exact if_neg (not_not.mpr h)

theorem hdrDecode_of_not_magic (m : Mode) {f : Nat → Byte} (h : [f 0, f 1, f 2, f 3] ≠ magic) :
    hdrDecode m f = .magicBad (fieldAt f 0) :=
  if_pos h

theorem hdrDecode_eq_ok_iff {m : Mode} {f : Nat → Byte} {hd : Header} :
    hdrDecode m f = .ok hd ↔ [f 0, f 1, f 2, f 3] = magic ∧ headerAt m f = hd := by
  by_cases h : [f 0, f 1, f 2, f 3] = magic
  · simp only [hdrDecode_of_magic m h, h, HdrResult.ok.injEq, true_and]
  · simp only [hdrDecode_of_not_magic m h, h, reduceCtorEq, false_and]

/-- The four bytes of a length field are `LE32` of its value (R122). -/
theorem le32_fieldAt (f : Nat → Byte) (a : Nat) : le32 (fieldAt f a) = [f a, f (a + 1), f (a + 2), f (a + 3)] :=
  le32_unLE32 _ _ _ _

/-- `HdrEncode` of the lengths that were decoded gives the header bytes back (R125, R126). -/
theorem hdrEncode_of_hdrDecode {m : Mode} {f : Nat → Byte} {hd : Header} (h : hdrDecode m f = .ok hd) :
    hdrEncode m hd.n hd.p = slice f 0 (headerSize m) := by
  obtain ⟨hmagic, rfl⟩ := hdrDecode_eq_ok_iff.mp h
  cases m <;> simp only [hdrEncode, headerAt, le32_fieldAt, ← hmagic] <;> simp [slice, headerSize, List.range_succ]

/-- Settles O26: each function inverts the other. -/
theorem headerDecodeInvertsEncode : Obligations.HeaderDecodeInvertsEncode := by
  refine fun m n p bytes hn hp hm => ⟨fun h j hj => ?_, hdrDecode_hdrEncode m n p hn hp hm bytes⟩
  have hbytes : hdrEncode m n p = slice bytes 0 (headerSize m) := hdrEncode_of_hdrDecode h
  rw [hbytes, List.getD_eq_getElem?_getD, getElem?_slice, if_pos hj, Option.getD_some, Nat.zero_add]

/-! ### The rows of UTF-8 (R127) -/

theorem matchesRow_nil {bs : List Byte} : MatchesRow [] bs ↔ bs = [] := List.forall₂_nil_left_iff

theorem matchesRow_cons {range : Byte × Byte} {row : Utf8Row} {bs : List Byte} : MatchesRow (range :: row) bs ↔
    ∃ b rest, bs = b :: rest ∧ byteIn range.1.toNat range.2.toNat b ∧ MatchesRow row rest := by
  simp only [MatchesRow, List.forall₂_cons_left_iff, byteIn, BitVec.le_def]
  exact exists₂_congr fun b rest => by tauto

theorem matchesRow_one {r1 : Byte × Byte} {bs : List Byte} :
    MatchesRow [r1] bs ↔ ∃ a, bs = [a] ∧ byteIn r1.1.toNat r1.2.toNat a := by
  simp only [matchesRow_cons, matchesRow_nil]
  grind

theorem matchesRow_two {r1 r2 : Byte × Byte} {bs : List Byte} :
    MatchesRow [r1, r2] bs ↔
      ∃ a b, bs = [a, b] ∧ byteIn r1.1.toNat r1.2.toNat a ∧ byteIn r2.1.toNat r2.2.toNat b := by
  rw [matchesRow_cons]
  simp only [matchesRow_one]
  grind

theorem matchesRow_three {r1 r2 r3 : Byte × Byte} {bs : List Byte} :
    MatchesRow [r1, r2, r3] bs ↔
      ∃ a b c, bs = [a, b, c] ∧ byteIn r1.1.toNat r1.2.toNat a ∧ byteIn r2.1.toNat r2.2.toNat b ∧
        byteIn r3.1.toNat r3.2.toNat c := by
  rw [matchesRow_cons]
  simp only [matchesRow_two]
  grind

theorem matchesRow_four {r1 r2 r3 r4 : Byte × Byte} {bs : List Byte} :
    MatchesRow [r1, r2, r3, r4] bs ↔
      ∃ a b c d, bs = [a, b, c, d] ∧ byteIn r1.1.toNat r1.2.toNat a ∧ byteIn r2.1.toNat r2.2.toNat b ∧
        byteIn r3.1.toNat r3.2.toNat c ∧ byteIn r4.1.toNat r4.2.toNat d := by
  rw [matchesRow_cons]
  simp only [matchesRow_three]
  grind

/-- The nine rows one by one (R127). -/
theorem exists_utf8Rows_iff (P : Utf8Row → Prop) : (∃ row ∈ utf8Rows, P row) ↔
    P [(0x00, 0x7F)] ∨ P [(0xC2, 0xDF), (0x80, 0xBF)] ∨ P [(0xE0, 0xE0), (0xA0, 0xBF), (0x80, 0xBF)] ∨
    P [(0xE1, 0xEC), (0x80, 0xBF), (0x80, 0xBF)] ∨ P [(0xED, 0xED), (0x80, 0x9F), (0x80, 0xBF)] ∨
    P [(0xEE, 0xEF), (0x80, 0xBF), (0x80, 0xBF)] ∨ P [(0xF0, 0xF0), (0x90, 0xBF), (0x80, 0xBF), (0x80, 0xBF)] ∨
    P [(0xF1, 0xF3), (0x80, 0xBF), (0x80, 0xBF), (0x80, 0xBF)] ∨
    P [(0xF4, 0xF4), (0x80, 0x8F), (0x80, 0xBF), (0x80, 0xBF)] := by
  simp only [utf8Rows, List.mem_cons, List.not_mem_nil, or_false, exists_eq_or_imp, exists_eq_left]

/-- The length of the row that a lead byte selects, if it selects one (R127). -/
def utf8LeadLength (lead : Byte) : Nat :=
  if lead ≤ 0x7F then 1 else if lead ≤ 0xDF then 2 else if lead ≤ 0xEF then 3 else 4

theorem utf8LeadLength_mono {a b : Byte} (h : a ≤ b) : utf8LeadLength a ≤ utf8LeadLength b := by
  unfold utf8LeadLength
  split_ifs <;> bv_omega

/-- The ends of each row's range of lead bytes select its length (R127). -/
theorem utf8LeadLength_of_mem_utf8Rows : ∀ row ∈ utf8Rows, ∀ lead ∈ row.head?,
    utf8LeadLength lead.1 = row.length ∧ utf8LeadLength lead.2 = row.length := by
  simp [utf8Rows, utf8LeadLength]

/-- The lead byte decides how long a sequence is (R127). -/
theorem length_eq_utf8LeadLength {row : Utf8Row} {b : Byte} {bs : List Byte} (hrow : row ∈ utf8Rows)
    (h : MatchesRow row (b :: bs)) : row.length = utf8LeadLength b := by
  obtain ⟨lead, row, rfl⟩ := List.exists_cons_of_length_pos (utf8Rows_length_pos row hrow)
  obtain ⟨hlo, hhi⟩ := utf8LeadLength_of_mem_utf8Rows _ hrow lead rfl
  obtain ⟨⟨hle, hge⟩, -⟩ := List.forall₂_cons.mp h
  exact Nat.le_antisymm (hlo ▸ utf8LeadLength_mono hle) (hhi ▸ utf8LeadLength_mono hge)

theorem ne_nil_of_matchesRow {row : Utf8Row} {bs : List Byte} (hrow : row ∈ utf8Rows) (h : MatchesRow row bs) :
    bs ≠ [] := by
  have hlen : row.length = bs.length := h.length_eq
  exact List.ne_nil_of_length_pos (hlen ▸ utf8Rows_length_pos row hrow)

/-! ### The UTF-8 check (R128) -/

/-- Where a row matches, the check takes that sequence: another row that matches there has the same length. -/
theorem utf8SeqLen_of_matchesRow {row : Utf8Row} {part : List Byte} (hrow : row ∈ utf8Rows) (h : MatchesRow row part)
    (rest : List Byte) : utf8SeqLen (part ++ rest) = some part.length := by
  have hlen : row.length = part.length := h.length_eq
  obtain ⟨b, part, rfl⟩ := List.exists_cons_of_ne_nil (ne_nil_of_matchesRow hrow h)
  cases hs : utf8SeqLen (b :: part ++ rest) with
  | none =>
    have hhead : MatchesRow row ((b :: part ++ rest).take row.length) := by rwa [hlen, List.take_left]
    exact absurd hhead (utf8SeqLen_none hs row hrow)
  | some m =>
    obtain ⟨row', hrow', rfl, h'⟩ := utf8SeqLen_some hs
    obtain ⟨k, hk⟩ := Nat.exists_eq_succ_of_ne_zero (utf8Rows_length_pos row' hrow').ne'
    rw [List.cons_append, hk, List.take_succ_cons] at h'
    rw [← hlen, length_eq_utf8LeadLength hrow' h', length_eq_utf8LeadLength hrow h]

/-- Every part is a sequence that a row of R127 matches. -/
def Utf8Parts (parts : List (List Byte)) : Prop := ∀ part ∈ parts, ∃ row ∈ utf8Rows, MatchesRow row part

/-- The check passes over a sequence that a row matches and goes on behind it. -/
theorem utf8FirstBad_append {row : Utf8Row} {part : List Byte} (hrow : row ∈ utf8Rows) (h : MatchesRow row part)
    (rest : List Byte) : utf8FirstBad (part ++ rest) = (utf8FirstBad rest).map (· + part.length) := by
  have hseq := utf8SeqLen_of_matchesRow hrow h rest
  obtain ⟨b, part, rfl⟩ := List.exists_cons_of_ne_nil (ne_nil_of_matchesRow hrow h)
  rw [List.cons_append] at hseq ⊢
  rw [utf8FirstBad_cons, hseq, ← List.cons_append]
  simp only [List.drop_left]

/-- The check passes over a concatenation of sequences that rows match. -/
theorem utf8FirstBad_flatten_append {parts : List (List Byte)} (h : Utf8Parts parts) (rest : List Byte) :
    utf8FirstBad (parts.flatten ++ rest) = (utf8FirstBad rest).map (· + parts.flatten.length) := by
  induction parts with
  | nil => simp
  | cons part parts ih =>
    obtain ⟨⟨row, hrow, hpart⟩, hparts⟩ := List.forall_mem_cons.mp h
    rw [List.flatten_cons, List.append_assoc, utf8FirstBad_append hrow hpart, ih hparts, Option.map_map,
      List.length_append]
    congr 1
    funext k
    exact (Nat.add_assoc ..).trans (congrArg _ (Nat.add_comm ..))

theorem utf8FirstBad_flatten {parts : List (List Byte)} (h : Utf8Parts parts) : utf8FirstBad parts.flatten = none := by
  simpa [utf8FirstBad, utf8Scan] using utf8FirstBad_flatten_append h []

/-- Where no row matches, the check stops at once. -/
theorem utf8FirstBad_of_seqLen_none {bs : List Byte} (hne : bs ≠ []) (h : utf8SeqLen bs = none) :
    utf8FirstBad bs = some 0 := by
  obtain ⟨b, bs, rfl⟩ := List.exists_cons_of_ne_nil hne
  rw [utf8FirstBad_cons, h]

/-- Every byte sequence is valid up to where it ends or no row matches any more (R128). -/
theorem exists_utf8Parts (bs : List Byte) :
    ∃ parts rest, bs = List.flatten parts ++ rest ∧ Utf8Parts parts ∧
      (rest = [] ∨ rest ≠ [] ∧ utf8SeqLen rest = none) := by
  induction hn : bs.length using Nat.strong_induction_on generalizing bs with
  | _ n ih =>
    cases bs with
    | nil => exact ⟨[], [], rfl, nofun, .inl rfl⟩
    | cons b bs =>
      cases hs : utf8SeqLen (b :: bs) with
      | none => exact ⟨[], b :: bs, rfl, nofun, .inr ⟨List.cons_ne_nil b bs, hs⟩⟩
      | some m =>
        obtain ⟨row, hrow, hlen, hmatch⟩ := utf8SeqLen_some hs
        have hpos := utf8Rows_length_pos row hrow
        have hshorter : ((b :: bs).drop m).length < n := by
          rw [← hn, List.length_drop, List.length_cons]
          omega
        obtain ⟨parts, rest, hsplit, hparts, hrest⟩ := ih _ hshorter _ rfl
        refine ⟨(b :: bs).take m :: parts, rest, ?_, List.forall_mem_cons.mpr ⟨⟨row, hrow, hmatch⟩, hparts⟩, hrest⟩
        rw [List.flatten_cons, List.append_assoc, ← hsplit, List.take_append_drop]

/-- A byte sequence has no bad index exactly when it is a concatenation of sequences that rows match (R127, R128). -/
theorem utf8FirstBad_eq_none_iff {bs : List Byte} :
    utf8FirstBad bs = none ↔ ∃ parts : List (List Byte), bs = parts.flatten ∧ Utf8Parts parts := by
  constructor
  · intro h
    obtain ⟨parts, rest, rfl, hparts, rfl | ⟨hne, hnone⟩⟩ := exists_utf8Parts bs
    · exact ⟨parts, List.append_nil _, hparts⟩
    · simp [utf8FirstBad_flatten_append hparts, utf8FirstBad_of_seqLen_none hne hnone] at h
  · rintro ⟨parts, rfl, hparts⟩
    exact utf8FirstBad_flatten hparts

/-- Settles O33: the rows written out are those of the table, each by its length. -/
theorem utf8ValidIffRows : Obligations.Utf8ValidIffRows := by
  refine ⟨fun bs => utf8FirstBad_eq_none_iff, fun bs => ?_⟩
  rw [exists_utf8Rows_iff]
  simp only [matchesRow_one, matchesRow_two, matchesRow_three, matchesRow_four]
  rfl

/-- Settles O34: the index is the length of the valid sequences before it, and no row matches at the rest. -/
theorem utf8FirstBadIsTheFirst : Obligations.Utf8FirstBadIsTheFirst := by
  intro bs i h
  obtain ⟨parts, rest, rfl, hparts, rfl | ⟨hne, hnone⟩⟩ := exists_utf8Parts bs
  · rw [List.append_nil, utf8FirstBad_flatten hparts] at h
    cases h
  · obtain rfl : parts.flatten.length = i := by
      simpa [utf8FirstBad_flatten_append hparts, utf8FirstBad_of_seqLen_none hne hnone] using h
    rw [List.take_left, List.drop_left, List.length_append]
    exact ⟨Nat.lt_add_of_pos_right (List.length_pos_iff.mpr hne), utf8FirstBad_flatten hparts, utf8SeqLen_none hnone⟩

/-! ### BUILD (R130, R131) -/

/-- The closed form of a command whose body raises before it has written anything (R96, R186). -/
theorem command_of_raises {body : State → Body} {s : State} {e : ErrorName} {info : Nat}
    (h : body (prologue s) = .raises e (BitVec.ofNat 64 info) (prologue s)) :
    command body s = endedWith e.code info s := by
  rw [command, h]
  exact raise_ofNat e info s

/-! The prologue leaves the operands and the memories of a command as they were (R96). -/

@[simp] theorem prologue_plen (s : State) : (prologue s).plen = s.plen := rfl
@[simp] theorem prologue_nameLen (m : Mode) (s : State) : (prologue s).nameLen m = s.nameLen m := by cases m <;> rfl
@[simp] theorem prologue_frmAt (s : State) : (prologue s).frmAt = s.frmAt := rfl
@[simp] theorem prologue_payAt (s : State) : (prologue s).payAt = s.payAt := rfl
@[simp] theorem prologue_namAt (s : State) : (prologue s).namAt = s.namAt := rfl

@[simp] theorem buildFits_prologue {m : Mode} {s : State} : BuildFits m (prologue s) ↔ BuildFits m s := by
  simp [BuildFits]

/-- A length of 2^32 or more has a bit of `too` (R130, R183). -/
theorem tooLargeBits_eq (n p : Nat) :
    tooLargeBits n p = (if 2 ^ 32 ≤ n then 1 else 0) + (if 2 ^ 32 ≤ p then 2 else 0) := by
  simp [tooLargeBits, condBit, Nat.succ_le_iff]

theorem buildLimitBits_eq (c : Caps) (n p total : Nat) : buildLimitBits c n p total =
    (if c.frmBytes < total then 2 else 0) + (if c.payBytes < p then 4 else 0) + (if c.namBytes < n then 8 else 0) := by
  simp [buildLimitBits, condBit]

/-- The conditions of `BuildFits` are that no bit of `too` and `rl` is set (R130, R131). -/
theorem buildFits_iff {m : Mode} {s : State} : BuildFits m s ↔ tooLargeBits (s.nameLen m) s.plen = 0 ∧
    buildLimitBits s.caps (s.nameLen m) s.plen (headerSize m + s.nameLen m + s.plen) = 0 := by
  rw [tooLargeBits_zero, buildLimitBits_zero, and_assoc]
  rfl

theorem buildBody_of_fits {m : Mode} {s : State} (h : BuildFits m s) : buildBody m s = .ends { s with
    frm := s.frm.writeAll 0 (frameBytes m (s.nameLen m) s.plen s.namAt s.payAt)
    flen := BitVec.ofNat 32 (headerSize m + s.nameLen m + s.plen) } := by
  obtain ⟨htoo, hrl⟩ := buildFits_iff.mp h
  simpa [htoo, hrl, h] using buildBody_cases m s

theorem buildBody_of_tooLarge {m : Mode} {s : State} (h : tooLargeBits (s.nameLen m) s.plen ≠ 0) :
    buildBody m s = .raises .payloadTooLarge (BitVec.ofNat 64 (tooLargeBits (s.nameLen m) s.plen)) s := by
  simpa [h, buildFits_iff] using buildBody_cases m s

theorem buildBody_of_limit {m : Mode} {s : State} (htoo : tooLargeBits (s.nameLen m) s.plen = 0)
    (h : ¬ BuildFits m s) : buildBody m s = .raises .resourceLimit
      (BitVec.ofNat 64 (buildLimitBits s.caps (s.nameLen m) s.plen (headerSize m + s.nameLen m + s.plen))) s := by
  have hrl : buildLimitBits s.caps (s.nameLen m) s.plen (headerSize m + s.nameLen m + s.plen) ≠ 0 :=
    fun hrl => h (buildFits_iff.mpr ⟨htoo, hrl⟩)
  simpa [htoo, hrl, h] using buildBody_cases m s

/-- A BUILD that fits, with the frame memory it leaves (R130, R131). -/
theorem exec_build_fits {m : Mode} {s : State} (h : BuildFits m s) :
    exec (buildOf m) s = .next { endedWith 0 0 s with
      frm := s.frm.writeAll 0 (frameBytes m (s.nameLen m) s.plen s.namAt s.payAt)
      flen := BitVec.ofNat 32 (headerSize m + s.nameLen m + s.plen) } := by
  rw [exec_build, command, buildBody_of_fits (buildFits_prologue.mpr h), prologue_nameLen]
  rfl

/-- Settles O27: `frmAt_built` says what FRM holds after the bytes of the frame are written. -/
theorem buildWritesTheFrame : Obligations.BuildWritesTheFrame :=
  fun m s hwf hfits => ⟨_, exec_build_fits hfits, rfl, frmAt_built m s hwf⟩

theorem exec_build_tooLarge {m : Mode} {s : State} (h : tooLargeBits (s.nameLen m) s.plen ≠ 0) :
    exec (buildOf m) s = .next (endedWith 4 (tooLargeBits (s.nameLen m) s.plen) s) := by
  have hbody := buildBody_of_tooLarge (m := m) (s := prologue s) (by simpa using h)
  rw [prologue_nameLen, prologue_plen] at hbody
  rw [exec_build, command_of_raises hbody]
  rfl

theorem exec_build_limit {m : Mode} {s : State} (htoo : tooLargeBits (s.nameLen m) s.plen = 0) (h : ¬ BuildFits m s) :
    exec (buildOf m) s = .next (endedWith 9
      (buildLimitBits s.caps (s.nameLen m) s.plen (headerSize m + s.nameLen m + s.plen)) s) := by
  have hbody := buildBody_of_limit (m := m) (s := prologue s) (by simpa using htoo) (by simpa using h)
  rw [prologue_nameLen, prologue_plen, prologue_caps] at hbody
  rw [exec_build, command_of_raises hbody]
  rfl

/-- Settles O28: the two raises of BUILD, with their bits spelled out. -/
theorem buildRefusesWhatDoesNotFit : Obligations.BuildRefusesWhatDoesNotFit := by
  intro m s
  rw [← tooLargeBits_eq, ← buildLimitBits_eq]
  refine ⟨fun hlarge => exec_build_tooLarge ?_, fun hn hp => exec_build_limit (tooLargeBits_zero.mpr ⟨hn, hp⟩)⟩
  rw [ne_eq, tooLargeBits_zero]
  omega

/-! ### HDEC (R132, R133) -/

/-- The closed form of a command whose body delivers a header and writes nothing else (R97, R129). -/
theorem command_of_results {body : State → Body} {s : State} {m : Mode} {h : Header}
    (hbody : body (prologue s) = .ends (setResults m h.n h.p h.total (prologue s))) :
    command body s = withResults (namePresent m h.n) h.n h.p h.total (endedWith 0 0 s) := by
  rw [command, hbody, setResults_eq]
  rfl

theorem exec_hdec_of_magic {m : Mode} {s : State} (h : [s.frmAt 0, s.frmAt 1, s.frmAt 2, s.frmAt 3] = magic) :
    exec (hdecOf m) s = .next (withResults (namePresent m (headerAt m s.frmAt).n) (headerAt m s.frmAt).n
      (headerAt m s.frmAt).p (headerAt m s.frmAt).total (endedWith 0 0 s)) := by
  have hbody : hdecBody m (prologue s) = .ends (setResults m (headerAt m s.frmAt).n (headerAt m s.frmAt).p
      (headerAt m s.frmAt).total (prologue s)) := by
    rw [hdecBody, prologue_frmAt, hdrDecode_of_magic m h]
  rw [exec_hdec, command_of_results hbody]

theorem exec_hdec_of_not_magic {m : Mode} {s : State} (h : [s.frmAt 0, s.frmAt 1, s.frmAt 2, s.frmAt 3] ≠ magic) :
    exec (hdecOf m) s = .next (endedWith 1 (fieldAt s.frmAt 0) s) := by
  have hbody : hdecBody m (prologue s) = .raises .magicMismatch (.ofNat 64 (fieldAt s.frmAt 0)) (prologue s) := by
    rw [hdecBody, prologue_frmAt, hdrDecode_of_not_magic m h]
  rw [exec_hdec, command_of_raises hbody]
  rfl

/-- Settles O29: HDEC by the magic, in file mode, where NP says that the name has a length. -/
theorem hdecFileResult : Obligations.HdecFileResult := by
  refine ⟨Laws.RoundTrip.hdecF.1, fun s hmagic => ?_, fun s hmagic => ?_⟩ <;> rw [← magic_iff] at hmagic
  · have hnp : namePresent .file (fieldAt s.frmAt 4) = decide (0 < fieldAt s.frmAt 4) := by simp [namePresent]
    rw [← hnp]
    exact exec_hdec_of_magic (m := .file) hmagic
  · exact exec_hdec_of_not_magic (m := .file) hmagic

/-- Settles O30: HDEC by the magic, in message mode, where there is no name. -/
theorem hdecMessageResult : Obligations.HdecMessageResult := by
  refine ⟨Laws.RoundTrip.hdecM.1, fun s hmagic => ?_, fun s hmagic => ?_⟩ <;> rw [← magic_iff] at hmagic
  · exact exec_hdec_of_magic (m := .message) hmagic
  · exact exec_hdec_of_not_magic (m := .message) hmagic

/-! ### PARSE (R134, R135) -/

section
variable {m : Mode} {s : State}

theorem parseBody_of_beyond_frm (hfrm : s.caps.frmBytes < s.flen.toNat) :
    parseBody m s = .raises .resourceLimit 2 s := by
  simpa [Nat.not_le_of_lt, hfrm] using parseBody_cases m s

theorem parseBody_of_short (hfrm : s.flen.toNat ≤ s.caps.frmBytes) (hshort : s.flen.toNat < headerSize m) :
    parseBody m s = .raises .invalidArgument (BitVec.ofNat 64 (headerSize m)) s := by
  simpa [Nat.not_lt_of_le, Nat.not_le_of_lt, hfrm, hshort] using parseBody_cases m s

variable (hfrm : s.flen.toNat ≤ s.caps.frmBytes) (hlen : headerSize m ≤ s.flen.toNat)
include hfrm hlen

theorem parseBody_of_magicBad {found : Nat} (hdec : hdrDecode m s.frmAt = .magicBad found) :
    parseBody m s = .raises .magicMismatch (BitVec.ofNat 64 found) s := by
  simpa [Nat.not_lt_of_le, hfrm, hlen, hdec] using parseBody_cases m s

theorem parseBody_of_wrong_total {h : Header} (hdec : hdrDecode m s.frmAt = .ok h) (htotal : s.flen.toNat ≠ h.total) :
    parseBody m s = .raises .invalidArgument (BitVec.ofNat 64 h.total) s := by
  simpa [Nat.not_lt_of_le, hfrm, hlen, hdec, htotal] using parseBody_cases m s

theorem parseBody_of_bad_name {h : Header} (hdec : hdrDecode m s.frmAt = .ok h) (htotal : s.flen.toNat = h.total)
    {i : Nat} (hname : badName m h.n s.frmAt = some i) :
    parseBody m s = .raises .invalidEncoding (BitVec.ofNat 64 i) s := by
  rw [htotal] at hfrm hlen
  simpa [Nat.not_lt_of_le, hfrm, hlen, hdec, htotal, hname] using parseBody_cases m s

theorem parseBody_of_frame {h : Header} (hdec : hdrDecode m s.frmAt = .ok h) (htotal : s.flen.toNat = h.total)
    (hname : badName m h.n s.frmAt = none) : parseBody m s = .ends (setResults m h.n h.p h.total s) := by
  rw [htotal] at hfrm hlen
  simpa [Nat.not_lt_of_le, hfrm, hlen, hdec, htotal, hname] using parseBody_cases m s

end

/-- A refusal of PARSE in closed form (R186). -/
theorem exec_parse_of_raises {m : Mode} {s : State} {e : ErrorName} {info : Nat}
    (h : parseBody m (prologue s) = .raises e (BitVec.ofNat 64 info) (prologue s)) :
    exec (parseOf m) s = .next (endedWith e.code info s) := by
  rw [exec_parse, command_of_raises h]

/-- Settles O31: an exact frame is at least as long as its header, so the last line of PARSE is reached. -/
theorem parseAcceptsTheFrame : Obligations.ParseAcceptsTheFrame := by
  intro m s h hfrm hdec htotal hutf8
  obtain ⟨-, -, hsum, -⟩ := hdrDecode_ok hdec
  have hname : badName m h.n s.frmAt = none := by
    rw [badName_eq]
    exact ite_eq_right_iff.mpr hutf8
  have hlen : headerSize m ≤ s.flen.toNat := by omega
  rw [exec_parse, command_of_results (parseBody_of_frame (s := prologue s) hfrm hlen hdec htotal hname)]

/-- Settles O32: each refusal has its own line of PARSE. -/
theorem parseRefusalsInOrder : Obligations.ParseRefusalsInOrder := by
  refine fun m s => ⟨fun hfrm => ?beyondFrm, fun hfrm => ⟨fun hshort => ?short, fun hlen =>
    ⟨fun found hdec => ?magic, fun h hdec => ⟨fun htotal => ?total, fun htotal i hfile hbad => ?name⟩⟩⟩⟩
  case beyondFrm => exact exec_parse_of_raises (parseBody_of_beyond_frm hfrm)
  case short => exact exec_parse_of_raises (parseBody_of_short hfrm hshort)
  case magic => exact exec_parse_of_raises (parseBody_of_magicBad (s := prologue s) hfrm hlen hdec)
  case total => exact exec_parse_of_raises (parseBody_of_wrong_total (s := prologue s) hfrm hlen hdec htotal)
  case name =>
    have hname : badName m h.n s.frmAt = some i := by rw [badName_eq, if_pos hfile, hbad]
    exact exec_parse_of_raises (parseBody_of_bad_name (s := prologue s) hfrm hlen hdec htotal hname)

end Sys2Proof.Machine
end

section
/-! PROOFS. The Pixel Engine: the designated bit and the word indices (R141 to R145), what EMBED refuses and its second
run (R147, R152, R178), the rows of EXTRACT (R155 to R158), and EXTRACT after EMBED (R163). -/

namespace Sys2Proof.Machine

/-! ### The designated bit and the address generator (R141 to R145) -/

/-- Settles O35: bit 27 is the one bit that `SetDB` replaces. -/
theorem designatedBitAccess : Obligations.DesignatedBitAccess :=
  fun w b => ⟨getLsbD_setDB w b, rfl, getDB_setDB w b, setDB_getDB w⟩

/-- Settles O21: a body that raises has not written PIX, and one that ends has written designated bits only. -/
theorem onlyTheDesignatedBitChanges : Obligations.OnlyTheDesignatedBitChanges := by
  intro i s t hwf h a
  obtain ⟨b, hb, rfl⟩ := exec_does h
  cases hb with
  | raises => exact sameButDB_refl _
  | ends np rnlen rplen rtotLo rtotHi flen cursor frm pix bsq byte moves frame pixels designated =>
    exact designated hwf a

/-- Every word index below N belongs to a pixel: `addrOf` maps the N indices to themselves, one to one. -/
theorem exists_addrOf_eq {g : Grid} {a : Nat} (h : a < g.pixels) : ∃ k, k < g.pixels ∧ g.addrOf k = a := by
  have hmaps : Set.MapsTo g.addrOf (Finset.range g.pixels) (Finset.range g.pixels) := fun k hk =>
    Finset.mem_coe.mpr (Finset.mem_range.mpr (addrOf_lt (Finset.mem_range.mp hk)))
  have hinj : Set.InjOn g.addrOf (Finset.range g.pixels) := fun j hj k hk =>
    addrOf_inj (Finset.mem_range.mp hj) (Finset.mem_range.mp hk)
  obtain ⟨k, hk, e⟩ := Finset.surjOn_of_injOn_of_card_le g.addrOf hmaps hinj le_rfl (Finset.mem_range.mpr h)
  exact ⟨k, Finset.mem_range.mp hk, e⟩

/-- LAYOUT = 0: the words of a row of the grid follow one another (R142). -/
theorem addrOf_rowMajor {g : Grid} (h : g.columnMajor = false) (k : Nat) :
    g.addrOf k = k % g.h.toNat * g.w.toNat + k / g.h.toNat := by
  simp [Grid.addrOf, Grid.pixAddr, Grid.coord, h]

/-- LAYOUT = 1: the words follow one another as the traversal does (R142). -/
theorem addrOf_columnMajor {g : Grid} (h : g.columnMajor = true) (k : Nat) : g.addrOf k = k := by
  simp [Grid.addrOf, Grid.pixAddr, Grid.coord, h, Nat.div_add_mod']

/-- Settles O36: range, injectivity and surjectivity for both layouts at once, then the two formulas. -/
theorem pixelAddressesAreABijection : Obligations.PixelAddressesAreABijection := fun _ =>
  ⟨fun _ hk => addrOf_lt hk, fun _ _ hj hk e => addrOf_inj hj hk e, fun _ ha => exists_addrOf_eq ha,
    fun h k _ => addrOf_rowMajor h k, fun h k _ => addrOf_columnMajor h k⟩

/-! ### What EMBED refuses (R147, R152, R184) -/

theorem embedLimitBits_eq (c : Caps) (pixels f : Nat) : embedLimitBits c pixels f =
    (if c.pixWords < pixels then 1 else 0) + (if c.frmBytes < f then 2 else 0) := by
  simp [embedLimitBits, condBit]

/-- A raise of a body that has cleared the cursor and written nothing else (R43, R186). -/
theorem raise_resetCursor (e : ErrorName) (info : Nat) (s : State) :
    raise e (BitVec.ofNat 64 info) (resetCursor (prologue s)) =
      { endedWith e.code info s with cursor := Cursor.start } :=
  raise_ofNat e info (resetCursor s)

/-- EMBED of a frame that has more bits than the grid has pixels (R147). -/
theorem exec_embed_small {s : State} (h : s.grid.pixels < 8 * s.flen.toNat) :
    exec .embed s = .next { endedWith 2 (8 * s.flen.toNat) s with cursor := Cursor.start } := by
  have hbody : embedBody (prologue s) =
      .raises .insufficientCapacity (BitVec.ofNat 64 (8 * s.flen.toNat)) (resetCursor (prologue s)) := if_pos h
  rw [exec_eq, command, bodyOf, hbody, Body.finish, raise_resetCursor]
  rfl

/-- EMBED of a frame, not empty, when the grid or the frame does not fit its memory (R152). -/
theorem exec_embed_limit {s : State} (hN : 8 * s.flen.toNat ≤ s.grid.pixels)
    (h : ¬ (s.flen = 0 ∨ (s.grid.pixels ≤ s.caps.pixWords ∧ s.flen.toNat ≤ s.caps.frmBytes))) :
    exec .embed s = .next { endedWith 9 (embedLimitBits s.caps s.grid.pixels s.flen.toNat) s with
      cursor := Cursor.start } := by
  obtain ⟨hne, hroom⟩ := not_or.mp h
  have hf : s.flen.toNat ≠ 0 := fun e => hne (BitVec.eq_of_toNat_eq e)
  have hbits := mt embedLimitBits_zero.mp hroom
  have hbody : embedBody (prologue s) = .raises .resourceLimit
      (BitVec.ofNat 64 (embedLimitBits s.caps s.grid.pixels s.flen.toNat)) (resetCursor (prologue s)) :=
    (if_neg (Nat.not_lt_of_le hN)).trans (if_pos ⟨hf, hbits⟩)
  rw [exec_eq, command, bodyOf, hbody, Body.finish, raise_resetCursor]
  rfl

/-- EMBED of an empty frame succeeds on any grid and touches no pixel (R162, log 17). -/
theorem exec_embed_empty {s : State} (h : s.flen = 0) :
    exec .embed s = .next { endedWith 0 0 s with cursor := Cursor.start } := by
  have hf : 8 * s.flen.toNat = 0 := by simp [h]
  rw [exec_embed_fits (hf.trans_le (Nat.zero_le _)) (.inl h), hf, cursorAfter_zero]
  rfl

/-- Settles O39: one lemma per clause. -/
theorem embedRefusesWhatDoesNotFit : Obligations.EmbedRefusesWhatDoesNotFit := by
  refine fun s => ⟨exec_embed_small, fun hN hne hroom => ?_, exec_embed_empty⟩
  rw [← embedLimitBits_eq]
  exact exec_embed_limit hN (not_or.mpr ⟨hne, by omega⟩)

/-! ### A second EMBED (R152, R178) -/

/-- A pass over the pixels of a pass that has embedded the same frame leaves PIX as that pass did: a visited pixel
carries its bit already, and no other word is written. -/
theorem EmbedDone.pix_again {s : State} {k : Nat} {r r' : EmbedRun} (first : EmbedDone s k r)
    (second : EmbedDone { s with pix := r.pix } k r') : r'.pix = r.pix := by
  refine Memory.ext_read second.wf first.wf fun a => ?_
  by_cases ha : ∃ j, j < k ∧ s.grid.addrOf j = a
  · obtain ⟨j, hj, rfl⟩ := ha
    have hword : State.pixAt { s with pix := r.pix } (s.grid.addrOf j) =
        setDB (s.pixAt (s.grid.addrOf j)) (frameBit s.frmAt j) := first.get_visited hj
    have hread : r'.pix.read (s.grid.addrOf j) =
        some (setDB (State.pixAt { s with pix := r.pix } (s.grid.addrOf j)) (frameBit s.frmAt j)) :=
      second.visited j hj
    rw [hread, hword, setDB_setDB, first.visited j hj]
  · exact second.unvisited a fun j hj e => ha ⟨j, hj, e⟩

/-- The state that an EMBED that fits leaves (R152). -/
def embedded (s : State) : State :=
  { endedWith 0 0 s with
    cursor := cursorAfter s.grid (8 * s.flen.toNat)
    pix := (embedLoop (embedInit s) (8 * s.flen.toNat) (embedStart (embedInit s))).pix }

theorem exec_embed_eq_embedded {s : State} (hN : 8 * s.flen.toNat ≤ s.grid.pixels)
    (hfit : s.flen = 0 ∨ (s.grid.pixels ≤ s.caps.pixWords ∧ s.flen.toNat ≤ s.caps.frmBytes)) :
    exec .embed s = .next (embedded s) :=
  exec_embed_fits hN hfit

theorem embedded_embedded {s : State} (hwf : s.pix.wf) (hN : 8 * s.flen.toNat ≤ s.grid.pixels) :
    embedded (embedded s) = embedded s := by
  have first := embedLoop_done (s := embedInit s) hwf hN
  have second := embedLoop_done (s := embedInit (embedded s)) first.wf hN
  have hpix : (embedded (embedded s)).pix = (embedded s).pix := first.pix_again second
  calc embedded (embedded s) = { embedded s with pix := (embedded (embedded s)).pix } := rfl
    _ = embedded s := by rw [hpix]

/-- Settles O40: a refused EMBED is refused again in the same way, and one that fits writes the same words again. -/
theorem embedTwiceIsEmbedOnce : Obligations.EmbedTwiceIsEmbedOnce := by
  intro s t hwf h
  by_cases hsmall : s.grid.pixels < 8 * s.flen.toNat
  · rw [exec_embed_small hsmall] at h
    cases h
    exact exec_embed_small hsmall
  · have hN := Nat.le_of_not_lt hsmall
    by_cases hfit : s.flen = 0 ∨ (s.grid.pixels ≤ s.caps.pixWords ∧ s.flen.toNat ≤ s.caps.frmBytes)
    · rw [exec_embed_eq_embedded hN hfit] at h
      cases h
      rw [exec_embed_eq_embedded (s := embedded s) hN hfit, embedded_embedded hwf hN]
    · rw [exec_embed_limit hN hfit] at h
      cases h
      exact exec_embed_limit hN hfit

/-! ### The rows of EXTRACT (R155 to R158) -/

/-- The state in which the loop of an EXTRACT runs: the prologue made, the cursor and FLEN cleared (R96, R155). -/
def extractPass (s : State) : State := extractInit (prologue s)

/-- What EXTRACT reads of PIX is what the state it started in holds. -/
theorem assembledByte_extractPass (s : State) : assembledByte (extractPass s) = assembledByte s := rfl

/-- EXTRACT on a grid larger than PIX (R158 row 1). -/
theorem exec_extract_beyond_pix {m : Mode} {s : State} (h : s.caps.pixWords < s.grid.pixels) :
    exec (extractOf m) s = .next { endedWith 9 1 s with flen := 0, cursor := Cursor.start } := by
  have hbody : extractBody m (prologue s) = .raises .resourceLimit (BitVec.ofNat 64 1) (extractPass s) := if_pos h
  rw [exec_extract, command, hbody]
  exact congrArg _ (raise_ofNat .resourceLimit 1 (extractInit s))

/-- Settles O42: the grid is tested before the loop. -/
theorem extractRefusesAGridBeyondPix : Obligations.ExtractRefusesAGridBeyondPix :=
  fun _ _ h => exec_extract_beyond_pix h

theorem headerSize_le (m : Mode) : headerSize m ≤ 12 := by cases m <;> decide

/-- EXTRACT on a grid that PIX holds is the end of its loop, which comes to one of the rows 2 to 7 of R158. -/
theorem exec_extract_ends (m : Mode) {s : State} (hwf : s.frm.wf) (hcaps : s.caps.wellFormed = true)
    (hfit : s.grid.pixels ≤ s.caps.pixWords) :
    ∃ e, ExtractEnds m (extractPass s) e ∧
      exec (extractOf m) s = .next (extractEnd m (extractPass s) e).finish := by
  obtain ⟨-, ⟨hfrm, -⟩, -, -⟩ := (caps_wellFormed_iff s.caps).mp hcaps
  refine ⟨_, extractLoop_ends m (extractPass s) hwf hfrm, ?_⟩
  have hbody : extractBody m (prologue s) = _ := if_neg (Nat.not_lt_of_le hfit)
  rw [exec_extract, command, hbody]
  rfl

/-- FRM after `k` pixels: the whole bytes read that have a place in it, over what it held (R153). -/
theorem ExtractDone.get {s : State} {k : Nat} {r : ExtractRun} (d : ExtractDone s k r) (j : Nat) :
    Memory.get (Config.unwrittenFrm s.resets) r.frm j =
      if j < k / 8 ∧ j < s.caps.frmBytes then assembledByte s j else s.frmAt j := by
  rw [Memory.get, d.stored j]
  split <;> rfl

/-- An EXTRACT whose loop has stopped after `k` pixels and which ends with an error (R155, R186, R187). -/
theorem exec_extract_raises {m : Mode} {s : State} {e : ErrorName} {info k : Nat} {r : ExtractRun}
    (hexec : exec (extractOf m) s =
      .next (extractEnd m (extractPass s) (.raises e (BitVec.ofNat 64 info) r)).finish)
    (d : ExtractDone (extractPass s) k r) :
    ∃ t, exec (extractOf m) s = .next t ∧
      t = { endedWith e.code info s with flen := 0, cursor := cursorAfter s.grid k, frm := t.frm } ∧
      ∀ j, t.frmAt j = if j < k / 8 ∧ j < s.caps.frmBytes then assembledByte s j else s.frmAt j := by
  have hend : (extractEnd m (extractPass s) (.raises e (BitVec.ofNat 64 info) r)).finish =
      { endedWith e.code info s with flen := 0, cursor := r.cursor, frm := r.frm } :=
    raise_ofNat e info (r.store (extractInit s))
  rw [hend, d.cursor] at hexec
  exact ⟨_, hexec, rfl, d.get⟩

section
variable {m : Mode} {s : State} {e : ExtractStop}

/-- Row 2 of R158 is the one row of a grid with fewer pixels than the header has bits. -/
theorem ExtractEnds.of_no_header (h : ExtractEnds m s e) (hN : s.grid.pixels < 8 * headerSize m) :
    ∃ r, ExtractDone s s.grid.pixels r ∧ e = .raises .truncatedPayload (BitVec.ofNat 64 0) r := by
  cases h with
  | noHeader r _ d => exact ⟨r, d, rfl⟩
  | _ => omega

/-- Row 3 of R158 is the one row of a header without the magic. -/
theorem ExtractEnds.of_magicBad {found : Nat} (h : ExtractEnds m s e) (hN : 8 * headerSize m ≤ s.grid.pixels)
    (hdec : hdrDecode m (assembledByte s) = .magicBad found) :
    ∃ r, ExtractDone s (8 * headerSize m) r ∧ e = .raises .magicMismatch (BitVec.ofNat 64 found) r := by
  cases h with
  | noHeader => omega
  | badMagic r found' _ hh d =>
    cases hh.symm.trans hdec
    exact ⟨r, d, rfl⟩
  | truncated _ _ _ hh | noRoom _ _ _ hh | whole _ _ _ hh => cases hh.symm.trans hdec

/-- Rows 4, 5, 6 and 7 of R158 are those of a header with the magic; N, the total and FRM_BYTES tell them apart. -/
theorem ExtractEnds.of_header {hd : Header} (h : ExtractEnds m s e) (hN : 8 * headerSize m ≤ s.grid.pixels)
    (hdec : hdrDecode m (assembledByte s) = .ok hd) :
    (s.grid.pixels < 8 * hd.total ∧ ∃ r, ExtractDone s s.grid.pixels r ∧
      e = .raises .truncatedPayload (BitVec.ofNat 64 hd.total) r) ∨
    (8 * hd.total ≤ s.grid.pixels ∧ s.caps.frmBytes < hd.total ∧ ∃ r, ExtractDone s (8 * headerSize m) r ∧
      e = .raises .resourceLimit (BitVec.ofNat 64 2) r) ∨
    (8 * hd.total ≤ s.grid.pixels ∧ hd.total ≤ s.caps.frmBytes ∧ ∃ r, ExtractDone s (8 * hd.total) r ∧
      e = .complete hd r) := by
  cases h with
  | noHeader => omega
  | badMagic _ _ _ hh => cases hh.symm.trans hdec
  | truncated r hd' _ hh ht d =>
    cases hh.symm.trans hdec
    exact .inl ⟨ht, r, d, rfl⟩
  | noRoom r hd' _ hh ht hf d =>
    cases hh.symm.trans hdec
    exact .inr (.inl ⟨ht, hf, r, d, rfl⟩)
  | whole r hd' _ hh ht hf d =>
    cases hh.symm.trans hdec
    exact .inr (.inr ⟨ht, hf, r, d, rfl⟩)

end

/-- Settles O43: row 2, where every whole byte of the grid has a place in FRM. -/
theorem extractTruncatedBeforeTheHeader : Obligations.ExtractTruncatedBeforeTheHeader := by
  intro m s hwf hcaps hfit hN
  obtain ⟨-, ⟨hfrm, -⟩, -, -⟩ := (caps_wellFormed_iff s.caps).mp hcaps
  have hhs := headerSize_le m
  obtain ⟨e, hends, hexec⟩ := exec_extract_ends m hwf hcaps hfit
  obtain ⟨r, d, rfl⟩ := hends.of_no_header hN
  obtain ⟨t, ht, heq, hbytes⟩ := exec_extract_raises (k := s.grid.pixels) hexec d
  exact ⟨t, ht, heq, fun j => (hbytes j).trans (if_congr (by omega) rfl rfl)⟩

/-- Settles O44: row 3, after exactly the header bytes. -/
theorem extractRejectsAWrongMagic : Obligations.ExtractRejectsAWrongMagic := by
  intro m s found hwf hcaps hfit hN hdec
  obtain ⟨-, ⟨hfrm, -⟩, -, -⟩ := (caps_wellFormed_iff s.caps).mp hcaps
  have hhs := headerSize_le m
  obtain ⟨e, hends, hexec⟩ := exec_extract_ends m hwf hcaps hfit
  obtain ⟨r, d, rfl⟩ := hends.of_magicBad hN hdec
  obtain ⟨t, ht, heq, hbytes⟩ := exec_extract_raises hexec d
  exact ⟨t, ht, heq, fun j => (hbytes j).trans (if_congr (by omega) rfl rfl)⟩

/-- Settles O45: row 4, after all the pixels of the grid. -/
theorem extractTruncatedBeforeTheTotal : Obligations.ExtractTruncatedBeforeTheTotal := by
  intro m s hd hwf hcaps hfit hN hdec hshort
  obtain ⟨e, hends, hexec⟩ := exec_extract_ends m hwf hcaps hfit
  obtain ⟨-, r, d, rfl⟩ | ⟨hlong, -⟩ | ⟨hlong, -⟩ := hends.of_header hN hdec
  · exact exec_extract_raises hexec d
  · exact absurd hshort (Nat.not_lt_of_le hlong)
  · exact absurd hshort (Nat.not_lt_of_le hlong)

/-- A header that was decoded is no longer than the total it declares (R124, R126). -/
theorem headerSize_le_total {m : Mode} {f : Nat → Byte} {hd : Header} (h : hdrDecode m f = .ok hd) :
    headerSize m ≤ hd.total := by
  obtain ⟨-, -, htotal, -⟩ := hdrDecode_ok h
  omega

/-- Settles O46: row 5, after exactly the header bytes. -/
theorem extractRefusesAFrameBeyondFrm : Obligations.ExtractRefusesAFrameBeyondFrm := by
  intro m s hd hwf hcaps hfit hdec hlong hbig
  obtain ⟨-, ⟨hfrm, -⟩, -, -⟩ := (caps_wellFormed_iff s.caps).mp hcaps
  have hhs := headerSize_le m
  have htotal := headerSize_le_total hdec
  have hN : 8 * headerSize m ≤ s.grid.pixels := by omega
  obtain ⟨e, hends, hexec⟩ := exec_extract_ends m hwf hcaps hfit
  obtain ⟨hshort, -⟩ | ⟨-, -, r, d, rfl⟩ | ⟨-, hroom, -⟩ := hends.of_header hN hdec
  · exact absurd hshort (Nat.not_lt_of_le hlong)
  · obtain ⟨t, ht, heq, hbytes⟩ := exec_extract_raises hexec d
    exact ⟨t, ht, heq, fun j => (hbytes j).trans (if_congr (by omega) rfl rfl)⟩
  · exact absurd hbig (Nat.not_lt_of_le hroom)

/-- The rows 6 and 7 of R158: the loop of an EXTRACT of a frame that the grid and FRM hold ends with that frame. -/
theorem exec_extract_whole {m : Mode} {s : State} {hd : Header} (hwf : s.frm.wf) (hcaps : s.caps.wellFormed = true)
    (hfit : s.grid.pixels ≤ s.caps.pixWords) (hdec : hdrDecode m (assembledByte s) = .ok hd)
    (hlong : 8 * hd.total ≤ s.grid.pixels) (hroom : hd.total ≤ s.caps.frmBytes) :
    ∃ r, ExtractDone (extractPass s) (8 * hd.total) r ∧
      exec (extractOf m) s = .next (extractEnd m (extractPass s) (.complete hd r)).finish := by
  have htotal := headerSize_le_total hdec
  have hN : 8 * headerSize m ≤ s.grid.pixels := by omega
  obtain ⟨e, hends, hexec⟩ := exec_extract_ends m hwf hcaps hfit
  obtain ⟨hshort, -⟩ | ⟨-, hbig, -⟩ | ⟨-, -, r, d, rfl⟩ := hends.of_header hN hdec
  · exact absurd hshort (Nat.not_lt_of_le hlong)
  · exact absurd hbig (Nat.not_lt_of_le hroom)
  · exact ⟨r, d, hexec⟩

/-- FRM after a whole frame: its bytes, over what FRM held (R158 rows 6 and 7). -/
theorem ExtractDone.get_whole {s : State} {total : Nat} {r : ExtractRun} (d : ExtractDone s (8 * total) r)
    (hroom : total ≤ s.caps.frmBytes) (j : Nat) :
    Memory.get (Config.unwrittenFrm s.resets) r.frm j = if j < total then assembledByte s j else s.frmAt j :=
  (d.get j).trans (if_congr (by omega) rfl rfl)

/-- The name that EXTRACT checks in FRM is the name in the assembled bytes (R155). -/
theorem ExtractDone.badName_get {m : Mode} {s : State} {hd : Header} {r : ExtractRun}
    (d : ExtractDone s (8 * hd.total) r) (hroom : hd.total ≤ s.caps.frmBytes)
    (hdec : hdrDecode m (assembledByte s) = .ok hd) :
    badName m hd.n (Memory.get (Config.unwrittenFrm s.resets) r.frm) =
      if m = .file then utf8FirstBad (slice (assembledByte s) 12 hd.n) else none := by
  obtain ⟨-, -, htotal, hmessage⟩ := hdrDecode_ok hdec
  have hname : 12 + hd.n ≤ hd.total ∨ hd.n = 0 := by
    cases m with
    | file => exact .inl (by simp only [headerSize] at htotal; omega)
    | message => exact .inr (hmessage rfl)
  rw [← badName_eq]
  refine badName_congr m hd.n fun j hlo hhi => ?_
  rw [d.get_whole hroom, if_pos (by omega)]

/-- Settles O47: row 6, the name check after a whole frame. -/
theorem extractRejectsABadName : Obligations.ExtractRejectsABadName := by
  intro s hd i hwf hcaps hfit hdec hlong hroom hbad
  obtain ⟨r, d, hexec⟩ := exec_extract_whole hwf hcaps hfit hdec hlong hroom
  have hname := d.badName_get (m := .file) hroom hdec
  have hstop : extractEnd .file (extractPass s) (.complete hd r) =
      extractEnd .file (extractPass s) (.raises .invalidEncoding (BitVec.ofNat 64 i) r) := by
    rw [extractEnd, hname, if_pos rfl, assembledByte_extractPass, hbad, extractEnd]
  rw [hstop] at hexec
  obtain ⟨t, ht, heq, hbytes⟩ := exec_extract_raises hexec d
  exact ⟨t, ht, heq, fun j => (hbytes j).trans (if_congr (by omega) rfl rfl)⟩

/-- Settles O41: row 7, the results and FLEN after a whole frame that passes the name check. -/
theorem extractRecoversAWholeFrame : Obligations.ExtractRecoversAWholeFrame := by
  intro m s hd hwf hcaps hfit hdec hlong hroom hutf8
  obtain ⟨r, d, hexec⟩ := exec_extract_whole hwf hcaps hfit hdec hlong hroom
  have hname := d.badName_get hroom hdec
  rw [assembledByte_extractPass, ite_eq_right_iff.mpr hutf8] at hname
  rw [extractEnd, hname, Body.finish, setResults_eq] at hexec
  have hcursor : r.cursor = cursorAfter s.grid (8 * hd.total) := d.cursor
  refine ⟨_, hexec, ?_, d.get_whole hroom⟩
  rw [← hcursor]
  rfl

/-! ### EXTRACT after EMBED (R163) -/

/-- The designated bits of the pixels, in the order of the traversal, begin with the bits of the first `total` of the
bytes (R115, R143). -/
def Carries (s : State) (bytes : Nat → Byte) (total : Nat) : Prop :=
  ∀ k, k < 8 * total → pixelBit s k = frameBit bytes k

/-- The bytes assembled from pixels that carry a frame are the frame's (R115, R158). -/
theorem Carries.assembledByte_eq {s : State} {bytes : Nat → Byte} {total j : Nat} (h : Carries s bytes total)
    (hj : j < total) : assembledByte s j = bytes j := by
  refine byte_ext fun i hi => ?_
  have hdiv : (8 * j + i) / 8 = j := by omega
  have hmod : (8 * j + i) % 8 = i := by omega
  rw [getLsbD_assembledByte s j i hi, h (8 * j + i) (by omega), frameBit, hdiv, hmod]

/-- Every state with the grid and the PIX that an EMBED leaves carries the frame that was embedded (R152, R160). -/
theorem carries_of_embed {s t u : State} (hwf : s.pix.wf) (hN : 8 * s.flen.toNat ≤ s.grid.pixels)
    (hfit : s.grid.pixels ≤ s.caps.pixWords ∧ s.flen.toNat ≤ s.caps.frmBytes) (ht : exec .embed s = .next t)
    (hgrid : u.grid = t.grid) (hpix : u.pix = t.pix) (hresets : u.resets = t.resets) :
    Carries u s.frmAt s.flen.toNat := by
  intro k hk
  obtain ⟨t', ht', heq, hvisited, -⟩ := embedWritesTheFrameBits s hwf hN (.inr hfit)
  cases ht.symm.trans ht'
  have hgrid' : u.grid = s.grid := by rw [hgrid, heq]; rfl
  have hword : u.pixAt = t.pixAt := by funext a; rw [State.pixAt, hpix, hresets, State.pixAt]
  rw [pixelBit, hgrid', hword, hvisited k hk, getDB_setDB]

/-- EXTRACT of pixels that carry a frame of its mode (R120, R163): it delivers the lengths of the frame and writes its
bytes to FRM. -/
theorem exec_extract_carried {m : Mode} {n p : Nat} {s : State} {bytes : Nat → Byte}
    (hframe : HoldsFrame m n p bytes) (hcarries : Carries s bytes (headerSize m + n + p)) (hwf : s.frm.wf)
    (hcaps : s.caps.wellFormed = true) (hfit : s.grid.pixels ≤ s.caps.pixWords)
    (hN : 8 * (headerSize m + n + p) ≤ s.grid.pixels) (hroom : headerSize m + n + p ≤ s.caps.frmBytes) :
    ∃ t, exec (extractOf m) s = .next t ∧
      t = { withResults (namePresent m n) n p (headerSize m + n + p) (endedWith 0 0 s) with
        flen := BitVec.ofNat 32 (headerSize m + n + p)
        cursor := cursorAfter s.grid (8 * (headerSize m + n + p)), frm := t.frm } ∧
      ∀ j, j < headerSize m + n + p → t.frmAt j = bytes j := by
  obtain ⟨hn, hp, hmessage, hheader, hutf8⟩ := hframe
  have hbytes : ∀ j, j < headerSize m + n + p → assembledByte s j = bytes j := fun j hj =>
    hcarries.assembledByte_eq hj
  have hdec : hdrDecode m (assembledByte s) = .ok ⟨n, p, headerSize m + n + p⟩ :=
    hdrDecode_hdrEncode m n p hn hp hmessage _ fun j hj => (hbytes j (by omega)).trans (hheader j hj)
  have hname : m = .file → utf8FirstBad (slice (assembledByte s) 12 n) = none := by
    rintro rfl
    rw [← hutf8 rfl, slice_congr fun j _ hj => hbytes j (by simp only [headerSize]; omega)]
  obtain ⟨t, ht, heq, hfrm⟩ := extractRecoversAWholeFrame m s _ hwf hcaps hfit hdec hN hroom hname
  exact ⟨t, ht, heq, fun j hj => by rw [hfrm j, if_pos hj, hbytes j hj]⟩

/-- Settles O49: the grid carries the frame after EMBED, and EXTRACT recovers what a grid carries. -/
theorem extractRecoversTheEmbeddedFrame : Obligations.ExtractRecoversTheEmbeddedFrame := by
  intro m n p s hwf hcaps hframe hflen hroom hN hfit
  have hembed := exec_embed_eq_embedded hN (.inr ⟨hfit, hroom⟩)
  refine ⟨embedded s, hembed, rfl, fun u hgrid hucaps hpix hresets hufrm => ?_⟩
  have hgrid' : u.grid = s.grid := hgrid
  have hcaps' : u.caps = s.caps := hucaps
  have hcarries := carries_of_embed hwf hN ⟨hfit, hroom⟩ hembed hgrid hpix hresets
  rw [hflen] at hcarries hN hroom
  obtain ⟨v, hv, heq, hbytes⟩ := exec_extract_carried hframe hcarries hufrm (by rwa [hcaps']) (by rwa [hgrid', hcaps'])
    (by rwa [hgrid']) (by rwa [hcaps'])
  obtain ⟨hn, hp, -⟩ := hframe
  have hlt := s.flen.isLt
  refine ⟨v, hv, by rw [heq]; rfl, ?flen, ?rnlen, ?rplen, ?rtot, by rw [heq]; rfl, ?bytes⟩
  case flen => rw [heq, ← hflen]; exact (BitVec.ofNat_toNat 32 s.flen).trans (BitVec.setWidth_eq s.flen)
  case rnlen => rw [heq]; exact (BitVec.toNat_ofNat n 32).trans (Nat.mod_eq_of_lt hn)
  case rplen => rw [heq]; exact (BitVec.toNat_ofNat p 32).trans (Nat.mod_eq_of_lt hp)
  case rtot => rw [heq, hflen]; exact rtot_eq_total rfl rfl (by omega)
  case bytes => rw [hflen]; exact hbytes

end Sys2Proof.Machine
end

section
/-! PROOFS. The composite paths: ENCODE as BUILD and then EMBED (R170, R171), its refusals (R174), the round trip
(R173, R177), and DECODE as another name of EXTRACT (R172). -/

namespace Sys2Proof.Machine

/-! ### The bytes of a built frame (R120, R121) -/

theorem builtByte_header {m : Mode} {n p j : Nat} (s : State) (h : j < headerSize m) :
    builtByte m n p s j = (hdrEncode m n p).getD j 0 :=
  if_pos h

theorem builtByte_name {m : Mode} {n p j : Nat} (s : State) (h : j < n) :
    builtByte m n p s (headerSize m + j) = s.namAt j := by
  rw [builtByte, if_neg (by omega), if_pos (by omega), Nat.add_sub_cancel_left]

theorem builtByte_payload (m : Mode) (n p j : Nat) (s : State) :
    builtByte m n p s (headerSize m + n + j) = s.payAt j := by
  rw [builtByte, if_neg (by omega), if_neg (by omega), Nat.sub_sub, Nat.add_sub_cancel_left]

/-- Two slices of the same bytes, at places of their own (R11). -/
theorem slice_eq_slice {f g : Nat → Byte} {a b n : Nat} (h : ∀ j, j < n → f (a + j) = g (b + j)) :
    slice f a n = slice g b n :=
  List.map_congr_left fun j hj => h j (List.mem_range.mp hj)

/-- The bytes that BUILD makes are a frame when its lengths fit their fields and its name is valid UTF-8 (R173). -/
theorem holdsFrame_built {m : Mode} {s : State} {bytes : Nat → Byte} (hfits : BuildFits m s)
    (hutf8 : m = .file → utf8FirstBad (slice s.namAt 0 (s.nameLen m)) = none)
    (hbytes : ∀ j, j < headerSize m + s.nameLen m + s.plen → bytes j = builtByte m (s.nameLen m) s.plen s j) :
    HoldsFrame m (s.nameLen m) s.plen bytes := by
  obtain ⟨hn, hp, -⟩ := hfits
  refine ⟨hn, hp, nameLen_message m s, fun j hj => ?header, ?name⟩
  case header => rw [hbytes j (by omega), builtByte_header s hj]
  case name =>
    rintro rfl
    rw [← hutf8 rfl]
    refine congrArg utf8FirstBad (slice_eq_slice fun j hj => ?_)
    rw [hbytes _ (by simp only [headerSize]; omega), Nat.zero_add]
    exact builtByte_name s hj

/-! ### The state that BUILD leaves (R130, R131) -/

theorem BuildFits.total_le {m : Mode} {s : State} (h : BuildFits m s) :
    headerSize m + s.nameLen m + s.plen ≤ s.caps.frmBytes := by
  obtain ⟨-, -, hroom, -⟩ := h
  exact hroom

/-- The state that a BUILD that fits leaves. -/
def built (m : Mode) (s : State) : State :=
  { endedWith 0 0 s with
    frm := s.frm.writeAll 0 (frameBytes m (s.nameLen m) s.plen s.namAt s.payAt)
    flen := BitVec.ofNat 32 (headerSize m + s.nameLen m + s.plen) }

theorem exec_build_eq_built {m : Mode} {s : State} (h : BuildFits m s) : exec (buildOf m) s = .next (built m s) :=
  exec_build_fits h

/-- FLEN holds the total itself: a frame that fits FRM is shorter than 2^32 (R7). -/
theorem built_flen_toNat {m : Mode} {s : State} (hcaps : s.caps.wellFormed = true) (h : BuildFits m s) :
    (built m s).flen.toNat = headerSize m + s.nameLen m + s.plen := by
  obtain ⟨-, ⟨-, hfrm⟩, -, -⟩ := (caps_wellFormed_iff s.caps).mp hcaps
  have hroom := h.total_le
  exact (BitVec.toNat_ofNat _ 32).trans (Nat.mod_eq_of_lt (by omega))

/-- A built frame is never empty: it has its header (R123). -/
theorem built_flen_ne_zero {m : Mode} {s : State} (hcaps : s.caps.wellFormed = true) (h : BuildFits m s) :
    (built m s).flen ≠ 0 := by
  have hheader : 0 < headerSize m := by cases m <;> decide
  have hpos : (built m s).flen.toNat ≠ 0 := by rw [built_flen_toNat hcaps h]; omega
  exact fun hzero => hpos (congrArg BitVec.toNat hzero)

theorem built_frmAt (m : Mode) {s : State} (hwf : s.frm.wf) (j : Nat) : (built m s).frmAt j =
    if j < headerSize m + s.nameLen m + s.plen then builtByte m (s.nameLen m) s.plen s j else s.frmAt j :=
  frmAt_built m s hwf j

theorem built_frmAt_of_lt {m : Mode} {s : State} (hwf : s.frm.wf) {j : Nat}
    (hj : j < headerSize m + s.nameLen m + s.plen) : (built m s).frmAt j = builtByte m (s.nameLen m) s.plen s j := by
  rw [built_frmAt m hwf, if_pos hj]

/-- The bits of the built frame are those of its bytes (R115). -/
theorem frameBit_built {m : Mode} {s : State} (hwf : s.frm.wf) {k : Nat}
    (hk : k < 8 * (headerSize m + s.nameLen m + s.plen)) :
    frameBit (built m s).frmAt k = frameBit (builtByte m (s.nameLen m) s.plen s) k := by
  rw [frameBit, built_frmAt_of_lt hwf (by omega), frameBit]

/-! ### ENCODE as BUILD and then EMBED (R170, R171) -/

/-! The operands of BUILD do not depend on the cursor (R130, R131). -/

@[simp] theorem resetCursor_plen (s : State) : (resetCursor s).plen = s.plen := rfl
@[simp] theorem resetCursor_nameLen (m : Mode) (s : State) : (resetCursor s).nameLen m = s.nameLen m := by
  cases m <;> rfl

@[simp] theorem buildFits_resetCursor {m : Mode} {s : State} : BuildFits m (resetCursor s) ↔ BuildFits m s := by
  simp [BuildFits]

/-- `EmbedBody` clears the cursor itself, so it does not matter that ENCODE has cleared it before. -/
theorem embedBody_resetCursor (s : State) : embedBody (resetCursor s) = embedBody s := rfl

/-- ENCODE after a BUILD that fits: what its BUILD lines leave differs from what an EMBED of the built frame starts
from in nothing but the cursor. -/
theorem exec_encode_of_fits {m : Mode} {s : State} (h : BuildFits m s) :
    exec (encodeOf m) s = exec .embed (built m s) := by
  have hbuild : buildBody m (resetCursor (prologue s)) = .ends (resetCursor (prologue (built m s))) := by
    rw [buildBody_of_fits (by simpa using h), resetCursor_nameLen, prologue_nameLen]
    rfl
  rw [exec_encode, command, encodeBody, hbuild, Body.andThen, embedBody_resetCursor, exec_eq, command, bodyOf]

/-- The BUILD lines raise where the lengths do not fit, with the same error wherever the cursor stands (R130, R131). -/
theorem buildBody_of_not_fits {m : Mode} {s : State} (h : ¬ BuildFits m s) : ∃ (e : ErrorName) (info : Nat),
    e.code ≠ 0 ∧ buildBody m s = .raises e (BitVec.ofNat 64 info) s ∧
      buildBody m (resetCursor s) = .raises e (BitVec.ofNat 64 info) (resetCursor s) := by
  have hreset : ¬ BuildFits m (resetCursor s) := by simpa using h
  by_cases htoo : tooLargeBits (s.nameLen m) s.plen = 0
  · have hrl := buildBody_of_limit (s := resetCursor s) (by simpa using htoo) hreset
    rw [resetCursor_nameLen, resetCursor_plen, resetCursor_caps] at hrl
    exact ⟨_, _, by decide, buildBody_of_limit htoo h, hrl⟩
  · have hlarge := buildBody_of_tooLarge (m := m) (s := resetCursor s) (by simpa using htoo)
    rw [resetCursor_nameLen, resetCursor_plen] at hlarge
    exact ⟨_, _, by decide, buildBody_of_tooLarge htoo, hlarge⟩

/-- A BUILD that does not fit, and ENCODE with the same operands, which ends there too with its cursor cleared. -/
theorem exec_build_and_encode_of_not_fits {m : Mode} {s : State} (h : ¬ BuildFits m s) :
    ∃ t, exec (buildOf m) s = .next t ∧ t.status.err ≠ 0 ∧
      exec (encodeOf m) s = .next { t with cursor := Cursor.start } := by
  obtain ⟨e, info, hcode, hbuild, hreset⟩ := buildBody_of_not_fits (s := prologue s) (by simpa using h)
  refine ⟨endedWith e.code info s, by rw [exec_build, command_of_raises hbuild], hcode, ?_⟩
  rw [exec_encode, command, encodeBody, hreset, Body.andThen, Body.finish, raise_resetCursor]

/-- Settles O51: whether the lengths fit decides how BUILD ends. -/
theorem encodeIsBuildThenEmbed : Obligations.EncodeIsBuildThenEmbed := by
  intro m s t ht
  by_cases hfits : BuildFits m s
  · cases (exec_build_eq_built hfits).symm.trans ht
    exact ⟨fun _ => exec_encode_of_fits hfits, fun herr => absurd rfl herr⟩
  · obtain ⟨t', hbuild, herr, hencode⟩ := exec_build_and_encode_of_not_fits hfits
    cases hbuild.symm.trans ht
    exact ⟨fun h => absurd h herr, fun _ => hencode⟩

/-- Settles O50: EMBED of the built frame, in a state that has the pixels and the grid of the one before. -/
theorem encodeWritesFrameAndPixels : Obligations.EncodeWritesFrameAndPixels := by
  intro m s hfrm hpix hcaps hfits hN hgrid
  have hflen := built_flen_toNat hcaps hfits
  have hroom := hfits.total_le
  obtain ⟨t, ht, heq, hvisited, hother⟩ := embedWritesTheFrameBits (built m s) hpix (by rwa [hflen])
    (.inr ⟨hgrid, by rwa [hflen]⟩)
  rw [hflen] at heq hvisited hother
  refine ⟨t, (exec_encode_of_fits hfits).trans ht, ?state, fun j => ?frame, fun k hk => ?visited, hother⟩
  case state => rw [heq]; rfl
  case frame => rw [heq]; exact built_frmAt m hfrm j
  case visited => rw [← frameBit_built hfrm hk]; exact hvisited k hk

/-! ### What ENCODE refuses (R174) -/

/-- Where the frame fits FRM, the one bit of `rl` that can be set is the grid's (R152, R183). -/
theorem embedLimitBits_of_big_grid {c : Caps} {pixels f : Nat} (hgrid : c.pixWords < pixels) (hf : f ≤ c.frmBytes) :
    embedLimitBits c pixels f = 1 := by
  rw [embedLimitBits_eq, if_pos hgrid, if_neg (Nat.not_lt_of_le hf)]

/-- EMBED of a frame, not empty, that fits FRM and the grid, when the grid is larger than PIX (R152). -/
theorem exec_embed_big_grid {s : State} (hN : 8 * s.flen.toNat ≤ s.grid.pixels) (hne : s.flen ≠ 0)
    (hroom : s.flen.toNat ≤ s.caps.frmBytes) (hgrid : s.caps.pixWords < s.grid.pixels) :
    exec .embed s = .next { endedWith 9 1 s with cursor := Cursor.start } := by
  rw [exec_embed_limit hN (not_or.mpr ⟨hne, by omega⟩), embedLimitBits_of_big_grid hgrid hroom]

/-- Settles O52: the EMBED of the built frame, which fits FRM, refuses the grid. -/
theorem encodeRefusesTheGrid : Obligations.EncodeRefusesTheGrid := by
  intro m s hfrm hcaps hfits total err info hcase
  have hflen : (built m s).flen.toNat = total := built_flen_toNat hcaps hfits
  have hembed : exec .embed (built m s) = .next { endedWith err info (built m s) with cursor := Cursor.start } := by
    obtain ⟨hsmall, rfl, rfl⟩ | ⟨hN, hbig, rfl, rfl⟩ := hcase
    · rw [← hflen] at hsmall ⊢
      exact exec_embed_small hsmall
    · rw [← hflen] at hN
      exact exec_embed_big_grid hN (built_flen_ne_zero hcaps hfits) (hflen.trans_le hfits.total_le) hbig
  exact ⟨_, (exec_encode_of_fits hfits).trans hembed, rfl, built_frmAt m hfrm⟩

/-! ### The round trip (R173, R177) -/

/-- Settles O53: EXTRACT after the EMBED of the built frame, whose bytes behind the header are the name and the
payload. -/
theorem encodeThenExtractRoundTrip : Obligations.EncodeThenExtractRoundTrip := by
  intro m s hfrm hpix hcaps hfits hN hgrid hutf8
  have hflen := built_flen_toNat hcaps hfits
  have hroom := hfits.total_le
  have hframe := holdsFrame_built hfits hutf8 fun j hj => built_frmAt_of_lt hfrm hj
  obtain ⟨t, ht, herr, hextract⟩ := extractRecoversTheEmbeddedFrame m (s.nameLen m) s.plen (built m s) hpix hcaps
    hframe hflen (by rwa [hflen]) (by rwa [hflen]) hgrid
  refine ⟨t, (exec_encode_of_fits hfits).trans ht, herr, fun u hugrid hucaps hupix huresets hufrm => ?_⟩
  obtain ⟨v, hv, hverr, hvflen, hrnlen, hrplen, hrtot, hnp, hbytes⟩ := hextract u hugrid hucaps hupix huresets hufrm
  rw [hflen] at hrtot hbytes
  have hbuilt : ∀ j, j < headerSize m + s.nameLen m + s.plen → v.frmAt j = builtByte m (s.nameLen m) s.plen s j :=
    fun j hj => (hbytes j hj).trans (built_frmAt_of_lt hfrm hj)
  refine ⟨v, hv, hverr, hrnlen, hrplen, hrtot, by rw [hvflen, hflen, hrtot], hnp, fun j hj => ?name,
    fun j hj => ?payload⟩
  case name => rw [hbuilt _ (by omega), builtByte_name s hj]
  case payload => rw [hbuilt _ (by omega), builtByte_payload]

/-! ### DECODE (R172) -/

/-- Settles O54: the assembler's alias of a mode is EXTRACT of that mode, whose word is then read off. -/
theorem decodeIsAnotherNameForExtract : Obligations.DecodeIsAnotherNameForExtract := by
  intro m
  cases m with
  | file => exact ⟨rfl, rfl⟩
  | message => exact ⟨rfl, rfl⟩

end Sys2Proof.Machine
end

section
/-! PROOFS. The error ends and the absence of stops: the codes of each command's row (R182), the idle core (R197), and
no stuck state (R186, R198, R222). -/

namespace Sys2Proof.Machine

/-! ### The codes of a command (R181, R182) -/

/-- Every row of R182 lists success. -/
theorem zero_mem_mayEndWith (i : Instr) : 0 ∈ mayEndWith i := by cases i <;> decide

/-- A body that raises leaves the code of its error in ERR (R186). -/
@[simp] theorem finish_raises_err (e : ErrorName) (info : BitVec 64) (s : State) :
    (Body.raises e info s).finish.status.err = e.code := rfl

/-- A body that ends keeps the ERR of its state (R97). -/
@[simp] theorem finish_ends_err (s : State) : (Body.ends s).finish.status.err = s.status.err := rfl

/-- Settles O18: a body raises only with a code of the row (`BodyDoes`), and one that ends keeps the prologue's
ERR 0. -/
theorem commandEndsOnlyWithItsCodes : Obligations.CommandEndsOnlyWithItsCodes := by
  intro i s t h
  obtain ⟨b, hb, rfl⟩ := exec_does h
  cases hb with
  | raises e x flen cursor frm code => rwa [finish_raises_err]
  | ends => simpa using zero_mem_mayEndWith i

/-! ### The step always answers with a next state (R197, R222) -/

/-- The host's move with no event to come (R197). -/
theorem hostMove_of_no_inputs {s : State} (h : s.inputs = []) : hostMove s = s := by
  simp only [hostMove, h]

/-- Where the core does not move, the host does (R73). -/
theorem step_of_not_coreMoves {s : State} (h : coreMoves s = false) : step s = .next (hostMove s) := by
  simp [step, h]

/-- Settles O16: a core that is not busy does not move, and the host has no event to come. -/
theorem idleCoreHoldsItsState : Obligations.IdleCoreHoldsItsState := by
  intro s hinputs hbusy
  have hidle : coreMoves s = false := by simp [coreMoves_eq, hbusy]
  rw [step_of_not_coreMoves hidle, hostMove_of_no_inputs hinputs]

/-- The latched word runs to a next state, whether it encodes a command or not (R95, R222). -/
theorem exists_runLatched_eq_next (s : State) : ∃ t, runLatched s = .next t := by
  unfold runLatched
  cases decode s.cmdw with
  | ok i => exact ⟨_, exec_eq i s⟩
  | error e => exact ⟨_, rfl⟩

/-- Settles O60: the core's move answers with a next state whatever is latched, and so does the host's. -/
theorem everyStepHasANextState : Obligations.EveryStepHasANextState := by
  intro s
  cases hmoves : coreMoves s with
  | true => simpa only [step, if_pos hmoves] using exists_runLatched_eq_next s
  | false => exact ⟨_, step_of_not_coreMoves hmoves⟩

end Sys2Proof.Machine
end

section
/-! PROOFS. What asserting `rst` and releasing it leave in the registers and on `irq` (R51, R210, R211). -/

namespace Sys2Proof.Machine

/-- The registers are as reset leaves them, whatever the core was doing (R210, R211). -/
theorem readReg_resetState (asserted : Bool) (s : State) (r : Reg) : (resetState asserted s).readReg r = 0 := by
  have hreg : (resetState asserted s).readReg r = State.reset.readReg r := by cases r <;> rfl
  exact hreg.trans (readReg_reset r)

theorem irq_reset : State.reset.irq = false := rfl

/-- `irq` depends on CTRL and STATUS only, which are as reset leaves them (R190, R211). -/
theorem irq_resetState (asserted : Bool) (s : State) : (resetState asserted s).irq = false := by
  rw [State.irq, resetState_ctrl, resetState_status]
  exact irq_reset

/-- Asserting the line, or moving it while it is asserted, resets the core (R210). -/
theorem setRst_eq_resetState {asserted : Bool} {s : State} (h : asserted = true ∨ s.rst = true) :
    setRst asserted s = resetState asserted s := by
  obtain e | ⟨hrelease, hreleased, -⟩ := setRst_cases asserted s
  · exact e
  · simp [hrelease, hreleased] at h

/-- A release of a line that is not asserted is no change (log 9). -/
theorem setRst_false_of_released {s : State} (h : s.rst = false) : setRst false s = s := by
  simp [setRst, h]

/-- Settles O1: the step is the change of the line, and that is `resetState` unless a line that is not asserted is
released. -/
theorem resetLeavesEveryRegisterZero : Obligations.ResetLeavesEveryRegisterZero := by
  refine ⟨readReg_reset, irq_reset, rfl, fun s asserted early rest hinputs hearly => ⟨fun hreset => ?_, ?_⟩⟩
  · have hstep : step s = .next (resetState asserted { s with inputs := rest }) :=
      (step_rst hinputs hearly).trans (congrArg Host.Outcome.next (setRst_eq_resetState hreset))
    exact ⟨_, hstep, readReg_resetState asserted _, irq_resetState asserted _, rfl, rfl, rfl⟩
  · rintro rfl hreleased
    exact (step_rst hinputs hearly).trans (congrArg Host.Outcome.next (setRst_false_of_released hreleased))

end Sys2Proof.Machine
end
